-- ==== Sys2Proof/Word.lean ====
section
/-! DEFINITION. The widths of rfc4648_codec_core: a byte, a 32-bit bus word, a 19-bit window offset. -/

namespace Sys2Proof

/-- One byte: an element of either buffer, and a symbol of encoded text (R9, R59). -/
abbrev Byte := BitVec 8

/-- One 32-bit register or bus data word (R22). -/
abbrev Word := BitVec 32

/-- A byte offset in the block's window, 0x00000 to 0x7FFFF (R50). -/
abbrev Offset := BitVec 19

end Sys2Proof
end

