-- ==== Sys2Proof/Syntax.lean ====
section
/-! DEFINITION. The syntax of commands: one constructor of `Instr` per row of spec/opcode_table.json, each with the three
option fields of the command word (R70). -/

namespace Sys2Proof

/-- The five tables of the alphabet ROM, in the order of their ALPH values 0 to 4 (R70, R100). -/
inductive Alphabet where
  | hex
  | base32
  | base32hex
  | base64
  | base64url
deriving DecidableEq, Repr

/-- The four values of the CASE field: 00, 01, 10 and the reserved 11 (R70). -/
inductive CaseMode where
  | upper
  | lower
  | mixed
  | reserved
deriving DecidableEq, Repr

/-- The two case modes a forward table has (R106, R107; R108 gives `mixed` none). -/
inductive LetterCase where
  | upper
  | lower
deriving DecidableEq, Repr

/-- A command word with RSVD = 0 and ALPH at most 4 (R70, R76). Every command carries the fields CASE, NOPAD and IGN as
written; which values an operation allows is `Instr.wellFormed` (R77). -/
inductive Instr where
  /-- OP 0x0, R126. -/
  | enc16 (cs : CaseMode) (nopad ign : Bool)
  /-- OP 0x1, R151. -/
  | dec16 (cs : CaseMode) (nopad ign : Bool)
  /-- OP 0x2, R127. -/
  | enc32 (cs : CaseMode) (nopad ign : Bool)
  /-- OP 0x3, R152. -/
  | dec32 (cs : CaseMode) (nopad ign : Bool)
  /-- OP 0x4, R128. -/
  | enc32hex (cs : CaseMode) (nopad ign : Bool)
  /-- OP 0x5, R153. -/
  | dec32hex (cs : CaseMode) (nopad ign : Bool)
  /-- OP 0x6, R129. -/
  | enc64 (cs : CaseMode) (nopad ign : Bool)
  /-- OP 0x7, R154. -/
  | dec64 (cs : CaseMode) (nopad ign : Bool)
  /-- OP 0x8, R130. -/
  | enc64url (cs : CaseMode) (nopad ign : Bool)
  /-- OP 0x9, R155. -/
  | dec64url (cs : CaseMode) (nopad ign : Bool)
deriving DecidableEq, Repr

end Sys2Proof
end

