-- ==== Sys2Proof/WellFormed.lean ====
section
/-! DEFINITION. Which commands are legal, as a check on syntax: the option columns of R76, which are the last four lines
of the predicate of R77. -/

namespace Sys2Proof

/-- CASE legal "00, 01" (R76: ENC16, ENC32, ENC32HEX): neither mixed nor reserved. -/
def CaseMode.legalForEncode : CaseMode → Bool
  | .upper | .lower => true
  | .mixed | .reserved => false

/-- CASE legal "00, 01, 10" (R76: DEC16, DEC32, DEC32HEX): not reserved. -/
def CaseMode.legalForDecode : CaseMode → Bool
  | .upper | .lower | .mixed => true
  | .reserved => false

/-- CASE legal "00 only" (R76: the base64 commands). -/
def CaseMode.legalForBase64 : CaseMode → Bool
  | .upper => true
  | .lower | .mixed | .reserved => false

/-- A command is well formed when its options are those R76 allows for its mnemonic. NOPAD is never refused (R79). -/
def Instr.wellFormed : Instr → Bool
  | .enc16 cs _ ign => cs.legalForEncode && !ign
  | .dec16 cs _ ign => cs.legalForDecode && !ign
  | .enc32 cs _ ign => cs.legalForEncode && !ign
  | .dec32 cs _ ign => cs.legalForDecode && !ign
  | .enc32hex cs _ ign => cs.legalForEncode && !ign
  | .dec32hex cs _ ign => cs.legalForDecode && !ign
  | .enc64 cs _ ign => cs.legalForBase64 && !ign
  | .dec64 cs _ _ => cs.legalForBase64
  | .enc64url cs _ ign => cs.legalForBase64 && !ign
  | .dec64url cs _ _ => cs.legalForBase64

end Sys2Proof
end

