-- ==== Sys2Proof/Decode.lean ====
section
/-! DEFINITION. The command word (30_encoding.md): its fields, the decoder from words and from bytes, the encoder, and
the rows of spec/opcode_table.json. -/

namespace Sys2Proof

/-- Why the decoder refuses a word or a byte sequence. The first six are the six lines of `Legal` (R77); the last says
that the bytes are not exactly one word (R70: "Every command is exactly one word"). -/
inductive Reject where
  | reservedBits
  | reservedAlphabet
  | reservedCase
  | mixedOnEncode
  | caseOnBase64
  | ignNotOffered
  | notOneWord
deriving DecidableEq, Repr

/-! ## Fields (R70) -/

/-- `[0]` DIR: true is decode. -/
def dirField (w : Word) : Bool := w.getLsbD 0

/-- `[3:1]` ALPH. -/
def alphField (w : Word) : BitVec 3 := w.extractLsb' 1 3

/-- `[5:4]` CASE. -/
def caseField (w : Word) : BitVec 2 := w.extractLsb' 4 2

/-- `[6]` NOPAD. -/
def nopadField (w : Word) : Bool := w.getLsbD 6

/-- `[7]` IGN. -/
def ignField (w : Word) : Bool := w.getLsbD 7

/-- `[31:8]` RSVD. -/
def rsvdField (w : Word) : BitVec 24 := w.extractLsb' 8 24

/-- The ALPH values 0 to 4; 5, 6 and 7 are reserved (R70). -/
def alphabetOf (v : BitVec 3) : Option Alphabet :=
  match v.toNat with
  | 0 => some .hex
  | 1 => some .base32
  | 2 => some .base32hex
  | 3 => some .base64
  | 4 => some .base64url
  | _ => none

/-- The CASE values (R70). -/
def caseModeOf (v : BitVec 2) : CaseMode :=
  match v.toNat with
  | 0 => .upper
  | 1 => .lower
  | 2 => .mixed
  | _ => .reserved

/-- The mnemonic of an operation (R76): its table and its direction. -/
def commandOf (decodes : Bool) (a : Alphabet) (cs : CaseMode) (nopad ign : Bool) : Instr :=
  match decodes, a with
  | false, .hex => .enc16 cs nopad ign
  | true, .hex => .dec16 cs nopad ign
  | false, .base32 => .enc32 cs nopad ign
  | true, .base32 => .dec32 cs nopad ign
  | false, .base32hex => .enc32hex cs nopad ign
  | true, .base32hex => .dec32hex cs nopad ign
  | false, .base64 => .enc64 cs nopad ign
  | true, .base64 => .dec64 cs nopad ign
  | false, .base64url => .enc64url cs nopad ign
  | true, .base64url => .dec64url cs nopad ign

/-- The tables with one case only (R111). -/
def isBase64 : Alphabet → Bool
  | .hex | .base32 | .base32hex => false
  | .base64 | .base64url => true

/-! ## The decoder -/

/-- The decoder of one command word: the checks of `Legal` in the order R77 lists them, then the command. -/
def decodeWord (w : Word) : Except Reject Instr :=
  if rsvdField w ≠ 0 then .error .reservedBits
  else match alphabetOf (alphField w) with
    | none => .error .reservedAlphabet
    | some a =>
      let cs := caseModeOf (caseField w)
      if cs = .reserved then .error .reservedCase
      else if dirField w = false ∧ cs = .mixed then .error .mixedOnEncode
      else if isBase64 a = true ∧ cs ≠ .upper then .error .caseOnBase64
      else if ignField w = true ∧ ¬ (dirField w = true ∧ isBase64 a = true) then .error .ignNotOffered
      else .ok (commandOf (dirField w) a cs (nopadField w) (ignField w))

/-- The word of four bytes, the first at the lowest address and least significant (R51). -/
def wordOfBytes (b0 b1 b2 b3 : Byte) : Word := b3 ++ b2 ++ b1 ++ b0

/-- The four bytes of a word, least significant first (R51). -/
def bytesOfWord (w : Word) : List Byte :=
  [w.extractLsb' 0 8, w.extractLsb' 8 8, w.extractLsb' 16 8, w.extractLsb' 24 8]

/-- The decoder on bytes as the bus stores them: exactly one word, little-endian. -/
def decodeBytes : List Byte → Except Reject Instr
  | [b0, b1, b2, b3] => decodeWord (wordOfBytes b0 b1 b2 b3)
  | _ => .error .notOneWord

/-- What the decoder reads from an instruction whose bits are `w`, numbered as spec/opcode_table.json numbers them (one
32-bit word, bit 0 its least significant bit); the bits from `nbits` up are 0. -/
def decodeTableWord (nbits w : Nat) : Option Instr :=
  match decodeBytes (bytesOfWord (BitVec.ofNat 32 (w % 2 ^ nbits))) with
  | .ok i => some i
  | .error _ => none

/-! ## The encoder -/

/-- The CASE field's value (R82: "`lower` = 1 and `mixed` = 2"). -/
def caseCode : CaseMode → Nat
  | .upper => 0
  | .lower => 1
  | .mixed => 2
  | .reserved => 3

/-- The OP field, `cmd[3:0]` (the first column of R76). -/
def opCode : Instr → Nat
  | .enc16 _ _ _ => 0x0
  | .dec16 _ _ _ => 0x1
  | .enc32 _ _ _ => 0x2
  | .dec32 _ _ _ => 0x3
  | .enc32hex _ _ _ => 0x4
  | .dec32hex _ _ _ => 0x5
  | .enc64 _ _ _ => 0x6
  | .dec64 _ _ _ => 0x7
  | .enc64url _ _ _ => 0x8
  | .dec64url _ _ _ => 0x9

/-- The option fields of a command: CASE, NOPAD and IGN. -/
def optionsOf : Instr → CaseMode × Bool × Bool
  | .enc16 cs np ig | .dec16 cs np ig | .enc32 cs np ig | .dec32 cs np ig | .enc32hex cs np ig
  | .dec32hex cs np ig | .enc64 cs np ig | .dec64 cs np ig | .enc64url cs np ig | .dec64url cs np ig => (cs, np, ig)

/-- The word `OP | CASE << 4 | NOPAD << 6 | IGN << 7` (R82). -/
def encode (i : Instr) : Word :=
  BitVec.ofNat 32 (opCode i ||| caseCode (optionsOf i).1 <<< 4 ||| (optionsOf i).2.1.toNat <<< 6
    ||| (optionsOf i).2.2.toNat <<< 7)

/-- The bytes of a command as the bus stores them. -/
def encodeToBytes (i : Instr) : List Byte := bytesOfWord (encode i)

/-! ## The opcode table -/

/-- One row of spec/opcode_table.json. -/
structure OpcodeRow where
  mnemonic : String
  bits : Word
  mask : Word
deriving DecidableEq, Repr

/-- The rows of spec/opcode_table.json, in its order. -/
def opcodeTable : List OpcodeRow :=
  [⟨"ENC16", 0x00000000, 0xFFFFFFAF⟩, ⟨"DEC16", 0x00000001, 0xFFFFFF8F⟩, ⟨"ENC32", 0x00000002, 0xFFFFFFAF⟩,
   ⟨"DEC32", 0x00000003, 0xFFFFFF8F⟩, ⟨"ENC32HEX", 0x00000004, 0xFFFFFFAF⟩, ⟨"DEC32HEX", 0x00000005, 0xFFFFFF8F⟩,
   ⟨"ENC64", 0x00000006, 0xFFFFFFBF⟩, ⟨"DEC64", 0x00000007, 0xFFFFFF3F⟩, ⟨"ENC64URL", 0x00000008, 0xFFFFFFBF⟩,
   ⟨"DEC64URL", 0x00000009, 0xFFFFFF3F⟩]

/-- `word AND mask = match` (R79). -/
def OpcodeRow.covers (r : OpcodeRow) (w : Word) : Bool := w &&& r.mask == r.bits

/-- The mnemonic of a command (R76). -/
def mnemonicOf : Instr → String
  | .enc16 _ _ _ => "ENC16"
  | .dec16 _ _ _ => "DEC16"
  | .enc32 _ _ _ => "ENC32"
  | .dec32 _ _ _ => "DEC32"
  | .enc32hex _ _ _ => "ENC32HEX"
  | .dec32hex _ _ _ => "DEC32HEX"
  | .enc64 _ _ _ => "ENC64"
  | .dec64 _ _ _ => "DEC64"
  | .enc64url _ _ _ => "ENC64URL"
  | .dec64url _ _ _ => "DEC64URL"

/-! ## Assembler syntax (R82) -/

/-- The option words of R82. -/
inductive AsmOption where
  | upper
  | lower
  | mixed
  | pad
  | nopad
  | ign
deriving DecidableEq, Repr

/-- The command a mnemonic names, with its options. -/
def commandNamed (mnemonic : String) (cs : CaseMode) (nopad ign : Bool) : Option Instr :=
  [Instr.enc16 cs nopad ign, .dec16 cs nopad ign, .enc32 cs nopad ign, .dec32 cs nopad ign, .enc32hex cs nopad ign,
    .dec32hex cs nopad ign, .enc64 cs nopad ign, .dec64 cs nopad ign, .enc64url cs nopad ign, .dec64url cs nopad ign].find?
      fun i => mnemonicOf i == mnemonic

/-- The CASE value a list of options asks for: the default of R72, or the one case option. -/
def asmCase (opts : List AsmOption) : CaseMode :=
  if AsmOption.lower ∈ opts then .lower else if AsmOption.mixed ∈ opts then .mixed else .upper

/-- "At most one case option and one padding option may appear" (R82). -/
def asmOptionsOnce (opts : List AsmOption) : Bool :=
  (opts.filter fun o => o == .upper || o == .lower || o == .mixed).length ≤ 1 &&
    (opts.filter fun o => o == .pad || o == .nopad).length ≤ 1

/-- A command as R82 writes it; `none` is an assembly error. An absent option takes the value 0 of R72, and an option that
R76 makes illegal for the mnemonic is an error. -/
def assemble (mnemonic : String) (opts : List AsmOption) : Option Instr :=
  if asmOptionsOnce opts = true then
    (commandNamed mnemonic (asmCase opts) (decide (AsmOption.nopad ∈ opts)) (decide (AsmOption.ign ∈ opts))).filter
      fun i => i.wellFormed
  else none

end Sys2Proof
end

