-- ==== Sys2Proof/Config.lean ====
section
/-! DEFINITION. What an integration fixes (R5), and the model's free values: constants with no body, so that no proof
can rest on a value of theirs. -/

namespace Sys2Proof

/-- The two capacities an integration chooses (R5; registers IN_CAP and OUT_CAP show them, R31). Every operation of the
model reads them from the state it is given, so a statement about every state is about every legal choice. -/
structure Config where
  /-- IN_BUF_BYTES. -/
  inBufBytes : Nat
  /-- OUT_BUF_BYTES. -/
  outBufBytes : Nat
deriving DecidableEq, Repr

/-- The legal values of R5. -/
abbrev Config.Legal (c : Config) : Prop :=
  1 ≤ c.inBufBytes ∧ c.inBufBytes ≤ 65536 ∧ 2 * c.inBufBytes + 8 ≤ c.outBufBytes ∧ c.outBufBytes ≤ 262144

/-- The capacities of `State.reset`. DESIGN CHOICE, unsafe (assumption 1): R5 leaves both open; these are the values the
test programs of 95_test_vectors.md use. `State.resetOf` gives the reset state of every other choice. -/
def Config.atReset : Config := ⟨4096, 8200⟩

/-- FREE VALUE (assumption 3): what the RAM of IN_BUF holds at an index nobody has written since the reset numbered by
the first argument (R60, R251). -/
opaque Config.freeInByte : Nat → Nat → Byte

/-- FREE VALUE (assumption 3): what the RAM of OUT_BUF holds at an index not written since the reset or the failed command
numbered by the first argument (R37, R60, R80, R251). -/
opaque Config.freeOutByte : Nat → Nat → Byte

/-- FREE VALUE (assumption 2): how many HOST accesses the block performs between an accepted CMD write and its ENGINE
step. The arguments are the number of the accepted write, the command word and the latched length. It stands for the open
parameter LATENCY (R5, R61 (c), R260): any finite number, with no bound. -/
opaque Config.engineDelay : Nat → Word → BitVec 17 → Nat

end Sys2Proof
end

