-- ==== Sys2Proof/Machine/State.lean ====
section
/-! DEFINITION. The state record of R40, the HOST's side of the bus, the reasons a step can stop, and reset. -/

namespace Sys2Proof.Machine

/-- The error codes of R200 that a command can end with. -/
inductive ErrCode where
  | oddLength
  | incorrectPadding
  | invalidSymbol
  | illegalCommand
  | lengthRange
deriving DecidableEq, Repr

/-- How a codec run ends badly: `Error(code, byte, pos)` of R10. -/
structure CodecError where
  code : ErrCode
  byte : Byte
  pos : Nat
deriving DecidableEq, Repr

/-- `Ok(seq)` or `Error(code, byte, pos)` (R10, R11). -/
abbrev CodecResult := Except CodecError (List Byte)

/-- The contents of one buffer: index and byte, indexes strictly rising. An index with no entry is `NoValue` (R40). -/
abbrev Memory := List Host.Cell

/-- One thing the outside does to the block, in the order the block receives it (R61 (a)). -/
inductive HostEvent where
  /-- `MemRead(addr, n)` (R10). -/
  | read (addr : Offset) (n : Nat)
  /-- `MemWrite(addr, n, data)` (R10); an access of fewer than 4 bytes uses the low bytes of `data`. -/
  | write (addr : Offset) (n : Nat) (data : Word)
  /-- `WAIT_DONE`: repeat `RD32 0x004` until bit 1 reads 1 (R14). -/
  | waitDone
  /-- The `rst` input is asserted (R250). -/
  | rst
deriving DecidableEq, Repr

/-- What the bus port answers to one access (R57). -/
structure BusResponse where
  error : Bool
  data : Word
deriving DecidableEq, Repr

/-- The state. The first thirteen fields are those of R40; the rest are the model's own (INVENTORY.md, State). -/
structure State where
  /-- CMD, the last accepted word (R23). -/
  cmd : Word
  /-- IN_LEN latched at the accepted CMD write (R24). -/
  latLen : BitVec 17
  /-- STATUS.BUSY (R25). -/
  busy : Bool
  /-- STATUS.DONE (R25). -/
  doneBit : Bool
  /-- STATUS.ERR (R25). -/
  errBit : Bool
  /-- STATUS.ERRCODE (R25). -/
  errCode : BitVec 4
  /-- IN_LEN.LEN (R27). -/
  inLen : BitVec 17
  /-- OUT_LEN.LEN (R28). -/
  outLen : BitVec 18
  /-- ERR_BYTE.BYTE (R29). -/
  errByte : Byte
  /-- ERR_POS.POS (R30). -/
  errPos : BitVec 17
  /-- IRQ_EN.EN (R32). -/
  irqEn : Bool
  /-- IN_BUF (R36). -/
  inBuf : Memory
  /-- OUT_BUF (R37). -/
  outBuf : Memory
  /-- The capacities: R5's parameters, shown by IN_CAP and OUT_CAP (R31). No step changes them. -/
  config : Config
  /-- The HOST accesses that have reached the block and are not yet performed, oldest first (R61 (a)). -/
  hostQueue : List HostEvent
  /-- The bus port's answer to the HOST access performed last. -/
  busResp : BusResponse
  /-- While BUSY = 1: how many HOST accesses come before the ENGINE step (R61 (c)); a free value loads it. -/
  engineDelay : Nat
  /-- How many CMD writes were accepted: the argument that makes `Config.engineDelay` fresh each time. -/
  cmdCount : Nat
  /-- How often IN_BUF's contents became unspecified: the argument of `Config.freeInByte`. -/
  inEpoch : Nat
  /-- How often OUT_BUF's contents became unspecified: the argument of `Config.freeOutByte`. -/
  outEpoch : Nat
deriving DecidableEq, Repr

/-- Why a step stops with a fault. -/
inductive Fault where
  /-- Raised by a command's completion when its output has more bytes than OUT_BUF: an ENGINE write to an offset R53 says
  does not exist. Under the legal capacities of R5 it never happens (R135, R160). Safe: the hardware has no such case. -/
  | outBufOverflow
deriving DecidableEq, Repr

/-- Why the model refuses an instruction. -/
inductive Refusal where
  /-- Raised only by an arm of `exec` that has no meaning yet; no arm of this model is so. Safe. -/
  | notModelled (mnemonic : String)
deriving DecidableEq, Repr

/-- The outcome of a step of this machine. -/
abbrev Out := Host.Outcome State Fault Refusal

/-- The reset state of R250 for a block with the capacities `c`: registers 0, no command in flight, no buffer byte
written. The model's own fields start empty or at 0 (assumption 5). -/
def State.resetOf (c : Config) : State where
  cmd := 0
  latLen := 0
  busy := false
  doneBit := false
  errBit := false
  errCode := 0
  inLen := 0
  outLen := 0
  errByte := 0
  errPos := 0
  irqEn := false
  inBuf := []
  outBuf := []
  config := c
  hostQueue := []
  busResp := ⟨false, 0⟩
  engineDelay := 0
  cmdCount := 0
  inEpoch := 0
  outEpoch := 0

/-- The machine right after reset (R250), with the capacities of `Config.atReset`. -/
def State.reset : State := State.resetOf Config.atReset

end Sys2Proof.Machine
end

