-- ==== Sys2Proof/Machine/AlphabetRom.lean ====
section
/-! DEFINITION. The unit `alphabet_rom` (40_alphabet_rom.md): the five tables, the forward lookup and the inverse lookup.
The ROM is constant (R38), so it is a definition and no field of the state. -/

namespace Sys2Proof.Machine

/-- The stored tables, transcribed from the code columns of R101 to R104; table 4 is table 3 with entries 62 and 63
replaced (R105). -/
def romTable : Alphabet → List Byte
  | .hex =>
    [0x30, 0x31, 0x32, 0x33, 0x34, 0x35, 0x36, 0x37, 0x38, 0x39, 0x41, 0x42, 0x43, 0x44, 0x45, 0x46]
  | .base32 =>
    [0x41, 0x42, 0x43, 0x44, 0x45, 0x46, 0x47, 0x48, 0x49, 0x4A, 0x4B, 0x4C, 0x4D, 0x4E, 0x4F, 0x50] ++
    [0x51, 0x52, 0x53, 0x54, 0x55, 0x56, 0x57, 0x58, 0x59, 0x5A, 0x32, 0x33, 0x34, 0x35, 0x36, 0x37]
  | .base32hex =>
    [0x30, 0x31, 0x32, 0x33, 0x34, 0x35, 0x36, 0x37, 0x38, 0x39, 0x41, 0x42, 0x43, 0x44, 0x45, 0x46] ++
    [0x47, 0x48, 0x49, 0x4A, 0x4B, 0x4C, 0x4D, 0x4E, 0x4F, 0x50, 0x51, 0x52, 0x53, 0x54, 0x55, 0x56]
  | .base64 => base64Table
  | .base64url => (base64Table.set 62 0x2D).set 63 0x5F
where
  /-- Table 3 (R104). -/
  base64Table : List Byte :=
    [0x41, 0x42, 0x43, 0x44, 0x45, 0x46, 0x47, 0x48, 0x49, 0x4A, 0x4B, 0x4C, 0x4D, 0x4E, 0x4F, 0x50] ++
    [0x51, 0x52, 0x53, 0x54, 0x55, 0x56, 0x57, 0x58, 0x59, 0x5A, 0x61, 0x62, 0x63, 0x64, 0x65, 0x66] ++
    [0x67, 0x68, 0x69, 0x6A, 0x6B, 0x6C, 0x6D, 0x6E, 0x6F, 0x70, 0x71, 0x72, 0x73, 0x74, 0x75, 0x76] ++
    [0x77, 0x78, 0x79, 0x7A, 0x30, 0x31, 0x32, 0x33, 0x34, 0x35, 0x36, 0x37, 0x38, 0x39, 0x2B, 0x2F]

/-- `Lower(c)` (R107). -/
def lowerByte (c : Byte) : Byte := if 0x41#8 ≤ c ∧ c ≤ 0x5A#8 then c + 0x20#8 else c

/-- The forward table under one case: as stored (R106), or every entry lowered (R107). -/
def fwdTable (a : Alphabet) : LetterCase → List Byte
  | .upper => romTable a
  | .lower => (romTable a).map lowerByte

/-- `Fwd(a, case)[v]`. The table has an entry for every value a command looks up (R113); the 0 stands for no entry
(assumption 10). -/
def fwd (a : Alphabet) (lc : LetterCase) (v : Nat) : Byte := (fwdTable a lc).getD v 0

/-- `Inv(a, case)(c)` for upper and lower (R109): the index at which the forward table holds `c`. -/
def invLetter (a : Alphabet) (lc : LetterCase) (c : Byte) : Option Nat := (fwdTable a lc).findIdx? (· == c)

/-- `Inv(a, case)(c)` (R109); for mixed the union of the upper and the lower table (R110). The reserved CASE value names
no table (assumption 10). -/
def inv (a : Alphabet) (cs : CaseMode) (c : Byte) : Option Nat :=
  match cs with
  | .upper => invLetter a .upper c
  | .lower => invLetter a .lower c
  | .mixed => (invLetter a .upper c).or (invLetter a .lower c)
  | .reserved => none

end Sys2Proof.Machine
end

