-- ==== Sys2Proof/Machine/Operands.lean ====
section
/-! DEFINITION. Operand assembly (R71): the constants of a table, the case field as an encoder uses it, bit
concatenation (R8), and the input sequence `IN_BUF[0 .. lat_len)` (R59). -/

namespace Sys2Proof.Machine

/-- `k`, bits per symbol (R6). -/
def bitsPerSymbol : Alphabet → Nat
  | .hex => 4
  | .base32 | .base32hex => 5
  | .base64 | .base64url => 6

/-- `B`, bytes per group (R6). -/
def bytesPerGroup : Alphabet → Nat
  | .hex => 1
  | .base32 | .base32hex => 5
  | .base64 | .base64url => 3

/-- `S`, symbols per group (R6). -/
def symbolsPerGroup : Alphabet → Nat
  | .hex => 2
  | .base32 | .base32hex => 8
  | .base64 | .base64url => 4

/-- Which forward table an encode command's CASE field selects. Legality (R77) leaves only upper and lower. -/
def letterCaseOf : CaseMode → LetterCase
  | .lower => .lower
  | .upper | .mixed | .reserved => .upper

/-- `a ++ b` for a `w`-bit `b`: `(a << w) | b` (R8), which for `b < 2 ^ w` is this sum. -/
def concatBits (a w b : Nat) : Nat := a * 2 ^ w + b

/-- The bytes of a group concatenated, the first most significant (R121). -/
def groupValue (bs : List Byte) : Nat := bs.foldl (fun w b => concatBits w 8 b.toNat) 0

/-- The `nb` bytes of the value `w`, most significant first: `[w[8nb-1:8nb-8], ..., w[7:0]]` (R140). -/
def bytesOfValue (nb w : Nat) : List Byte :=
  (List.range nb).map fun i => BitVec.ofNat 8 (w >>> (8 * (nb - 1 - i)))

/-- The entry of a buffer at an index, `none` for `NoValue` (R40). -/
def readCell (m : Memory) (i : Nat) : Option Byte :=
  match m with
  | [] => none
  | (a, b) :: rest => if a = i then some b else readCell rest i

/-- `IN_BUF[i]`: the byte held there; one not written since reset holds what the RAM holds (R60). -/
def inByte (s : State) (i : Nat) : Byte := (readCell s.inBuf i).getD (Config.freeInByte s.inEpoch i)

/-- `OUT_BUF[i]`: the byte held there; an unspecified one holds what the RAM holds (R60). -/
def outByte (s : State) (i : Nat) : Byte := (readCell s.outBuf i).getD (Config.freeOutByte s.outEpoch i)

/-- The operand `IN_BUF[0 .. n)` with `n = lat_len` (R71, R59): each byte read once. -/
def inputBytes (s : State) : List Byte := (List.range s.latLen.toNat).map (inByte s)

end Sys2Proof.Machine
end

