-- ==== Sys2Proof/Machine/PaddingStripper.lean ====
section
/-! DEFINITION. The unit `padding_stripper` (43_padding_whitespace.md). -/

namespace Sys2Proof.Machine

/-- `'='` (R9, R172). -/
def padByte : Byte := 0x3D

/-- `Pad(y, g, c)` (R170). -/
def padSymbols (y : List Byte) (g : Nat) (c : Byte) : List Byte :=
  if y.length % g = 0 then y else y ++ List.replicate (g - y.length % g) c

/-- The whitespace set `W` of R173. -/
def isWhitespace (c : Byte) : Bool := c == 0x20 || c == 0x09 || c == 0x0D || c == 0x0A

/-- A symbol of a sequence being decoded, with its IN_BUF index; a `'='` that re-padding appended has none (R144). -/
structure Symbol where
  byte : Byte
  pos : Option Nat
deriving DecidableEq, Repr

/-- The sequence as it stands in IN_BUF: `u = s` and `pos = [0, 1, ..., len(s)-1]` (R140, IGN = 0). -/
def positioned (s : List Byte) : List Symbol := s.zipIdx.map fun p => ⟨p.1, some p.2⟩

/-- `Strip(s)` (R173): the bytes that are no whitespace, each with its index in `s`. -/
def stripWhitespace (s : List Byte) : List Symbol := (positioned s).filter fun c => !isWhitespace c.byte

end Sys2Proof.Machine
end

