-- ==== Sys2Proof/Machine/Decoder.lean ====
section
/-! DEFINITION. The unit `decoder` (42_decode.md): the generic engine `Decode` of R140, statement by statement. -/

namespace Sys2Proof.Machine

/-- `raise Error(code, 0, 0)`. -/
def plainError (c : ErrCode) : CodecError := ⟨c, 0, 0⟩

/-- `raise Error(INVALID_SYMBOL, u[j], pos[j])`. A symbol without a position is never looked up (R157); the 0 stands for
that case. -/
def symbolError (c : Symbol) : CodecError := ⟨.invalidSymbol, c.byte, c.pos.getD 0⟩

/-- Looks the symbols up from left to right and concatenates their values, the first most significant, after the value
`w`; the first symbol outside the inverse table ends the command (R145, R148). -/
def assembleSymbols (I : Byte → Option Nat) (k : Nat) : Nat → List Symbol → Except CodecError Nat
  | w, [] => .ok w
  | w, c :: rest =>
    match I c.byte with
    | none => .error (symbolError c)
    | some v => assembleSymbols I k (concatBits w k v) rest

/-- Decodes groups that are full: each gives `B` bytes (R145; for base16 each pair of symbols gives one byte, R143). -/
def decodeGroups (I : Byte → Option Nat) (k B : Nat) : List (List Symbol) → CodecResult
  | [] => .ok []
  | grp :: rest =>
    match assembleSymbols I k 0 grp with
    | .error e => .error e
    | .ok w =>
      match decodeGroups I k B rest with
      | .error e => .error e
      | .ok y => .ok (bytesOfValue B w ++ y)

/-- The first `n` groups of `S` symbols of `u`. -/
def symbolGroups (S n : Nat) (u : List Symbol) : List (List Symbol) :=
  (List.range n).map fun g => (u.drop (g * S)).take S

/-- The base16 branch of R140 (R142, R143). -/
def decodeHex (I : Byte → Option Nat) (u : List Symbol) : CodecResult :=
  if u.length % 2 ≠ 0 then .error (plainError .oddLength)
  else decodeGroups I 4 1 (symbolGroups 2 (u.length / 2) u)

/-- The length check or the re-padding of R144. -/
def alignSymbols (S : Nat) (pad : Bool) (u : List Symbol) : Except CodecError (List Symbol) :=
  if pad = true then
    if u.length % S ≠ 0 then .error (plainError .incorrectPadding) else .ok u
  else .ok (u ++ List.replicate ((S - u.length % S) % S) ⟨padByte, none⟩)

/-- `p`: the length of the longest suffix of the final group consisting only of `'='` (R140). -/
def padRun (f : List Symbol) : Nat := (f.reverse.takeWhile fun c => c.byte == padByte).length

/-- `LEGAL[k][p]` (R146): the number of output bytes, `none` where `p` is illegal. -/
def legalShape (k p : Nat) : Option Nat :=
  match k, p with
  | 6, 0 => some 3
  | 6, 1 => some 2
  | 6, 2 => some 1
  | 5, 0 => some 5
  | 5, 1 => some 4
  | 5, 3 => some 3
  | 5, 4 => some 2
  | 5, 6 => some 1
  | _, _ => none

/-- The final group (R147, R148): the shape check, then the data symbols, then the discarded bits dropped (R149). -/
def decodeFinal (I : Byte → Option Nat) (k S : Nat) (f : List Symbol) : CodecResult :=
  let d := S - padRun f
  match legalShape k (padRun f) with
  | none => .error (plainError .incorrectPadding)
  | some nb =>
    if (f.take d).any (fun c => c.byte == padByte) = true then .error (plainError .incorrectPadding)
    else
      match assembleSymbols I k 0 (f.take d) with
      | .error e => .error e
      | .ok w => .ok (bytesOfValue nb (w >>> (d * k - 8 * nb)))

/-- The groups of an aligned sequence (R140 from `G = len(u) / S` on). -/
def decodeAligned (I : Byte → Option Nat) (k B S : Nat) (u : List Symbol) : CodecResult :=
  let G := u.length / S
  if G = 0 then .ok []
  else
    match decodeGroups I k B (symbolGroups S (G - 1) u) with
    | .error e => .error e
    | .ok y =>
      match decodeFinal I k S ((u.drop ((G - 1) * S)).take S) with
      | .error e => .error e
      | .ok z => .ok (y ++ z)

/-- `Decode(a, case, pad, ign, s)` (R140, R159). -/
def decodeSymbols (a : Alphabet) (cs : CaseMode) (pad ign : Bool) (s : List Byte) : CodecResult :=
  let u := if ign = true then stripWhitespace s else positioned s
  if bitsPerSymbol a = 4 then decodeHex (inv a cs) u
  else
    match alignSymbols (symbolsPerGroup a) pad u with
    | .error e => .error e
    | .ok v => decodeAligned (inv a cs) (bitsPerSymbol a) (bytesPerGroup a) (symbolsPerGroup a) v

end Sys2Proof.Machine
end

