-- ==== Sys2Proof/Machine/Encoder.lean ====
section
/-! DEFINITION. The unit `encoder` (41_encode.md): the generic engine `Encode` of R120. -/

namespace Sys2Proof.Machine

/-- The symbols of an `m*k`-bit value, from its most significant end: `F[ w[m*k-1-j*k : m*k-k-j*k] ]` for `j` from 0 to
`m-1` (R120, R121). -/
def cutSymbols (F : Nat → Byte) (k m w : Nat) : List Byte :=
  (List.range m).map fun j => F ((w >>> (m * k - k - j * k)) % 2 ^ k)

/-- `TAIL[k][t] = (m, z)` (R123); a tail of 0 bytes has no row, and base16 has none at all. -/
def tailRow (k t : Nat) : Option (Nat × Nat) :=
  match k, t with
  | 6, 1 => some (2, 4)
  | 6, 2 => some (3, 2)
  | 5, 1 => some (2, 2)
  | 5, 2 => some (4, 4)
  | 5, 3 => some (5, 1)
  | 5, 4 => some (7, 3)
  | _, _ => none

/-- The full groups of `x` (R120: `x[g*B] ++ ... ++ x[g*B+B-1]` for `g` from 0 to `floor(n/B) - 1`). -/
def byteGroups (B : Nat) (x : List Byte) : List (List Byte) :=
  (List.range (x.length / B)).map fun g => (x.drop (g * B)).take B

/-- The symbols of the full groups (R122). -/
def encodeGroups (a : Alphabet) (F : Nat → Byte) (x : List Byte) : List Byte :=
  (byteGroups (bytesPerGroup a) x).flatMap fun grp => cutSymbols F (bitsPerSymbol a) (symbolsPerGroup a) (groupValue grp)

/-- The symbols of the tail (R124): its value shifted left by `z`, cut into `m` symbols. -/
def encodeTail (a : Alphabet) (F : Nat → Byte) (x : List Byte) : List Byte :=
  match tailRow (bitsPerSymbol a) (x.length % bytesPerGroup a) with
  | some (m, z) =>
    cutSymbols F (bitsPerSymbol a) m (groupValue (x.drop (x.length / bytesPerGroup a * bytesPerGroup a)) <<< z)
  | none => []

/-- `Encode(a, case, pad, x)` (R120). -/
def encodeBytes (a : Alphabet) (lc : LetterCase) (pad : Bool) (x : List Byte) : List Byte :=
  let y := encodeGroups a (fwd a lc) x ++ encodeTail a (fwd a lc) x
  if pad = true ∧ bitsPerSymbol a ≠ 4 then padSymbols y (symbolsPerGroup a) padByte else y

end Sys2Proof.Machine
end

