-- ==== Sys2Proof/Machine/Flags.lean ====
section
/-! DEFINITION. The flags of the block (R34): STATUS as a word, the error codes' numbers, and the interrupt output. -/

namespace Sys2Proof.Machine

/-- The numbers of R200. -/
def errNumber : ErrCode → BitVec 4
  | .oddLength => 1
  | .incorrectPadding => 2
  | .invalidSymbol => 3
  | .illegalCommand => 4
  | .lengthRange => 5

/-- STATUS as a read returns it (R25): `[0]` BUSY, `[1]` DONE, `[2]` ERR, `[3]` 0, `[7:4]` ERRCODE, `[31:8]` 0. -/
def statusWord (s : State) : Word :=
  (0#24) ++ s.errCode ++ (0#1) ++ BitVec.ofBool s.errBit ++ BitVec.ofBool s.doneBit ++ BitVec.ofBool s.busy

/-- The interrupt output `irq = reg(DONE) AND reg(EN)` (R33, R210). -/
def irq (s : State) : Bool := s.doneBit && s.irqEn

/-- The flags a success leaves (R80). -/
def setSuccessFlags (s : State) : State :=
  { s with busy := false, doneBit := true, errBit := false, errCode := 0 }

/-- The flags an error leaves (R80, R204). -/
def setErrorFlags (c : ErrCode) (s : State) : State :=
  { s with busy := false, doneBit := true, errBit := true, errCode := errNumber c }

/-- The flags an accepted CMD write leaves (R24). -/
def setStartFlags (s : State) : State :=
  { s with busy := true, doneBit := false, errBit := false, errCode := 0 }

end Sys2Proof.Machine
end

