-- ==== Sys2Proof/Machine/Ops.lean ====
section
/-! DEFINITION. The named operations over the buffers and the registers: storing bytes, accepting a command, completing
it with success or with an error, acknowledging, and reset. -/

namespace Sys2Proof.Machine

/-! ## Buffers -/

/-- Stores one byte, keeping the indexes strictly rising. -/
def writeCell (m : Memory) (i : Nat) (b : Byte) : Memory :=
  match m with
  | [] => [(i, b)]
  | (a, c) :: rest =>
    if i < a then (i, b) :: (a, c) :: rest
    else if i = a then (i, b) :: rest
    else (a, c) :: writeCell rest i b

/-- Stores bytes at consecutive indexes, the first at the lowest (R51). -/
def writeCells (m : Memory) (i : Nat) : List Byte → Memory
  | [] => m
  | b :: rest => writeCells (writeCell m i b) (i + 1) rest

/-- Every byte becomes `NoValue` (R80, R251). -/
def clearCells : Memory := []

/-- The canonical form: indexes strictly rising, so that equal contents are equal lists. -/
abbrev Memory.wf (m : Memory) : Prop := m.Pairwise fun x y => x.1 < y.1

/-- Every entry lies inside a buffer of `cap` bytes (R36, R37). -/
abbrev Memory.within (m : Memory) (cap : Nat) : Prop := ∀ x ∈ m, x.1 < cap

/-- Byte `j` of a data word: data bits `[8j+7:8j]` (R51). -/
def dataByte (v : Word) (j : Nat) : Byte := v.extractLsb' (8 * j) 8

/-- The bytes an access of `n` bytes moves, the one at the lowest offset first (R51). -/
def dataBytes (v : Word) (n : Nat) : List Byte := (List.range n).map (dataByte v)

/-- The data word that carries `bs`, the first in bits `[7:0]`; the bits above read 0 (R51, assumption 6). -/
def dataWord : List Byte → Word
  | [] => 0
  | b :: rest => b.setWidth 32 ||| dataWord rest <<< 8

/-! ## Commands -/

/-- An accepted CMD write (R24): one indivisible effect. It also draws how long the ENGINE waits (R61 (c)). -/
def acceptCommand (w : Word) (s : State) : State :=
  { setStartFlags s with
    cmd := w
    latLen := s.inLen
    outLen := 0
    errByte := 0
    errPos := 0
    engineDelay := Config.engineDelay s.cmdCount w s.inLen
    cmdCount := s.cmdCount + 1 }

/-- Completion with `Ok(y)` (R80): the output bytes, then the registers. -/
def completeOk (y : List Byte) (s : State) : State :=
  { setSuccessFlags s with
    outBuf := writeCells s.outBuf 0 y
    outLen := BitVec.ofNat 18 y.length
    errByte := 0
    errPos := 0 }

/-- Completion with `Error(c, b, p)` (R80, R204): this block's way of taking an exception. Every OUT_BUF byte becomes
unspecified anew. -/
def takeError (c : ErrCode) (b : Byte) (p : Nat) (s : State) : State :=
  { setErrorFlags c s with
    outBuf := clearCells
    outEpoch := s.outEpoch + 1
    outLen := 0
    errByte := b
    errPos := BitVec.ofNat 17 p }

/-- What the HOST does in place of a return from an error (R208): writing 1 to STATUS.DONE clears it, and nothing else
(R26). -/
def acknowledge (s : State) : State := { s with doneBit := false }

/-- The `rst` input (R250 to R252): the reset state, with both buffers' contents unspecified anew. What the HOST sends
afterwards is still to come, and the counters that keep free values fresh go on (DESIGN CHOICE, assumption 13). -/
def applyReset (s : State) : State :=
  { State.resetOf s.config with
    hostQueue := s.hostQueue
    cmdCount := s.cmdCount
    inEpoch := s.inEpoch + 1
    outEpoch := s.outEpoch + 1 }

/-- The end of `EngineStep` (R80). An output longer than OUT_BUF does not exist under R5 (R135); the model stops there
(DESIGN CHOICE, assumption 9). -/
def finishCommand (r : CodecResult) (s : State) : Out :=
  match r with
  | .ok y => if y.length ≤ s.config.outBufBytes then .next (completeOk y s) else .fault .outBufOverflow
  | .error e => .next (takeError e.code e.byte e.pos s)

/-- `Execute` and `EngineStep` (R80) for a command whose legality is `legal` and whose codec is `codec`: ILLEGAL_COMMAND
first, then LENGTH_RANGE, and only then is IN_BUF read (R207). -/
def runCommand (legal : Bool) (codec : List Byte → CodecResult) (s : State) : Out :=
  if legal = false then .next (takeError .illegalCommand 0 0 s)
  else if s.config.inBufBytes < s.latLen.toNat then .next (takeError .lengthRange 0 0 s)
  else finishCommand (codec (inputBytes s)) s

/-! ## CASE and IGN as a command's rule allows them -/

/-- CASE ∈ {00, 01} (R126, R127, R128). -/
def caseIsUpperOrLower (cs : CaseMode) : Bool := cs == .upper || cs == .lower

/-- CASE ∈ {00, 01, 10} (R151, R152, R153). -/
def caseIsNotReserved (cs : CaseMode) : Bool := cs != .reserved

/-- CASE = 00 (R129, R130, R154, R155). -/
def caseIsUpper (cs : CaseMode) : Bool := cs == .upper

end Sys2Proof.Machine
end

