-- ==== Sys2Proof/Machine/Bus.lean ====
section
/-! DEFINITION. The HOST's side (20_memory.md, 10_state.md): the address map, which accesses are permitted, what a read
returns, what a write does, and the next HOST event. -/

namespace Sys2Proof.Machine

/-! ## Address map (R22, R53) -/

/-- The nine registers of R22. -/
inductive Reg where
  | cmd
  | status
  | inLen
  | outLen
  | errByte
  | errPos
  | inCap
  | outCap
  | irqEn
deriving DecidableEq, Repr

/-- The offsets of R22. -/
def regAt (addr : Nat) : Option Reg :=
  match addr with
  | 0x000 => some .cmd
  | 0x004 => some .status
  | 0x008 => some .inLen
  | 0x00C => some .outLen
  | 0x010 => some .errByte
  | 0x014 => some .errPos
  | 0x018 => some .inCap
  | 0x01C => some .outCap
  | 0x020 => some .irqEn
  | _ => none

/-- What a permitted access reaches: a register, or a buffer from an index on. -/
inductive Target where
  | reg (r : Reg)
  | inBuf (i : Nat)
  | outBuf (i : Nat)
deriving DecidableEq, Repr

/-- The offset of `IN_BUF[0]` (R53). -/
def inBufBase : Nat := 0x10000

/-- The offset of `OUT_BUF[0]` (R53). -/
def outBufBase : Nat := 0x40000

/-- `n` in {1, 2, 4} and `addr mod n = 0` (R55); every other width, 0 included, is refused (DEDUCED, assumption 11). -/
def widthOk (addr n : Nat) : Bool := (n == 1 || n == 2 || n == 4) && addr % n == 0

/-- What an access of `n` bytes at `addr` reaches by the map (R53) and the width and alignment rules (R55, R56); `none`
is a bus error (R54). -/
def targetOf (c : Config) (addr : Offset) (n : Nat) : Option Target :=
  let a := addr.toNat
  if a < 0x24 then
    if n = 4 then (regAt a).map .reg else none
  else if widthOk a n = true ∧ inBufBase ≤ a ∧ a + n ≤ inBufBase + c.inBufBytes then some (.inBuf (a - inBufBase))
  else if widthOk a n = true ∧ outBufBase ≤ a ∧ a + n ≤ outBufBase + c.outBufBytes then some (.outBuf (a - outBufBase))
  else none

/-- The accesses R255 forbids while BUSY = 1. -/
def forbiddenWhileBusy (isWrite : Bool) : Target → Bool
  | .reg .cmd => isWrite
  | .reg .inLen => isWrite
  | .reg .status | .reg .outLen | .reg .errByte | .reg .errPos | .reg .inCap | .reg .outCap | .reg .irqEn => false
  | .inBuf _ => isWrite
  | .outBuf _ => true

/-- What an access reaches if it is permitted now; `none` is a bus error (R54, R55, R56, R255). -/
def permitted (s : State) (addr : Offset) (n : Nat) (isWrite : Bool) : Option Target :=
  (targetOf s.config addr n).filter fun t => !(s.busy && forbiddenWhileBusy isWrite t)

/-! ## Registers (R23 to R32) -/

/-- A register as a read returns it; reserved bits read 0 (R22). -/
def readReg (s : State) : Reg → Word
  | .cmd => s.cmd
  | .status => statusWord s
  | .inLen => s.inLen.setWidth 32
  | .outLen => s.outLen.setWidth 32
  | .errByte => s.errByte.setWidth 32
  | .errPos => s.errPos.setWidth 32
  | .inCap => BitVec.ofNat 32 s.config.inBufBytes
  | .outCap => BitVec.ofNat 32 s.config.outBufBytes
  | .irqEn => (BitVec.ofBool s.irqEn).setWidth 32

/-- A permitted write of a register: command start, W1C, written or ignored (R24, R26, R27, R32, R22). -/
def writeReg (s : State) (v : Word) : Reg → State
  | .cmd => acceptCommand v s
  | .status => if v.getLsbD 1 = true then acknowledge s else s
  | .inLen => { s with inLen := v.setWidth 17 }
  | .irqEn => { s with irqEn := v.getLsbD 0 }
  | .outLen | .errByte | .errPos | .inCap | .outCap => s

/-! ## Accesses -/

/-- A bus error's response (R57). -/
def busError : BusResponse := ⟨true, 0⟩

/-- The data a permitted read of `n` bytes returns (R51). -/
def readTarget (s : State) (n : Nat) : Target → Word
  | .reg r => readReg s r
  | .inBuf i => dataWord ((List.range n).map fun j => inByte s (i + j))
  | .outBuf i => dataWord ((List.range n).map fun j => outByte s (i + j))

/-- The effect of a permitted write of `n` bytes (R55, R56). -/
def writeTarget (s : State) (n : Nat) (v : Word) : Target → State
  | .reg r => writeReg s v r
  | .inBuf i => { s with inBuf := writeCells s.inBuf i (dataBytes v n) }
  | .outBuf i => { s with outBuf := writeCells s.outBuf i (dataBytes v n) }

/-- `MemRead(addr, n)`: no side effect (R58). -/
def hostRead (s : State) (addr : Offset) (n : Nat) : BusResponse :=
  match permitted s addr n false with
  | none => busError
  | some t => ⟨false, readTarget s n t⟩

/-- `MemWrite(addr, n, v)`: the state after it. A bus error changes nothing (R57). -/
def hostWrite (s : State) (addr : Offset) (n : Nat) (v : Word) : State :=
  match permitted s addr n true with
  | none => s
  | some t => writeTarget s n v t

/-- `MemWrite(addr, n, v)`: the response on the port (R57). -/
def hostWriteResponse (s : State) (addr : Offset) (n : Nat) : BusResponse :=
  match permitted s addr n true with
  | none => busError
  | some _ => ⟨false, 0⟩

/-! ## The HOST moves -/

/-- The offset of STATUS (R22). -/
def statusOffset : Offset := 0x004

/-- Performs one HOST event, already taken off the queue (R61 (a)). `WAIT_DONE` goes back to its head until the read of
STATUS shows DONE (R14; DESIGN CHOICE, assumption 8). -/
def performEvent (s : State) : HostEvent → State
  | .read addr n => { s with busResp := hostRead s addr n }
  | .write addr n v => { hostWrite s addr n v with busResp := hostWriteResponse s addr n }
  | .waitDone =>
    if (hostRead s statusOffset 4).data.getLsbD 1 = true then { s with busResp := hostRead s statusOffset 4 }
    else { s with busResp := hostRead s statusOffset 4, hostQueue := .waitDone :: s.hostQueue }
  | .rst => applyReset s

/-- Takes the oldest event off the queue; while a command waits, one HOST access fewer stands before it (R61 (c)). -/
def dequeueEvent (s : State) (rest : List HostEvent) : State :=
  { s with hostQueue := rest, engineDelay := s.engineDelay - 1 }

/-- The HOST's move. With nothing to do the block is idle and keeps all its state (R216; DEDUCED, assumption
7). -/
def hostMove (s : State) : State :=
  match s.hostQueue with
  | [] => s
  | ev :: rest => performEvent (dequeueEvent s rest) ev

end Sys2Proof.Machine
end

