-- ==== Sys2Proof/Machine/DecodeCommands.lean ====
section
/-! DEFINITION. The five decode commands (42_decode.md R151 to R155). -/

namespace Sys2Proof.Machine

/-- DEC16 (R151). NOPAD is ignored: the base16 branch of `Decode` does not look at it. -/
def execDec16 (cs : CaseMode) (nopad ign : Bool) (s : State) : Out :=
  runCommand (caseIsNotReserved cs && !ign) (decodeSymbols .hex cs (!nopad) false) s

/-- DEC32 (R152). -/
def execDec32 (cs : CaseMode) (nopad ign : Bool) (s : State) : Out :=
  runCommand (caseIsNotReserved cs && !ign) (decodeSymbols .base32 cs (!nopad) false) s

/-- DEC32HEX (R153). -/
def execDec32hex (cs : CaseMode) (nopad ign : Bool) (s : State) : Out :=
  runCommand (caseIsNotReserved cs && !ign) (decodeSymbols .base32hex cs (!nopad) false) s

/-- DEC64 (R154). -/
def execDec64 (cs : CaseMode) (nopad ign : Bool) (s : State) : Out :=
  runCommand (caseIsUpper cs) (decodeSymbols .base64 .upper (!nopad) ign) s

/-- DEC64URL (R155). -/
def execDec64url (cs : CaseMode) (nopad ign : Bool) (s : State) : Out :=
  runCommand (caseIsUpper cs) (decodeSymbols .base64url .upper (!nopad) ign) s

end Sys2Proof.Machine
end

