-- ==== Sys2Proof/Machine/EncodeCommands.lean ====
section
/-! DEFINITION. The five encode commands (41_encode.md R126 to R130). -/

namespace Sys2Proof.Machine

/-- ENC16 (R126). NOPAD is ignored: `Encode` never pads base16 (R125). -/
def execEnc16 (cs : CaseMode) (nopad ign : Bool) (s : State) : Out :=
  runCommand (caseIsUpperOrLower cs && !ign) (fun x => .ok (encodeBytes .hex (letterCaseOf cs) (!nopad) x)) s

/-- ENC32 (R127). -/
def execEnc32 (cs : CaseMode) (nopad ign : Bool) (s : State) : Out :=
  runCommand (caseIsUpperOrLower cs && !ign) (fun x => .ok (encodeBytes .base32 (letterCaseOf cs) (!nopad) x)) s

/-- ENC32HEX (R128). -/
def execEnc32hex (cs : CaseMode) (nopad ign : Bool) (s : State) : Out :=
  runCommand (caseIsUpperOrLower cs && !ign) (fun x => .ok (encodeBytes .base32hex (letterCaseOf cs) (!nopad) x)) s

/-- ENC64 (R129). -/
def execEnc64 (cs : CaseMode) (nopad ign : Bool) (s : State) : Out :=
  runCommand (caseIsUpper cs && !ign) (fun x => .ok (encodeBytes .base64 .upper (!nopad) x)) s

/-- ENC64URL (R130). -/
def execEnc64url (cs : CaseMode) (nopad ign : Bool) (s : State) : Out :=
  runCommand (caseIsUpper cs && !ign) (fun x => .ok (encodeBytes .base64url .upper (!nopad) x)) s

end Sys2Proof.Machine
end

