-- ==== Sys2Proof/Machine/Dispatch.lean ====
section
/-! DEFINITION. One arm per constructor of Instr (R76). -/

namespace Sys2Proof.Machine

def exec (i : Instr) (s : State) : Host.Outcome State Fault Refusal :=
  match i with
  | .enc16 cs nopad ign => Sys2Proof.Machine.execEnc16 cs nopad ign s
  | .dec16 cs nopad ign => Sys2Proof.Machine.execDec16 cs nopad ign s
  | .enc32 cs nopad ign => Sys2Proof.Machine.execEnc32 cs nopad ign s
  | .dec32 cs nopad ign => Sys2Proof.Machine.execDec32 cs nopad ign s
  | .enc32hex cs nopad ign => Sys2Proof.Machine.execEnc32hex cs nopad ign s
  | .dec32hex cs nopad ign => Sys2Proof.Machine.execDec32hex cs nopad ign s
  | .enc64 cs nopad ign => Sys2Proof.Machine.execEnc64 cs nopad ign s
  | .dec64 cs nopad ign => Sys2Proof.Machine.execDec64 cs nopad ign s
  | .enc64url cs nopad ign => Sys2Proof.Machine.execEnc64url cs nopad ign s
  | .dec64url cs nopad ign => Sys2Proof.Machine.execDec64url cs nopad ign s

end Sys2Proof.Machine
end

