-- ==== Sys2Proof/Machine/Engine.lean ====
section
/-! DEFINITION. The ENGINE's side of a step: which agent moves next (R61), and `EngineStep` for the latched word (R80). -/

namespace Sys2Proof.Machine

/-- The ENGINE moves next: a command is in flight (R80) and no HOST access is to come before its step (R61 (c)). -/
def engineMovesNext (s : State) : Bool := s.busy && (s.engineDelay == 0 || s.hostQueue.isEmpty)

/-- `EngineStep` (R80): the latched word decoded and executed; a word that is not legal completes with ILLEGAL_COMMAND and
reads no IN_BUF byte (R205). -/
def engineStep (s : State) : Out :=
  match decodeWord s.cmd with
  | .ok i => exec i s
  | .error _ => .next (takeError .illegalCommand 0 0 s)

end Sys2Proof.Machine
end

