-- ==== Sys2Proof/Machine/Step.lean ====
section
/-! DEFINITION. One step of the block: an ENGINE step or one HOST event, in one total order (R61). -/

namespace Sys2Proof.Machine

/-- One step. -/
def step (s : State) : Host.Outcome State Fault Refusal :=
  if engineMovesNext s = true then engineStep s else .next (hostMove s)

/-- `s` with the command of the bits `w` accepted as a CMD write accepts it (R24), the ENGINE to move next. The block
fetches nothing (R21): its next instruction is the word in CMD (DESIGN CHOICE, assumption 4). -/
def State.withFetchWord (s : State) (nbits w : Nat) : State :=
  { acceptCommand (BitVec.ofNat 32 (w % 2 ^ nbits)) s with engineDelay := 0 }

end Sys2Proof.Machine
end

