-- ==== Sys2Proof/Safety.lean ====
section
/-! DEFINITION. The terms claims use: the state after a command that succeeded, the state after one that failed, the
invariant of every state a run from reset reaches, and a run that never stops. -/

namespace Sys2Proof

open Sys2Proof.Machine

/-- What no command changes: everything but OUT_BUF, OUT_LEN, the error registers and the flags (R34, R36, R80, R204). -/
structure CommandFrame (s t : State) : Prop where
  cmd : t.cmd = s.cmd
  latLen : t.latLen = s.latLen
  inLen : t.inLen = s.inLen
  irqEn : t.irqEn = s.irqEn
  inBuf : t.inBuf = s.inBuf
  inEpoch : t.inEpoch = s.inEpoch
  config : t.config = s.config
  hostQueue : t.hostQueue = s.hostQueue
  busResp : t.busResp = s.busResp
  engineDelay : t.engineDelay = s.engineDelay
  cmdCount : t.cmdCount = s.cmdCount

/-- `t` is `s` after a command that ended with `Ok(y)` (R80): the output in `OUT_BUF[0 .. len(y))` and every other OUT_BUF
byte as before, OUT_LEN its length, no error, BUSY 0, DONE 1, and nothing else changed. -/
structure Succeeded (s t : State) (y : List Byte) : Prop where
  frame : CommandFrame s t
  busy : t.busy = false
  doneBit : t.doneBit = true
  errBit : t.errBit = false
  errCode : t.errCode = 0
  errByte : t.errByte = 0
  errPos : t.errPos = 0
  outLen : t.outLen.toNat = y.length
  outStored : ∀ i (h : i < y.length), readCell t.outBuf i = some y[i]
  outKept : ∀ i, y.length ≤ i → readCell t.outBuf i = readCell s.outBuf i
  outEpoch : t.outEpoch = s.outEpoch

/-- `t` is `s` after a command that ended with `Error(c, b, p)` (R80, R204): ERRCODE, ERR_BYTE and ERR_POS recorded, ERR 1,
OUT_LEN 0, BUSY 0, DONE 1, every OUT_BUF byte unspecified anew, and nothing else changed. -/
structure FailedWith (s t : State) (c : Nat) (b : Byte) (p : Nat) : Prop where
  frame : CommandFrame s t
  busy : t.busy = false
  doneBit : t.doneBit = true
  errBit : t.errBit = true
  errCode : t.errCode.toNat = c
  errByte : t.errByte = b
  errPos : t.errPos.toNat = p
  outLen : t.outLen = 0
  outNoValue : ∀ i, readCell t.outBuf i = none
  outEpoch : t.outEpoch = s.outEpoch + 1

/-- The number R200 gives an error code. -/
def Machine.ErrCode.number : ErrCode → Nat
  | .oddLength => 1
  | .incorrectPadding => 2
  | .invalidSymbol => 3
  | .illegalCommand => 4
  | .lengthRange => 5

/-- What holds of every state a run from reset reaches. -/
structure Inv (s : State) : Prop where
  /-- The capacities are legal (R5). -/
  config_legal : s.config.Legal
  /-- IN_BUF is in canonical form and inside its capacity (R36). -/
  inBuf_wf : Memory.wf s.inBuf
  inBuf_within : Memory.within s.inBuf s.config.inBufBytes
  /-- OUT_BUF is in canonical form and inside its capacity (R37). -/
  outBuf_wf : Memory.wf s.outBuf
  outBuf_within : Memory.within s.outBuf s.config.outBufBytes
  /-- BUSY = 1 implies DONE = 0, ERR = 0 and ERRCODE = 0 (R25), and OUT_LEN, ERR_BYTE and ERR_POS read 0 (R255). -/
  busy_clear : s.busy = true → s.doneBit = false ∧ s.errBit = false ∧ s.errCode = 0 ∧ s.outLen = 0 ∧ s.errByte = 0 ∧
    s.errPos = 0
  /-- ERR = 1 exactly when ERRCODE ≠ 0 (R25). -/
  err_iff : s.errBit = true ↔ s.errCode ≠ 0
  /-- ERRCODE is 0 or one of the codes 1 to 5 (R25, R200). -/
  errCode_range : s.errCode.toNat ≤ 5
  /-- OUT_LEN is 0 after an error (R28). -/
  err_outLen : s.errBit = true → s.outLen = 0
  /-- OUT_LEN counts bytes of OUT_BUF (R135). -/
  outLen_le : s.outLen.toNat ≤ s.config.outBufBytes
  /-- ERR_BYTE and ERR_POS are 0 after any completion but INVALID_SYMBOL (R29, R30). -/
  errByte_zero : s.errCode ≠ 3 → s.errByte = 0 ∧ s.errPos = 0
  /-- ERR_POS is an index of the failed command's input (R30, R206). -/
  errPos_lt : s.errCode = 3 → s.errPos.toNat < s.latLen.toNat ∧ s.latLen.toNat ≤ s.config.inBufBytes

/-- `Legal(cmd)` of R77, line by line. -/
abbrev LegalWord (w : Word) : Prop :=
  w.extractLsb' 8 24 = 0 ∧ (w.extractLsb' 1 3).toNat ≤ 4 ∧ (w.extractLsb' 4 2).toNat ≠ 3 ∧
    (w.getLsbD 0 = true ∨ (w.extractLsb' 4 2).toNat ≠ 2) ∧
    ((w.extractLsb' 1 3).toNat < 3 ∨ (w.extractLsb' 4 2).toNat = 0) ∧
    (w.getLsbD 7 = false ∨ (w.getLsbD 0 = true ∧ 3 ≤ (w.extractLsb' 1 3).toNat))

/-- Which case modes R111 lets an encoder use with a table. -/
abbrev EncodeCaseAllowed (a : Alphabet) (lc : LetterCase) : Prop :=
  lc = .upper ∨ a = .hex ∨ a = .base32 ∨ a = .base32hex

/-- Which case modes R111 lets a decoder use with a table. -/
abbrev DecodeCaseAllowed (a : Alphabet) (cs : CaseMode) : Prop :=
  cs = .upper ∨ (cs ≠ .reserved ∧ (a = .hex ∨ a = .base32 ∨ a = .base32hex))

/-- The decode case modes that undo an encode case mode: the same one, or mixed (R158). -/
abbrev CaseUndoes (lc : LetterCase) (cs : CaseMode) : Prop :=
  cs = .mixed ∨ (cs = .upper ∧ lc = .upper) ∨ (cs = .lower ∧ lc = .lower)

/-- The legal counts of trailing `'='` of R146: 0, 1 and 2 for base64; 0, 1, 3, 4 and 6 for base32. -/
abbrev LegalPadCount (a : Alphabet) (p : Nat) : Prop :=
  (bitsPerSymbol a = 6 ∧ (p = 0 ∨ p = 1 ∨ p = 2)) ∨ (bitsPerSymbol a = 5 ∧ (p = 0 ∨ p = 1 ∨ p = 3 ∨ p = 4 ∨ p = 6))

/-- A final group of a legal shape (R147): data symbols without `'='`, then a legal count of `'='`. -/
def LegalFinalGroup (a : Alphabet) (f : List Byte) : Prop :=
  ∃ data p, f = data ++ List.replicate p padByte ∧ padByte ∉ data ∧ LegalPadCount a p

/-- The block right after reset with the capacities `c` (the table of R250). -/
structure JustReset (c : Config) (t : State) : Prop where
  cmd : t.cmd = 0
  latLen : t.latLen = 0
  busy : t.busy = false
  doneBit : t.doneBit = false
  errBit : t.errBit = false
  errCode : t.errCode = 0
  inLen : t.inLen = 0
  outLen : t.outLen = 0
  errByte : t.errByte = 0
  errPos : t.errPos = 0
  irqEn : t.irqEn = false
  config : t.config = c
  inNoValue : ∀ i, readCell t.inBuf i = none
  outNoValue : ∀ i, readCell t.outBuf i = none

/-- The next step performs this HOST event: it is the oldest one, and no ENGINE step comes before it (R61). -/
abbrev HostMovesWith (s : State) (ev : HostEvent) (rest : List HostEvent) : Prop :=
  s.hostQueue = ev :: rest ∧ ¬(s.busy = true ∧ s.engineDelay = 0)

/-- The next step is the ENGINE step of the command in flight (R80): no HOST access is to come before it, or none is
there (R61 (c)). -/
abbrev EngineMoves (s : State) : Prop := s.busy = true ∧ (s.engineDelay = 0 ∨ s.hostQueue = [])

/-- A run that never stops: any number of steps answers a next state. -/
def NeverStops (s : State) : Prop := ∀ k, ∃ t, Sys2Proof.core.run k s = .next t

end Sys2Proof
end

