-- ==== Sys2Proof/Certificates/Slice0/Obligations.lean ====
section
/-! DEFINITION. The statements about rfc4648_codec_core, for the provers. Each docstring names the rules it formalises. -/

open Sys2Proof Sys2Proof.Machine

/-! ## The command word -/

/-- R76, R82: words written out from the opcode map and the examples of R82 decode to the commands they stand for, and R82's
assembler lines give those words. -/
def Obligations.CommandWordsDecodeAsSpelled : Prop :=
  decodeWord 0x00000000 = .ok (.enc16 .upper false false) ∧ decodeWord 0x00000021 = .ok (.dec16 .mixed false false) ∧
  decodeWord 0x00000052 = .ok (.enc32 .lower true false) ∧ decodeWord 0x00000003 = .ok (.dec32 .upper false false) ∧
  decodeWord 0x00000004 = .ok (.enc32hex .upper false false) ∧
  decodeWord 0x00000065 = .ok (.dec32hex .mixed true false) ∧
  decodeWord 0x00000006 = .ok (.enc64 .upper false false) ∧ decodeWord 0x00000046 = .ok (.enc64 .upper true false) ∧
  decodeWord 0x00000087 = .ok (.dec64 .upper false true) ∧ decodeWord 0x00000008 = .ok (.enc64url .upper false false) ∧
  decodeWord 0x000000C9 = .ok (.dec64url .upper true true) ∧
  (assemble "ENC32" [.lower, .nopad]).map encode = some 0x00000052 ∧
  (assemble "DEC32HEX" [.mixed, .nopad]).map encode = some 0x00000065 ∧ assemble "ENC64" [.lower] = none

/-- R70, R77, R82: a word decodes to a command exactly when the command is well formed and encodes to that word. So every
well-formed command survives encoding and decoding, and no word has two meanings. -/
def Obligations.DecodeAndEncodeAgree : Prop :=
  ∀ (w : Word) (i : Instr), decodeWord w = .ok i ↔ (i.wellFormed = true ∧ encode i = w)

/-- R77, R205: a word is a command exactly when `Legal` is true of it; CMD accepts every word; and the ENGINE step of a word that
is not legal ends with ILLEGAL_COMMAND and reads nothing of IN_BUF. -/
def Obligations.IllegalWordsAreAcceptedAndFail : Prop :=
  (∀ w : Word, (∃ i, decodeWord w = .ok i) ↔ LegalWord w) ∧
  (∀ (s : State) (w : Word), s.busy = false →
    (hostWriteResponse s 0x000 4).error = false ∧ (hostWrite s 0x000 4 w).cmd = w ∧ (hostWrite s 0x000 4 w).busy = true) ∧
  (∀ s : State, EngineMoves s → ¬LegalWord s.cmd →
    ∃ t, step s = .next t ∧ FailedWith s t 4 0 0 ∧
      ∀ (m : Memory) (e : Nat), step { s with inBuf := m, inEpoch := e } = .next { t with inBuf := m, inEpoch := e })

/-- R79, last point: a legal word matches exactly one row of the opcode table, the row of its mnemonic. -/
def Obligations.LegalWordMatchesItsTableRowOnly : Prop :=
  ∀ (w : Word) (i : Instr), decodeWord w = .ok i →
    (opcodeTable.filter fun r => r.covers w).map OpcodeRow.mnemonic = [mnemonicOf i]

/-! ## The ENGINE step -/

/-- R80: when the word in CMD decodes to a command and the ENGINE moves, a step is that command's meaning. -/
def Obligations.StepRunsTheDecodedCommand : Prop :=
  ∀ (s : State) (i : Instr), EngineMoves s → decodeWord s.cmd = .ok i → step s = exec i s

/-- R21, R24: with a command's word placed as the next one to run, the next step runs that command. What placing a word
means is the model's choice (log entry 4). -/
def Obligations.PlacedCommandRunsNext : Prop :=
  ∀ (s : State) (w : Word) (i : Instr), decodeWord w = .ok i →
    step (s.withFetchWord 32 w.toNat) = exec i (s.withFetchWord 32 w.toNat)

/-- R206: a legal command whose latched length exceeds IN_BUF_BYTES ends with LENGTH_RANGE and reads nothing of IN_BUF. -/
def Obligations.TooLongInputEndsWithLengthRange : Prop :=
  ∀ (i : Instr) (s : State), i.wellFormed = true → s.config.inBufBytes < s.latLen.toNat →
    ∃ t, exec i s = .next t ∧ FailedWith s t 5 0 0 ∧
      ∀ (m : Memory) (e : Nat), exec i { s with inBuf := m, inEpoch := e } = .next { t with inBuf := m, inEpoch := e }

/-- R76, R126 to R130, R151 to R155, R207: a command with an option its mnemonic does not allow ends with ILLEGAL_COMMAND,
whatever its length and its input. -/
def Obligations.ForbiddenOptionEndsWithIllegalCommand : Prop :=
  ∀ (i : Instr) (s : State), i.wellFormed = false → ∃ t, exec i s = .next t ∧ FailedWith s t 4 0 0

/-- R36, R204, R257: what no command changes, whichever way it ends; and after a success the OUT_BUF bytes at or beyond
OUT_LEN are as before. -/
def Obligations.CommandsChangeOnlyTheirResults : Prop :=
  ∀ (i : Instr) (s t : State), exec i s = .next t →
    CommandFrame s t ∧ t.busy = false ∧ t.doneBit = true ∧
    (s.config.Legal → t.errBit = false →
      t.outEpoch = s.outEpoch ∧ ∀ j, t.outLen.toNat ≤ j → readCell t.outBuf j = readCell s.outBuf j)

/-- R200: which codes a command can end with. Encode commands: 0, 4, 5; DEC16: 0, 1, 3, 4, 5; the other decode commands:
0, 2, 3, 4, 5. ERR is 1 exactly when the code is not 0, and ERR_BYTE and ERR_POS are 0 unless it is 3. -/
def Obligations.ErrorCodesOfEachCommand : Prop :=
  ∀ (i : Instr) (s t : State), exec i s = .next t →
    (t.errBit = true ↔ t.errCode ≠ 0) ∧ (t.errCode.toNat ≠ 3 → t.errByte = 0 ∧ t.errPos = 0) ∧
    (match i with
      | .enc16 _ _ _ | .enc32 _ _ _ | .enc32hex _ _ _ | .enc64 _ _ _ | .enc64url _ _ _ => t.errCode.toNat ∈ [0, 4, 5]
      | .dec16 _ _ _ => t.errCode.toNat ∈ [0, 1, 3, 4, 5]
      | .dec32 _ _ _ | .dec32hex _ _ _ | .dec64 _ _ _ | .dec64url _ _ _ => t.errCode.toNat ∈ [0, 2, 3, 4, 5])

/-- R7, R80: the result registers and the output bytes depend only on the command word, the latched length, the capacities
and the input bytes. -/
def Obligations.ResultDependsOnCommandAndInputOnly : Prop :=
  ∀ s₁ s₂ t₁ : State, s₂.cmd = s₁.cmd → s₂.latLen = s₁.latLen → s₂.config = s₁.config →
    (∀ j < s₁.latLen.toNat, inByte s₂ j = inByte s₁ j) → engineStep s₁ = .next t₁ →
    ∃ t₂, engineStep s₂ = .next t₂ ∧ t₂.errBit = t₁.errBit ∧ t₂.errCode = t₁.errCode ∧ t₂.errByte = t₁.errByte ∧
      t₂.errPos = t₁.errPos ∧ t₂.outLen = t₁.outLen ∧
      (t₁.errBit = false → ∀ j < t₁.outLen.toNat, readCell t₂.outBuf j = readCell t₁.outBuf j)

/-! ## The encode commands -/

/-- R126: ENC16 succeeds with two symbols for each input byte, the high nibble's first, in the case CASE names; NOPAD does
not matter. -/
def Obligations.Enc16WritesTwoSymbolsPerByte : Prop :=
  ∀ (s : State) (nopad : Bool), s.config.Legal → s.latLen.toNat ≤ s.config.inBufBytes →
    (∃ t, exec (.enc16 .upper nopad false) s = .next t ∧
      Succeeded s t ((inputBytes s).flatMap fun b => [fwd .hex .upper (b.toNat / 16), fwd .hex .upper (b.toNat % 16)])) ∧
    (∃ t, exec (.enc16 .lower nopad false) s = .next t ∧
      Succeeded s t ((inputBytes s).flatMap fun b => [fwd .hex .lower (b.toNat / 16), fwd .hex .lower (b.toNat % 16)]))

/-- R127, R128: ENC32 and ENC32HEX succeed with the encoding of the input under tables 1 and 2. -/
def Obligations.Base32EncodersWriteTheEncoding : Prop :=
  ∀ (s : State) (nopad : Bool) (cs : CaseMode) (lc : LetterCase), s.config.Legal →
    s.latLen.toNat ≤ s.config.inBufBytes → (cs = .upper ∧ lc = .upper ∨ cs = .lower ∧ lc = .lower) →
    (∃ t, exec (.enc32 cs nopad false) s = .next t ∧ Succeeded s t (encodeBytes .base32 lc (!nopad) (inputBytes s))) ∧
    (∃ t, exec (.enc32hex cs nopad false) s = .next t ∧
      Succeeded s t (encodeBytes .base32hex lc (!nopad) (inputBytes s)))

/-- R129, R130: ENC64 and ENC64URL succeed with the encoding of the input under tables 3 and 4. -/
def Obligations.Base64EncodersWriteTheEncoding : Prop :=
  ∀ (s : State) (nopad : Bool), s.config.Legal → s.latLen.toNat ≤ s.config.inBufBytes →
    (∃ t, exec (.enc64 .upper nopad false) s = .next t ∧
      Succeeded s t (encodeBytes .base64 .upper (!nopad) (inputBytes s))) ∧
    (∃ t, exec (.enc64url .upper nopad false) s = .next t ∧
      Succeeded s t (encodeBytes .base64url .upper (!nopad) (inputBytes s)))

/-- R120, R121, R122: a full group in front gives the symbols of its bits, the first byte's most significant bit first,
and the rest is encoded as if it stood alone. -/
def Obligations.FullGroupGivesItsBitsInOrder : Prop :=
  (∀ (lc : LetterCase) (pad : Bool) (b : Byte) (x : List Byte),
    encodeBytes .hex lc pad (b :: x) =
      [b.toNat / 16, b.toNat % 16].map (fwd .hex lc) ++ encodeBytes .hex lc pad x) ∧
  (∀ (a : Alphabet) (lc : LetterCase) (pad : Bool) (b₀ b₁ b₂ : Byte) (x : List Byte), a = .base64 ∨ a = .base64url →
    encodeBytes a lc pad (b₀ :: b₁ :: b₂ :: x) =
      [b₀.toNat / 4, b₀.toNat % 4 * 16 + b₁.toNat / 16, b₁.toNat % 16 * 4 + b₂.toNat / 64, b₂.toNat % 64].map (fwd a lc) ++
        encodeBytes a lc pad x) ∧
  (∀ (a : Alphabet) (lc : LetterCase) (pad : Bool) (b₀ b₁ b₂ b₃ b₄ : Byte) (x : List Byte),
    a = .base32 ∨ a = .base32hex →
    encodeBytes a lc pad (b₀ :: b₁ :: b₂ :: b₃ :: b₄ :: x) =
      [b₀.toNat / 8, b₀.toNat % 8 * 4 + b₁.toNat / 64, b₁.toNat % 64 / 2, b₁.toNat % 2 * 16 + b₂.toNat / 16,
        b₂.toNat % 16 * 2 + b₃.toNat / 128, b₃.toNat % 128 / 4, b₃.toNat % 4 * 8 + b₄.toNat / 32, b₄.toNat % 32].map
          (fwd a lc) ++ encodeBytes a lc pad x)

/-- R123, R124, R125: the symbols of every tail, its unused low bits 0, and the count of `'='` that padding adds. -/
def Obligations.TailsAreZeroFilledAndPadded : Prop :=
  (∀ (a : Alphabet) (lc : LetterCase) (pad : Bool) (b₀ b₁ : Byte), a = .base64 ∨ a = .base64url →
    encodeBytes a lc pad [] = [] ∧
    encodeBytes a lc pad [b₀] =
      [b₀.toNat / 4, b₀.toNat % 4 * 16].map (fwd a lc) ++ List.replicate (if pad then 2 else 0) 0x3D ∧
    encodeBytes a lc pad [b₀, b₁] =
      [b₀.toNat / 4, b₀.toNat % 4 * 16 + b₁.toNat / 16, b₁.toNat % 16 * 4].map (fwd a lc) ++
        List.replicate (if pad then 1 else 0) 0x3D) ∧
  (∀ (a : Alphabet) (lc : LetterCase) (pad : Bool) (b₀ b₁ b₂ b₃ : Byte), a = .base32 ∨ a = .base32hex →
    encodeBytes a lc pad [] = [] ∧
    encodeBytes a lc pad [b₀] =
      [b₀.toNat / 8, b₀.toNat % 8 * 4].map (fwd a lc) ++ List.replicate (if pad then 6 else 0) 0x3D ∧
    encodeBytes a lc pad [b₀, b₁] =
      [b₀.toNat / 8, b₀.toNat % 8 * 4 + b₁.toNat / 64, b₁.toNat % 64 / 2, b₁.toNat % 2 * 16].map (fwd a lc) ++
        List.replicate (if pad then 4 else 0) 0x3D ∧
    encodeBytes a lc pad [b₀, b₁, b₂] =
      [b₀.toNat / 8, b₀.toNat % 8 * 4 + b₁.toNat / 64, b₁.toNat % 64 / 2, b₁.toNat % 2 * 16 + b₂.toNat / 16,
        b₂.toNat % 16 * 2].map (fwd a lc) ++ List.replicate (if pad then 3 else 0) 0x3D ∧
    encodeBytes a lc pad [b₀, b₁, b₂, b₃] =
      [b₀.toNat / 8, b₀.toNat % 8 * 4 + b₁.toNat / 64, b₁.toNat % 64 / 2, b₁.toNat % 2 * 16 + b₂.toNat / 16,
        b₂.toNat % 16 * 2 + b₃.toNat / 128, b₃.toNat % 128 / 4, b₃.toNat % 4 * 8].map (fwd a lc) ++
        List.replicate (if pad then 1 else 0) 0x3D)

/-- R134: the length of every encoding. -/
def Obligations.EncodedLengthIsTheTables : Prop :=
  ∀ (lc : LetterCase) (x : List Byte),
    (∀ pad, (encodeBytes .hex lc pad x).length = 2 * x.length) ∧
    (∀ a, a = .base32 ∨ a = .base32hex →
      (encodeBytes a lc true x).length = 8 * ((x.length + 4) / 5) ∧
      (encodeBytes a lc false x).length = 8 * (x.length / 5) + [0, 2, 4, 5, 7].getD (x.length % 5) 0) ∧
    (∀ a, a = .base64 ∨ a = .base64url →
      (encodeBytes a lc true x).length = 4 * ((x.length + 2) / 3) ∧
      (encodeBytes a lc false x).length = 4 * (x.length / 3) + [0, 2, 3].getD (x.length % 3) 0)

/-- R135: no command's output is longer than OUT_BUF. -/
def Obligations.OutputAlwaysFits : Prop :=
  ∀ (c : Config) (x : List Byte), c.Legal → x.length ≤ c.inBufBytes →
    (∀ (a : Alphabet) (lc : LetterCase) (pad : Bool),
      (encodeBytes a lc pad x).length ≤ 2 * x.length + 8 ∧ (encodeBytes a lc pad x).length ≤ c.outBufBytes) ∧
    (∀ (a : Alphabet) (cs : CaseMode) (pad ign : Bool) (y : List Byte), decodeSymbols a cs pad ign x = .ok y →
      y.length ≤ x.length ∧ y.length ≤ c.outBufBytes)

/-- R133: encoding in lower case is encoding in upper case and then lowering every symbol. -/
def Obligations.LowerEncodingIsUpperLowered : Prop :=
  ∀ (a : Alphabet) (pad : Bool) (x : List Byte),
    encodeBytes a .lower pad x =
      (encodeBytes a .upper pad x).map fun c => if 0x41#8 ≤ c ∧ c ≤ 0x5A#8 then c + 0x20#8 else c

/-- R132: the output length depends on table, padding and input length only, and distinct inputs of one length have
distinct outputs. -/
def Obligations.EncodingIsInjective : Prop :=
  ∀ (a : Alphabet) (lc : LetterCase) (pad : Bool) (x y : List Byte), x.length = y.length →
    (∀ lc', (encodeBytes a lc pad x).length = (encodeBytes a lc' pad y).length) ∧
    (EncodeCaseAllowed a lc → encodeBytes a lc pad x = encodeBytes a lc pad y → x = y)

/-! ## The decode commands -/

/-- R80, R204, R151 to R155: with legal options and an input that fits, a decode command always completes, with the bytes
`Decode` gives or with the error it raises. -/
def Obligations.DecodeCommandsEndAsDecodeSays : Prop :=
  ∀ (s : State) (cs : CaseMode) (nopad ign : Bool), s.config.Legal → s.latLen.toNat ≤ s.config.inBufBytes →
    (∀ i a, (cs ≠ .reserved ∧
        (i = .dec16 cs nopad false ∧ a = .hex ∨ i = .dec32 cs nopad false ∧ a = .base32 ∨
          i = .dec32hex cs nopad false ∧ a = .base32hex)) →
      ∃ t, exec i s = .next t ∧
        match decodeSymbols a cs (!nopad) false (inputBytes s) with
        | .ok y => Succeeded s t y
        | .error e => FailedWith s t e.code.number e.byte e.pos) ∧
    (∀ i a, (i = .dec64 .upper nopad ign ∧ a = .base64 ∨ i = .dec64url .upper nopad ign ∧ a = .base64url) →
      ∃ t, exec i s = .next t ∧
        match decodeSymbols a .upper (!nopad) ign (inputBytes s) with
        | .ok y => Succeeded s t y
        | .error e => FailedWith s t e.code.number e.byte e.pos)

/-- R143, R151: DEC16 on an even count of symbols of the table succeeds with one byte for each pair, the first symbol its
high nibble. -/
def Obligations.Dec16WritesOneBytePerPair : Prop :=
  ∀ (s : State) (cs : CaseMode) (nopad : Bool) (f : Nat → Nat), s.config.Legal →
    s.latLen.toNat ≤ s.config.inBufBytes → cs ≠ .reserved → s.latLen.toNat % 2 = 0 →
    (∀ j < s.latLen.toNat, inv .hex cs (inByte s j) = some (f j)) →
    ∃ t, exec (.dec16 cs nopad false) s = .next t ∧
      Succeeded s t ((List.range (s.latLen.toNat / 2)).map fun j => BitVec.ofNat 8 (f (2 * j) * 16 + f (2 * j + 1)))

/-- R158 at the block: a decode command whose input is an encoding succeeds with the bytes that were encoded. -/
def Obligations.DecodeCommandsUndoEncoding : Prop :=
  ∀ (s : State) (lc : LetterCase) (cs : CaseMode) (nopad ign : Bool) (x : List Byte), s.config.Legal →
    s.latLen.toNat ≤ s.config.inBufBytes →
    (∀ i a, (i = .dec16 cs nopad false ∧ a = .hex ∨ i = .dec32 cs nopad false ∧ a = .base32 ∨
        i = .dec32hex cs nopad false ∧ a = .base32hex) →
      CaseUndoes lc cs → inputBytes s = encodeBytes a lc (!nopad) x →
      ∃ t, exec i s = .next t ∧ Succeeded s t x) ∧
    (∀ i a, (i = .dec64 .upper nopad ign ∧ a = .base64 ∨ i = .dec64url .upper nopad ign ∧ a = .base64url) →
      inputBytes s = encodeBytes a .upper (!nopad) x →
      ∃ t, exec i s = .next t ∧ Succeeded s t x)

/-- R158: decoding is the left inverse of encoding, for every byte sequence, every table, every case mode and both padding
settings. It holds of tables 3 and 4 with `case'` mixed too, as R158 says of every table; no command asks for that (R111,
log entry 10). -/
def Obligations.DecodingUndoesEncoding : Prop :=
  ∀ (a : Alphabet) (lc : LetterCase) (cs : CaseMode) (pad : Bool) (x : List Byte), EncodeCaseAllowed a lc →
    CaseUndoes lc cs → decodeSymbols a cs pad false (encodeBytes a lc pad x) = .ok x

/-- R161: for tables 0 to 2, lowering an upper-case encoding and decoding it in mixed case gives the bytes back. -/
def Obligations.MixedDecodingIgnoresLetterCase : Prop :=
  ∀ (a : Alphabet) (pad : Bool) (x : List Byte), a = .hex ∨ a = .base32 ∨ a = .base32hex →
    decodeSymbols a .mixed pad false
      ((encodeBytes a .upper pad x).map fun c => if 0x41#8 ≤ c ∧ c ≤ 0x5A#8 then c + 0x20#8 else c) = .ok x

/-- R160: how many bytes a decode gives. `u` counts the symbols left after stripping; `nb` are those of the final group. -/
def Obligations.DecodedLength : Prop :=
  ∀ (a : Alphabet) (cs : CaseMode) (pad ign : Bool) (s y : List Byte), decodeSymbols a cs pad ign s = .ok y →
    let u := if ign then (s.filter fun c => !isWhitespace c).length else s.length
    y.length ≤ s.length ∧ (a = .hex → y.length = u / 2) ∧ (u = 0 → y = []) ∧
    (a ≠ .hex → 0 < u → ∃ nb, 1 ≤ nb ∧ nb ≤ bytesPerGroup a ∧
      y.length = bytesPerGroup a * ((u + symbolsPerGroup a - 1) / symbolsPerGroup a - 1) + nb)

/-- R157: INVALID_SYMBOL names a byte of the input at its index before stripping, one that is outside the inverse table and
that stripping did not remove, so never a `'='` that re-padding appended; and ERR_BYTE and ERR_POS then show it. -/
def Obligations.InvalidSymbolNamesAnInputByte : Prop :=
  (∀ (a : Alphabet) (cs : CaseMode) (pad ign : Bool) (s : List Byte) (b : Byte) (p : Nat),
    decodeSymbols a cs pad ign s = .error ⟨.invalidSymbol, b, p⟩ →
    s[p]? = some b ∧ inv a cs b = none ∧ (ign = true → isWhitespace b = false)) ∧
  (∀ (i : Instr) (s t : State), exec i s = .next t → t.errCode.toNat = 3 →
    t.errPos.toNat < s.latLen.toNat ∧ inByte s t.errPos.toNat = t.errByte)

/-- R143, R145, R148, R203: the first symbol outside the inverse table is the one reported: among the pairs of base16, in
the groups before the final one, and among the data symbols of a final group of a legal shape. -/
def Obligations.FirstBadSymbolIsReported : Prop :=
  (∀ (cs : CaseMode) (pad : Bool) (good rest : List Byte) (c : Byte),
    (good ++ c :: rest).length % 2 = 0 → (∀ x ∈ good, inv .hex cs x ≠ none) → inv .hex cs c = none →
    decodeSymbols .hex cs pad false (good ++ c :: rest) = .error ⟨.invalidSymbol, c, good.length⟩) ∧
  (∀ (a : Alphabet) (cs : CaseMode) (pad : Bool) (good rest : List Byte) (c : Byte), a ≠ .hex →
    (good ++ c :: rest).length % symbolsPerGroup a = 0 →
    good.length + symbolsPerGroup a < (good ++ c :: rest).length →
    (∀ x ∈ good, inv a cs x ≠ none) → inv a cs c = none →
    decodeSymbols a cs pad false (good ++ c :: rest) = .error ⟨.invalidSymbol, c, good.length⟩) ∧
  (∀ (a : Alphabet) (cs : CaseMode) (pad : Bool) (before good rest : List Byte) (c : Byte) (p : Nat), a ≠ .hex →
    before.length % symbolsPerGroup a = 0 → (good ++ c :: rest).length + p = symbolsPerGroup a → LegalPadCount a p →
    padByte ∉ good ++ c :: rest → (∀ x ∈ before ++ good, inv a cs x ≠ none) → inv a cs c = none →
    decodeSymbols a cs pad false (before ++ (good ++ c :: rest ++ List.replicate p padByte)) =
      .error ⟨.invalidSymbol, c, before.length + good.length⟩)

/-- R142: base16 input of odd length ends with ODD_LENGTH, and of even length never does, whatever its symbols are. -/
def Obligations.OddLengthExactlyOnOddInput : Prop :=
  ∀ (cs : CaseMode) (pad : Bool) (s : List Byte),
    decodeSymbols .hex cs pad false s = .error ⟨.oddLength, 0, 0⟩ ↔ s.length % 2 = 1

/-- R144: with padding enabled a length that is no multiple of the group is INCORRECT_PADDING; with padding disabled the
input is decoded as if re-padded with `'='` to the next multiple, so a multiple is decoded as it is. -/
def Obligations.NopadDecodesTheRepaddedInput : Prop :=
  ∀ (a : Alphabet) (cs : CaseMode) (s : List Byte), a ≠ .hex →
    (s.length % symbolsPerGroup a ≠ 0 → decodeSymbols a cs true false s = .error ⟨.incorrectPadding, 0, 0⟩) ∧
    decodeSymbols a cs false false s =
      decodeSymbols a cs true false
        (s ++ List.replicate ((symbolsPerGroup a - s.length % symbolsPerGroup a) % symbolsPerGroup a) 0x3D)

/-- R147: once the groups before it are valid, the final group gives INCORRECT_PADDING exactly when its shape is not legal,
whatever its data symbols are. -/
def Obligations.FinalGroupShapeDecidesPaddingError : Prop :=
  ∀ (a : Alphabet) (cs : CaseMode) (pad : Bool) (before f : List Byte), a ≠ .hex →
    before.length % symbolsPerGroup a = 0 → f.length = symbolsPerGroup a → (∀ x ∈ before, inv a cs x ≠ none) →
    (decodeSymbols a cs pad false (before ++ f) = .error ⟨.incorrectPadding, 0, 0⟩ ↔ ¬LegalFinalGroup a f)

/-- R145: a full group of valid symbols in front gives its bytes, and the rest is decoded as if it stood alone. -/
def Obligations.FullGroupDecodesInFront : Prop :=
  ∀ (a : Alphabet) (cs : CaseMode) (g s y : List Byte), g.length = symbolsPerGroup a → (∀ x ∈ g, inv a cs x ≠ none) →
    decodeSymbols a cs true false s = .ok y →
    ∃ z, z.length = bytesPerGroup a ∧ decodeSymbols a cs true false g = .ok z ∧
      decodeSymbols a cs true false (g ++ s) = .ok (z ++ y)

/-- R146, R148, R149: the bytes of every legal final group, from the values of its data symbols, in every case mode R111
allows and with either padding setting; the low bits that a short group leaves over do not matter. -/
def Obligations.FinalGroupBytes : Prop :=
  (∀ (a : Alphabet) (pad : Bool) (c : Nat → Byte) (v : Nat → Nat), a = .base64 ∨ a = .base64url →
    (∀ j < 4, inv a .upper (c j) = some (v j)) →
    decodeSymbols a .upper pad false [c 0, c 1, c 2, c 3] =
      .ok ([v 0 * 4 + v 1 / 16, v 1 % 16 * 16 + v 2 / 4, v 2 % 4 * 64 + v 3].map (BitVec.ofNat 8)) ∧
    decodeSymbols a .upper pad false [c 0, c 1, c 2, 0x3D] =
      .ok ([v 0 * 4 + v 1 / 16, v 1 % 16 * 16 + v 2 / 4].map (BitVec.ofNat 8)) ∧
    decodeSymbols a .upper pad false [c 0, c 1, 0x3D, 0x3D] = .ok ([v 0 * 4 + v 1 / 16].map (BitVec.ofNat 8))) ∧
  (∀ (a : Alphabet) (cs : CaseMode) (pad : Bool) (c : Nat → Byte) (v : Nat → Nat), a = .base32 ∨ a = .base32hex →
    DecodeCaseAllowed a cs → (∀ j < 8, inv a cs (c j) = some (v j)) →
    let b := [v 0 * 8 + v 1 / 4, v 1 % 4 * 64 + v 2 * 2 + v 3 / 16, v 3 % 16 * 16 + v 4 / 2,
      v 4 % 2 * 128 + v 5 * 4 + v 6 / 8, v 6 % 8 * 32 + v 7].map (BitVec.ofNat 8)
    let y := (List.range 8).map c
    decodeSymbols a cs pad false y = .ok b ∧
    decodeSymbols a cs pad false (y.take 7 ++ List.replicate 1 0x3D) = .ok (b.take 4) ∧
    decodeSymbols a cs pad false (y.take 5 ++ List.replicate 3 0x3D) = .ok (b.take 3) ∧
    decodeSymbols a cs pad false (y.take 4 ++ List.replicate 4 0x3D) = .ok (b.take 2) ∧
    decodeSymbols a cs pad false (y.take 2 ++ List.replicate 6 0x3D) = .ok (b.take 1))

/-- R150: a sequence that is empty, or empty once stripped, decodes to nothing. -/
def Obligations.EmptyInputDecodesToNothing : Prop :=
  (∀ (a : Alphabet) (cs : CaseMode) (pad ign : Bool), decodeSymbols a cs pad ign [] = .ok []) ∧
  (∀ (a : Alphabet) (cs : CaseMode) (pad : Bool) (s : List Byte), (∀ c ∈ s, isWhitespace c = true) →
    decodeSymbols a cs pad true s = .ok [])

/-- R141, R157, R175: with IGN = 1 the input decodes as the input without its whitespace does with IGN = 0: with the same
bytes, or with the same error code and offending byte. The position of an INVALID_SYMBOL is the index before stripping of
the symbol that stands at the other's position after stripping. -/
def Obligations.IgnDecodesTheStrippedInput : Prop :=
  ∀ (a : Alphabet) (cs : CaseMode) (pad : Bool) (s : List Byte),
    let u := s.filter fun c => !(c == 0x20 || c == 0x09 || c == 0x0D || c == 0x0A)
    (∀ y, decodeSymbols a cs pad true s = .ok y ↔ decodeSymbols a cs pad false u = .ok y) ∧
    (∀ c b p, c ≠ .invalidSymbol →
      (decodeSymbols a cs pad true s = .error ⟨c, b, p⟩ ↔ decodeSymbols a cs pad false u = .error ⟨c, b, p⟩)) ∧
    (∀ b p, decodeSymbols a cs pad true s = .error ⟨.invalidSymbol, b, p⟩ ↔
      ∃ q, decodeSymbols a cs pad false u = .error ⟨.invalidSymbol, b, q⟩ ∧ (stripWhitespace s)[q]? = some ⟨b, some p⟩)

/-! ## The alphabet ROM, padding and whitespace -/

/-- R101 to R105: the contents of the five tables. -/
def Obligations.RomHoldsTheFiveTables : Prop :=
  (∀ v < 16, fwd .hex .upper v = BitVec.ofNat 8 (if v < 10 then 0x30 + v else 0x41 + (v - 10)) ∧
    fwd .hex .lower v = BitVec.ofNat 8 (if v < 10 then 0x30 + v else 0x61 + (v - 10))) ∧
  (∀ v < 32, fwd .base32 .upper v = BitVec.ofNat 8 (if v < 26 then 0x41 + v else 0x32 + (v - 26)) ∧
    fwd .base32 .lower v = BitVec.ofNat 8 (if v < 26 then 0x61 + v else 0x32 + (v - 26))) ∧
  (∀ v < 32, fwd .base32hex .upper v = BitVec.ofNat 8 (if v < 10 then 0x30 + v else 0x41 + (v - 10)) ∧
    fwd .base32hex .lower v = BitVec.ofNat 8 (if v < 10 then 0x30 + v else 0x61 + (v - 10))) ∧
  (∀ v < 62, fwd .base64 .upper v =
      BitVec.ofNat 8 (if v < 26 then 0x41 + v else if v < 52 then 0x61 + (v - 26) else 0x30 + (v - 52)) ∧
    fwd .base64url .upper v = fwd .base64 .upper v) ∧
  fwd .base64 .upper 62 = 0x2B ∧ fwd .base64 .upper 63 = 0x2F ∧
  fwd .base64url .upper 62 = 0x2D ∧ fwd .base64url .upper 63 = 0x5F

/-- R109, R110, R111: the inverse lookup gives `v` for a byte exactly when the forward table of a case it accepts holds the
byte at `v`. -/
def Obligations.InverseLookupIsExact : Prop :=
  ∀ (a : Alphabet) (cs : CaseMode) (c : Byte) (v : Nat), DecodeCaseAllowed a cs →
    (inv a cs c = some v ↔ v < 2 ^ bitsPerSymbol a ∧
      (cs ≠ .lower ∧ fwd a .upper v = c ∨ cs ≠ .upper ∧ fwd a .lower v = c))

/-- R112, (a) to (e). -/
def Obligations.RomInvariants : Prop :=
  (∀ (a : Alphabet) (lc : LetterCase), EncodeCaseAllowed a lc →
    ∀ v < 2 ^ bitsPerSymbol a, ∀ w < 2 ^ bitsPerSymbol a, fwd a lc v = fwd a lc w → v = w) ∧
  (∀ a, ∀ v < 2 ^ bitsPerSymbol a, inv a .upper (fwd a .upper v) = some v) ∧
  (∀ a, EncodeCaseAllowed a .lower → ∀ v < 2 ^ bitsPerSymbol a, inv a .lower (fwd a .lower v) = some v) ∧
  (∀ (a : Alphabet) (cs : CaseMode) (c : Byte), c ∈ [0x3D, 0x20, 0x09, 0x0D, 0x0A] → inv a cs c = none) ∧
  (∀ a, EncodeCaseAllowed a .lower → ∀ v < 2 ^ bitsPerSymbol a,
    inv a .mixed (lowerByte (fwd a .upper v)) = some v ∧ inv a .mixed (fwd a .upper v) = some v)

/-- R171: padding is idempotent, reaches the next multiple of the group, and appends fewer than a group of pad bytes. -/
def Obligations.PadProperties : Prop :=
  ∀ (y : List Byte) (g : Nat) (c : Byte), 1 ≤ g →
    padSymbols (padSymbols y g c) g c = padSymbols y g c ∧
    (padSymbols y g c).length = g * ((y.length + g - 1) / g) ∧
    ∃ r < g, padSymbols y g c = y ++ List.replicate r c

/-- R173: the whitespace filter keeps exactly the other bytes, in order, each with its own index. -/
def Obligations.StripKeepsTheOtherBytes : Prop :=
  ∀ s : List Byte,
    (stripWhitespace s).map Symbol.byte = s.filter (fun c => decide (c ∉ ([0x20, 0x09, 0x0D, 0x0A] : List Byte))) ∧
    (∀ c ∈ stripWhitespace s, ∃ j, c.pos = some j ∧ s[j]? = some c.byte) ∧
    (stripWhitespace s).Pairwise fun c d => ∀ i j, c.pos = some i → d.pos = some j → i < j

/-! ## HOST accesses -/

/-- R54, with R53, R55 and R56: which accesses of an idle block get a bus error: all but the 32-bit aligned ones to the nine
registers and the aligned 8-, 16- and 32-bit ones inside one buffer. That an access of 0 bytes gets one is the model's reading (log entry 11). -/
def Obligations.BusErrorExactlyOutsideTheMap : Prop :=
  ∀ (s : State) (addr : Offset) (n : Nat), s.busy = false →
    ((hostRead s addr n).error = false ↔ (hostWriteResponse s addr n).error = false) ∧
    ((hostRead s addr n).error = false ↔
      (n = 4 ∧ addr.toNat % 4 = 0 ∧ addr.toNat < 0x24) ∨
      ((n = 1 ∨ n = 2 ∨ n = 4) ∧ addr.toNat % n = 0 ∧
        ((0x10000 ≤ addr.toNat ∧ addr.toNat + n ≤ 0x10000 + s.config.inBufBytes) ∨
          (0x40000 ≤ addr.toNat ∧ addr.toNat + n ≤ 0x40000 + s.config.outBufBytes))))

/-- R57: a bus error changes nothing of the block, returns data 0 and raises no interrupt. The queue, the delay and the
port's answer are the model's own fields (log entries 2, 4 and 7). The data beside a refused write's answer, of which R57 says
nothing, is left open here. -/
def Obligations.BusErrorsChangeNothing : Prop :=
  ∀ (s : State) (addr : Offset) (n : Nat) (v : Word),
    ((hostRead s addr n).error = true → (hostRead s addr n).data = 0) ∧
    ((hostWriteResponse s addr n).error = true → hostWrite s addr n v = s) ∧
    (∀ rest, HostMovesWith s (.read addr n) rest → (hostRead s addr n).error = true →
      step s = .next { s with hostQueue := rest, engineDelay := s.engineDelay - 1, busResp := ⟨true, 0⟩ }) ∧
    (∀ rest, HostMovesWith s (.write addr n v) rest → (hostWriteResponse s addr n).error = true →
      ∃ d, step s = .next { s with hostQueue := rest, engineDelay := s.engineDelay - 1, busResp := ⟨true, d⟩ })

/-- R58: a read changes nothing of the block; asked again, it answers the same. The queue it is taken from, the delay it
counts down and the port's answer are the model's own fields (log entries 2, 4 and 7). -/
def Obligations.ReadsHaveNoSideEffect : Prop :=
  ∀ (s : State) (addr : Offset) (n : Nat) (rest : List HostEvent), HostMovesWith s (.read addr n) rest →
    ∃ t, step s = .next t ∧
      t = { s with hostQueue := rest, engineDelay := s.engineDelay - 1, busResp := hostRead s addr n } ∧
      hostRead t addr n = hostRead s addr n

/-- R255: what a block with a command in flight refuses, and that every other access behaves as when idle; and what its
registers then read. -/
def Obligations.BusyBlockRefusesOperandAndOutputAccesses : Prop :=
  (∀ (s : State) (addr : Offset) (n : Nat) (v : Word), s.busy = true → s.config.Legal →
    ((addr.toNat < 4 ∨ (8 ≤ addr.toNat ∧ addr.toNat < 12) ∨
        (0x10000 ≤ addr.toNat ∧ addr.toNat < 0x10000 + s.config.inBufBytes)) →
      (hostWriteResponse s addr n).error = true ∧ hostWrite s addr n v = s) ∧
    (0x40000 ≤ addr.toNat →
      hostRead s addr n = ⟨true, 0⟩ ∧ (hostWriteResponse s addr n).error = true ∧ hostWrite s addr n v = s) ∧
    (addr.toNat < 0x40000 → (hostRead s addr n).error = (hostRead { s with busy := false } addr n).error ∧
      (addr.toNat ≠ 4 → hostRead s addr n = hostRead { s with busy := false } addr n)) ∧
    ((4 ≤ addr.toNat ∧ addr.toNat < 8) ∨ (12 ≤ addr.toNat ∧ addr.toNat < 0x10000) ∨
        (0x10000 + s.config.inBufBytes ≤ addr.toNat ∧ addr.toNat < 0x40000) →
      hostWriteResponse s addr n = hostWriteResponse { s with busy := false } addr n ∧
      hostWrite { s with busy := false } addr n v = { hostWrite s addr n v with busy := false })) ∧
  (∀ s : State, Inv s → s.busy = true →
    hostRead s 0x004 4 = ⟨false, 1⟩ ∧ hostRead s 0x00C 4 = ⟨false, 0⟩ ∧ hostRead s 0x010 4 = ⟨false, 0⟩ ∧
      hostRead s 0x014 4 = ⟨false, 0⟩)

/-- R24: an accepted CMD write, whole. How long the ENGINE then waits is a free value; the delay and the count are the
model's own fields (log entry 2). -/
def Obligations.AcceptedCmdWrite : Prop :=
  ∀ (s : State) (w : Word), s.busy = false →
    (hostWriteResponse s 0x000 4).error = false ∧
    ∃ d, hostWrite s 0x000 4 w =
      { s with
        cmd := w, busy := true, doneBit := false, errBit := false, errCode := 0, outLen := 0, errByte := 0, errPos := 0,
        latLen := s.inLen, engineDelay := d, cmdCount := s.cmdCount + 1 }

/-- R26: a write to STATUS clears DONE if bit 1 is written 1, and does nothing else; with a command in flight it does
nothing; DONE is 0 after an accepted CMD write and after reset; and ERR and ERRCODE change only on an accepted CMD write,
on the ENGINE step, or on reset. -/
def Obligations.StatusWritesAndWhoChangesErr : Prop :=
  (∀ (s : State) (v : Word), (hostWriteResponse s 0x004 4).error = false ∧
    (v.getLsbD 1 = true → hostWrite s 0x004 4 v = { s with doneBit := false }) ∧
    (v.getLsbD 1 = false → hostWrite s 0x004 4 v = s) ∧
    (Inv s → s.busy = true → hostWrite s 0x004 4 v = s) ∧
    (s.busy = false → (hostWrite s 0x000 4 v).doneBit = false) ∧ (performEvent s .rst).doneBit = false) ∧
  (∀ s t : State, step s = .next t → (t.errBit ≠ s.errBit ∨ t.errCode ≠ s.errCode) →
    EngineMoves s ∨ (s.busy = false ∧ ∃ v rest, s.hostQueue = .write 0x000 4 v :: rest) ∨
      ∃ rest, s.hostQueue = .rst :: rest)

/-- R23, R27, R32, R36, R31: who changes CMD, the latched length, IN_LEN, IRQ_EN and IN_BUF; the capacities never change. -/
def Obligations.OnlyTheseEventsChangeTheRegisters : Prop :=
  ∀ s t : State, step s = .next t →
    t.config = s.config ∧
    ((t.cmd ≠ s.cmd ∨ t.latLen ≠ s.latLen) →
      (s.busy = false ∧ ∃ v rest, s.hostQueue = .write 0x000 4 v :: rest) ∨ ∃ rest, s.hostQueue = .rst :: rest) ∧
    (t.inLen ≠ s.inLen →
      (s.busy = false ∧ ∃ v rest, s.hostQueue = .write 0x008 4 v :: rest) ∨ ∃ rest, s.hostQueue = .rst :: rest) ∧
    (t.irqEn ≠ s.irqEn → (∃ v rest, s.hostQueue = .write 0x020 4 v :: rest) ∨ ∃ rest, s.hostQueue = .rst :: rest) ∧
    (t.inBuf ≠ s.inBuf →
      (s.busy = false ∧ ∃ addr n v rest, s.hostQueue = .write addr n v :: rest ∧ 0x10000 ≤ addr.toNat ∧
        addr.toNat + n ≤ 0x10000 + s.config.inBufBytes) ∨ ∃ rest, s.hostQueue = .rst :: rest)

/-- R22, R27 to R30, R32: an idle block keeps any 17-bit IN_LEN written, without the reserved bits; IRQ_EN keeps bit 0, with
a command in flight too; and OUT_LEN, ERR_BYTE and ERR_POS ignore writes. -/
def Obligations.RegisterWritesKeepTheFieldBits : Prop :=
  ∀ (s : State) (v : Word),
    (s.busy = false → (hostWriteResponse s 0x008 4).error = false ∧
      hostWrite s 0x008 4 v = { s with inLen := v.extractLsb' 0 17 } ∧
      (hostRead (hostWrite s 0x008 4 v) 0x008 4).data.toNat = v.toNat % 2 ^ 17) ∧
    (hostWriteResponse s 0x020 4).error = false ∧ hostWrite s 0x020 4 v = { s with irqEn := v.getLsbD 0 } ∧
    (hostRead (hostWrite s 0x020 4 v) 0x020 4).data.toNat = v.toNat % 2 ∧
    (∀ addr : Offset, addr = 0x00C ∨ addr = 0x010 ∨ addr = 0x014 →
      (hostWriteResponse s addr 4).error = false ∧ hostWrite s addr 4 v = s)

/-- R31: IN_CAP and OUT_CAP read as the capacities in every state, writes to them are ignored, and no step changes the
capacities, a reset included. -/
def Obligations.CapacityRegisters : Prop :=
  ∀ (s : State) (v : Word),
    hostRead s 0x018 4 = ⟨false, BitVec.ofNat 32 s.config.inBufBytes⟩ ∧
    hostRead s 0x01C 4 = ⟨false, BitVec.ofNat 32 s.config.outBufBytes⟩ ∧
    (s.config.Legal → (hostRead s 0x018 4).data.toNat = s.config.inBufBytes ∧
      (hostRead s 0x01C 4).data.toNat = s.config.outBufBytes) ∧
    (hostWriteResponse s 0x018 4).error = false ∧ hostWrite s 0x018 4 v = s ∧
    (hostWriteResponse s 0x01C 4).error = false ∧ hostWrite s 0x01C 4 v = s ∧
    (∀ t, step s = .next t → t.config = s.config)

/-- R22, R23, R25, R27 to R30, R32: each register reads as laid out, its reserved bits 0. -/
def Obligations.RegistersReadAsLaidOut : Prop :=
  ∀ s : State,
    hostRead s 0x000 4 = ⟨false, s.cmd⟩ ∧
    ((hostRead s 0x004 4).error = false ∧ (hostRead s 0x004 4).data.toNat =
      s.busy.toNat + 2 * s.doneBit.toNat + 4 * s.errBit.toNat + 16 * s.errCode.toNat) ∧
    ((hostRead s 0x008 4).error = false ∧ (hostRead s 0x008 4).data.toNat = s.inLen.toNat) ∧
    ((hostRead s 0x00C 4).error = false ∧ (hostRead s 0x00C 4).data.toNat = s.outLen.toNat) ∧
    ((hostRead s 0x010 4).error = false ∧ (hostRead s 0x010 4).data.toNat = s.errByte.toNat) ∧
    ((hostRead s 0x014 4).error = false ∧ (hostRead s 0x014 4).data.toNat = s.errPos.toNat) ∧
    ((hostRead s 0x020 4).error = false ∧ (hostRead s 0x020 4).data.toNat = s.irqEn.toNat)

/-- R33: the interrupt output, its value after reset, and the three ways the HOST lowers it. -/
def Obligations.InterruptOutput : Prop :=
  (∀ c, irq (State.resetOf c) = false) ∧
  (∀ s : State, (irq s = true ↔ s.doneBit = true ∧ s.irqEn = true) ∧ irq (performEvent s .rst) = false) ∧
  (∀ (s : State) (v : Word), v.getLsbD 1 = true → irq (hostWrite s 0x004 4 v) = false) ∧
  (∀ (s : State) (v : Word), v.getLsbD 0 = false → irq (hostWrite s 0x020 4 v) = false) ∧
  (∀ (s : State) (v : Word), s.busy = false → irq (hostWrite s 0x000 4 v) = false)

/-- R51, R55: a permitted write to a buffer of an idle block stores the access's bytes, the lowest first, and nothing else;
a read of the same place then returns them. That the data bits above them read 0 is the model's reading (log entry 6). -/
def Obligations.BufferWriteThenRead : Prop :=
  ∀ (s : State) (addr : Offset) (n i : Nat) (v : Word), s.busy = false → s.config.Legal →
    (n = 1 ∨ n = 2 ∨ n = 4) → addr.toNat % n = 0 →
    (addr.toNat = 0x10000 + i → i + n ≤ s.config.inBufBytes →
      ∃ m, hostWrite s addr n v = { s with inBuf := m } ∧ (hostWriteResponse s addr n).error = false ∧
        (∀ j, readCell m j = if i ≤ j ∧ j < i + n then some (v.extractLsb' (8 * (j - i)) 8) else readCell s.inBuf j) ∧
        (hostRead { s with inBuf := m } addr n).error = false ∧
        (hostRead { s with inBuf := m } addr n).data.toNat = v.toNat % 2 ^ (8 * n)) ∧
    (addr.toNat = 0x40000 + i → i + n ≤ s.config.outBufBytes →
      ∃ m, hostWrite s addr n v = { s with outBuf := m } ∧ (hostWriteResponse s addr n).error = false ∧
        (∀ j, readCell m j = if i ≤ j ∧ j < i + n then some (v.extractLsb' (8 * (j - i)) 8) else readCell s.outBuf j) ∧
        (hostRead { s with outBuf := m } addr n).error = false ∧
        (hostRead { s with outBuf := m } addr n).data.toNat = v.toNat % 2 ^ (8 * n))

/-- R51, R55: an aligned read of 4, 2 or 1 bytes inside a buffer returns those bytes, the one at the lowest offset least
significant, whatever was written there and at whichever width: of IN_BUF always, of OUT_BUF with no command in flight.
That the data bits above a narrow read are 0 is the model's reading (log entry 6). -/
def Obligations.MixedWidthReadsSeeTheSameBytes : Prop :=
  ∀ (s : State) (addr : Offset) (base cap i : Nat) (byte : Nat → Byte), s.config.Legal →
    (base = 0x10000 ∧ cap = s.config.inBufBytes ∧ byte = inByte s ∨
      s.busy = false ∧ base = 0x40000 ∧ cap = s.config.outBufBytes ∧ byte = outByte s) →
    addr.toNat = base + i →
    (i % 4 = 0 → i + 4 ≤ cap →
      (hostRead s addr 4).error = false ∧ (hostRead s addr 4).data.toNat =
        (byte i).toNat + 2 ^ 8 * (byte (i + 1)).toNat + 2 ^ 16 * (byte (i + 2)).toNat + 2 ^ 24 * (byte (i + 3)).toNat) ∧
    (i % 2 = 0 → i + 2 ≤ cap →
      (hostRead s addr 2).error = false ∧
        (hostRead s addr 2).data.toNat = (byte i).toNat + 2 ^ 8 * (byte (i + 1)).toNat) ∧
    (i + 1 ≤ cap → (hostRead s addr 1).error = false ∧ (hostRead s addr 1).data.toNat = (byte i).toNat)

/-! ## Reset, idling and the order of events -/

/-- R250, R251, R252: right after reset, and after the `rst` input in any state, a command in flight or not, every register
is 0, no command is in flight, `irq` is 0, no buffer byte holds a value, and the capacities are as they were. -/
def Obligations.ResetState : Prop :=
  (∀ c, JustReset c (State.resetOf c)) ∧ JustReset State.reset.config State.reset ∧
  (∀ (s : State) (rest : List HostEvent), HostMovesWith s .rst rest →
    ∃ t, step s = .next t ∧ JustReset s.config t ∧ irq t = false)

/-- R61 (a), R14, R216: when the ENGINE does not move, a step performs the oldest HOST access and takes it off the queue;
`WAIT_DONE` stays at its head until DONE reads 1; and an idle block with no access to perform keeps all its state. That
the accesses stand in a queue, and that `rst` leaves the rest of it, are the model's choices (log entries 4, 8 and 13). -/
def Obligations.HostAccessesAreTakenInOrder : Prop :=
  (∀ s : State, s.busy = false → s.hostQueue = [] → step s = .next s) ∧
  (∀ (s : State) (addr : Offset) (n : Nat) (v : Word) (rest : List HostEvent),
    HostMovesWith s (.write addr n v) rest →
    ∃ t, step s = .next t ∧ t.hostQueue = rest ∧ t.busResp = hostWriteResponse s addr n ∧
      ∃ d, t = { hostWrite s addr n v with hostQueue := rest, engineDelay := d, busResp := t.busResp }) ∧
  (∀ (s : State) (rest : List HostEvent), HostMovesWith s .waitDone rest →
    ∃ t, step s = .next t ∧ t.busResp = hostRead s 0x004 4 ∧
      t.hostQueue = (if s.doneBit then rest else .waitDone :: rest) ∧
      t = { s with hostQueue := t.hostQueue, engineDelay := s.engineDelay - 1, busResp := t.busResp }) ∧
  (∀ (s : State) (rest : List HostEvent), HostMovesWith s .rst rest → ∃ t, step s = .next t ∧ t.hostQueue = rest)

/-- R61 (c), R63, R260: a command in flight is performed after finitely many HOST accesses, at most as many as it waits for
(counting the wait in HOST accesses is the model's choice, log entry 2), and until then its word, its length, its input and the output buffer stay as they are. -/
def Obligations.EngineStepComesWithFrozenOperands : Prop :=
  ∀ s : State, s.busy = true → (∀ ev ∈ s.hostQueue, ev ≠ .rst) →
    ∃ k ≤ s.engineDelay, ∃ t, Sys2Proof.core.run k s = .next t ∧ EngineMoves t ∧ t.cmd = s.cmd ∧ t.latLen = s.latLen ∧
      t.inBuf = s.inBuf ∧ t.inEpoch = s.inEpoch ∧ t.outBuf = s.outBuf ∧ t.outEpoch = s.outEpoch ∧ t.config = s.config

/-! ## The invariant -/

/-- R24, R25, R28 to R30, R250: the invariant holds after reset, for every legal choice of capacities, and placing a command
as the next one to run keeps it. What placing a command means, in a state with a command in flight too, is the model's
choice (log entry 4). -/
def Obligations.InvariantHoldsAtReset : Prop :=
  Inv State.reset ∧ (∀ c : Config, c.Legal → Inv (State.resetOf c)) ∧
  ∀ (s : State) (nbits w : Nat), Inv s → Inv (s.withFetchWord nbits w)

/-- R25, R28 to R30, R36, R37, R135, R157, R255: every step keeps the invariant. -/
def Obligations.StepKeepsTheInvariant : Prop :=
  ∀ s t : State, Inv s → step s = .next t → Inv t

/-- R11, R113, R131, R135: from a state with the invariant no run ever stops, whatever the HOST does. -/
def Obligations.NoRunEverStops : Prop :=
  ∀ s : State, Inv s → NeverStops s

/-- What the port carries beside the answer to a write: data 0, whether or not the write is permitted, and after a step that
performs one too. The spec gives data 0 to a read that gets a bus error (R57) and says nothing of a write: this is the
model's choice (log entry 7). -/
def Obligations.WriteAnswersCarryDataZero : Prop :=
  (∀ (s : State) (addr : Offset) (n : Nat), (hostWriteResponse s addr n).data = 0) ∧
  ∀ (s : State) (addr : Offset) (n : Nat) (v : Word) (rest : List HostEvent), HostMovesWith s (.write addr n v) rest →
    ∃ t, step s = .next t ∧ t.busResp.data = 0
end

