-- ==== Sys2Proof/Laws/State.lean ====
section
/-! SUPPORT. Each field of the state after each named update of the whole state: true by definition, so that no later proof
unfolds a record update. -/

namespace Sys2Proof.Machine

section
variable (s : State)

/-! ## The flags of an accepted CMD write (R24) -/

@[simp] theorem setStartFlags_cmd : (setStartFlags s).cmd = s.cmd := rfl
@[simp] theorem setStartFlags_latLen : (setStartFlags s).latLen = s.latLen := rfl
@[simp] theorem setStartFlags_busy : (setStartFlags s).busy = true := rfl
@[simp] theorem setStartFlags_doneBit : (setStartFlags s).doneBit = false := rfl
@[simp] theorem setStartFlags_errBit : (setStartFlags s).errBit = false := rfl
@[simp] theorem setStartFlags_errCode : (setStartFlags s).errCode = 0 := rfl
@[simp] theorem setStartFlags_inLen : (setStartFlags s).inLen = s.inLen := rfl
@[simp] theorem setStartFlags_outLen : (setStartFlags s).outLen = s.outLen := rfl
@[simp] theorem setStartFlags_errByte : (setStartFlags s).errByte = s.errByte := rfl
@[simp] theorem setStartFlags_errPos : (setStartFlags s).errPos = s.errPos := rfl
@[simp] theorem setStartFlags_irqEn : (setStartFlags s).irqEn = s.irqEn := rfl
@[simp] theorem setStartFlags_inBuf : (setStartFlags s).inBuf = s.inBuf := rfl
@[simp] theorem setStartFlags_outBuf : (setStartFlags s).outBuf = s.outBuf := rfl
@[simp] theorem setStartFlags_config : (setStartFlags s).config = s.config := rfl
@[simp] theorem setStartFlags_hostQueue : (setStartFlags s).hostQueue = s.hostQueue := rfl
@[simp] theorem setStartFlags_busResp : (setStartFlags s).busResp = s.busResp := rfl
@[simp] theorem setStartFlags_engineDelay : (setStartFlags s).engineDelay = s.engineDelay := rfl
@[simp] theorem setStartFlags_cmdCount : (setStartFlags s).cmdCount = s.cmdCount := rfl
@[simp] theorem setStartFlags_inEpoch : (setStartFlags s).inEpoch = s.inEpoch := rfl
@[simp] theorem setStartFlags_outEpoch : (setStartFlags s).outEpoch = s.outEpoch := rfl

/-! ## The flags of a success (R80) -/

@[simp] theorem setSuccessFlags_cmd : (setSuccessFlags s).cmd = s.cmd := rfl
@[simp] theorem setSuccessFlags_latLen : (setSuccessFlags s).latLen = s.latLen := rfl
@[simp] theorem setSuccessFlags_busy : (setSuccessFlags s).busy = false := rfl
@[simp] theorem setSuccessFlags_doneBit : (setSuccessFlags s).doneBit = true := rfl
@[simp] theorem setSuccessFlags_errBit : (setSuccessFlags s).errBit = false := rfl
@[simp] theorem setSuccessFlags_errCode : (setSuccessFlags s).errCode = 0 := rfl
@[simp] theorem setSuccessFlags_inLen : (setSuccessFlags s).inLen = s.inLen := rfl
@[simp] theorem setSuccessFlags_outLen : (setSuccessFlags s).outLen = s.outLen := rfl
@[simp] theorem setSuccessFlags_errByte : (setSuccessFlags s).errByte = s.errByte := rfl
@[simp] theorem setSuccessFlags_errPos : (setSuccessFlags s).errPos = s.errPos := rfl
@[simp] theorem setSuccessFlags_irqEn : (setSuccessFlags s).irqEn = s.irqEn := rfl
@[simp] theorem setSuccessFlags_inBuf : (setSuccessFlags s).inBuf = s.inBuf := rfl
@[simp] theorem setSuccessFlags_outBuf : (setSuccessFlags s).outBuf = s.outBuf := rfl
@[simp] theorem setSuccessFlags_config : (setSuccessFlags s).config = s.config := rfl
@[simp] theorem setSuccessFlags_hostQueue : (setSuccessFlags s).hostQueue = s.hostQueue := rfl
@[simp] theorem setSuccessFlags_busResp : (setSuccessFlags s).busResp = s.busResp := rfl
@[simp] theorem setSuccessFlags_engineDelay : (setSuccessFlags s).engineDelay = s.engineDelay := rfl
@[simp] theorem setSuccessFlags_cmdCount : (setSuccessFlags s).cmdCount = s.cmdCount := rfl
@[simp] theorem setSuccessFlags_inEpoch : (setSuccessFlags s).inEpoch = s.inEpoch := rfl
@[simp] theorem setSuccessFlags_outEpoch : (setSuccessFlags s).outEpoch = s.outEpoch := rfl

/-! ## The flags of an error (R204) -/

@[simp] theorem setErrorFlags_cmd (c : ErrCode) : (setErrorFlags c s).cmd = s.cmd := rfl
@[simp] theorem setErrorFlags_latLen (c : ErrCode) : (setErrorFlags c s).latLen = s.latLen := rfl
@[simp] theorem setErrorFlags_busy (c : ErrCode) : (setErrorFlags c s).busy = false := rfl
@[simp] theorem setErrorFlags_doneBit (c : ErrCode) : (setErrorFlags c s).doneBit = true := rfl
@[simp] theorem setErrorFlags_errBit (c : ErrCode) : (setErrorFlags c s).errBit = true := rfl
@[simp] theorem setErrorFlags_errCode (c : ErrCode) : (setErrorFlags c s).errCode = errNumber c := rfl
@[simp] theorem setErrorFlags_inLen (c : ErrCode) : (setErrorFlags c s).inLen = s.inLen := rfl
@[simp] theorem setErrorFlags_outLen (c : ErrCode) : (setErrorFlags c s).outLen = s.outLen := rfl
@[simp] theorem setErrorFlags_errByte (c : ErrCode) : (setErrorFlags c s).errByte = s.errByte := rfl
@[simp] theorem setErrorFlags_errPos (c : ErrCode) : (setErrorFlags c s).errPos = s.errPos := rfl
@[simp] theorem setErrorFlags_irqEn (c : ErrCode) : (setErrorFlags c s).irqEn = s.irqEn := rfl
@[simp] theorem setErrorFlags_inBuf (c : ErrCode) : (setErrorFlags c s).inBuf = s.inBuf := rfl
@[simp] theorem setErrorFlags_outBuf (c : ErrCode) : (setErrorFlags c s).outBuf = s.outBuf := rfl
@[simp] theorem setErrorFlags_config (c : ErrCode) : (setErrorFlags c s).config = s.config := rfl
@[simp] theorem setErrorFlags_hostQueue (c : ErrCode) : (setErrorFlags c s).hostQueue = s.hostQueue := rfl
@[simp] theorem setErrorFlags_busResp (c : ErrCode) : (setErrorFlags c s).busResp = s.busResp := rfl
@[simp] theorem setErrorFlags_engineDelay (c : ErrCode) : (setErrorFlags c s).engineDelay = s.engineDelay := rfl
@[simp] theorem setErrorFlags_cmdCount (c : ErrCode) : (setErrorFlags c s).cmdCount = s.cmdCount := rfl
@[simp] theorem setErrorFlags_inEpoch (c : ErrCode) : (setErrorFlags c s).inEpoch = s.inEpoch := rfl
@[simp] theorem setErrorFlags_outEpoch (c : ErrCode) : (setErrorFlags c s).outEpoch = s.outEpoch := rfl

/-! ## An accepted CMD write (R24) -/

@[simp] theorem acceptCommand_cmd (w : Word) : (acceptCommand w s).cmd = w := rfl
@[simp] theorem acceptCommand_latLen (w : Word) : (acceptCommand w s).latLen = s.inLen := rfl
@[simp] theorem acceptCommand_busy (w : Word) : (acceptCommand w s).busy = true := rfl
@[simp] theorem acceptCommand_doneBit (w : Word) : (acceptCommand w s).doneBit = false := rfl
@[simp] theorem acceptCommand_errBit (w : Word) : (acceptCommand w s).errBit = false := rfl
@[simp] theorem acceptCommand_errCode (w : Word) : (acceptCommand w s).errCode = 0 := rfl
@[simp] theorem acceptCommand_inLen (w : Word) : (acceptCommand w s).inLen = s.inLen := rfl
@[simp] theorem acceptCommand_outLen (w : Word) : (acceptCommand w s).outLen = 0 := rfl
@[simp] theorem acceptCommand_errByte (w : Word) : (acceptCommand w s).errByte = 0 := rfl
@[simp] theorem acceptCommand_errPos (w : Word) : (acceptCommand w s).errPos = 0 := rfl
@[simp] theorem acceptCommand_irqEn (w : Word) : (acceptCommand w s).irqEn = s.irqEn := rfl
@[simp] theorem acceptCommand_inBuf (w : Word) : (acceptCommand w s).inBuf = s.inBuf := rfl
@[simp] theorem acceptCommand_outBuf (w : Word) : (acceptCommand w s).outBuf = s.outBuf := rfl
@[simp] theorem acceptCommand_config (w : Word) : (acceptCommand w s).config = s.config := rfl
@[simp] theorem acceptCommand_hostQueue (w : Word) : (acceptCommand w s).hostQueue = s.hostQueue := rfl
@[simp] theorem acceptCommand_busResp (w : Word) : (acceptCommand w s).busResp = s.busResp := rfl
@[simp] theorem acceptCommand_engineDelay (w : Word) : (acceptCommand w s).engineDelay = Config.engineDelay s.cmdCount w s.inLen := rfl
@[simp] theorem acceptCommand_cmdCount (w : Word) : (acceptCommand w s).cmdCount = s.cmdCount + 1 := rfl
@[simp] theorem acceptCommand_inEpoch (w : Word) : (acceptCommand w s).inEpoch = s.inEpoch := rfl
@[simp] theorem acceptCommand_outEpoch (w : Word) : (acceptCommand w s).outEpoch = s.outEpoch := rfl

/-! ## Completion with success (R80) -/

@[simp] theorem completeOk_cmd (y : List Byte) : (completeOk y s).cmd = s.cmd := rfl
@[simp] theorem completeOk_latLen (y : List Byte) : (completeOk y s).latLen = s.latLen := rfl
@[simp] theorem completeOk_busy (y : List Byte) : (completeOk y s).busy = false := rfl
@[simp] theorem completeOk_doneBit (y : List Byte) : (completeOk y s).doneBit = true := rfl
@[simp] theorem completeOk_errBit (y : List Byte) : (completeOk y s).errBit = false := rfl
@[simp] theorem completeOk_errCode (y : List Byte) : (completeOk y s).errCode = 0 := rfl
@[simp] theorem completeOk_inLen (y : List Byte) : (completeOk y s).inLen = s.inLen := rfl
@[simp] theorem completeOk_outLen (y : List Byte) : (completeOk y s).outLen = BitVec.ofNat 18 y.length := rfl
@[simp] theorem completeOk_errByte (y : List Byte) : (completeOk y s).errByte = 0 := rfl
@[simp] theorem completeOk_errPos (y : List Byte) : (completeOk y s).errPos = 0 := rfl
@[simp] theorem completeOk_irqEn (y : List Byte) : (completeOk y s).irqEn = s.irqEn := rfl
@[simp] theorem completeOk_inBuf (y : List Byte) : (completeOk y s).inBuf = s.inBuf := rfl
@[simp] theorem completeOk_outBuf (y : List Byte) : (completeOk y s).outBuf = writeCells s.outBuf 0 y := rfl
@[simp] theorem completeOk_config (y : List Byte) : (completeOk y s).config = s.config := rfl
@[simp] theorem completeOk_hostQueue (y : List Byte) : (completeOk y s).hostQueue = s.hostQueue := rfl
@[simp] theorem completeOk_busResp (y : List Byte) : (completeOk y s).busResp = s.busResp := rfl
@[simp] theorem completeOk_engineDelay (y : List Byte) : (completeOk y s).engineDelay = s.engineDelay := rfl
@[simp] theorem completeOk_cmdCount (y : List Byte) : (completeOk y s).cmdCount = s.cmdCount := rfl
@[simp] theorem completeOk_inEpoch (y : List Byte) : (completeOk y s).inEpoch = s.inEpoch := rfl
@[simp] theorem completeOk_outEpoch (y : List Byte) : (completeOk y s).outEpoch = s.outEpoch := rfl

/-! ## Completion with an error (R204) -/

@[simp] theorem takeError_cmd (c : ErrCode) (b : Byte) (p : Nat) : (takeError c b p s).cmd = s.cmd := rfl
@[simp] theorem takeError_latLen (c : ErrCode) (b : Byte) (p : Nat) : (takeError c b p s).latLen = s.latLen := rfl
@[simp] theorem takeError_busy (c : ErrCode) (b : Byte) (p : Nat) : (takeError c b p s).busy = false := rfl
@[simp] theorem takeError_doneBit (c : ErrCode) (b : Byte) (p : Nat) : (takeError c b p s).doneBit = true := rfl
@[simp] theorem takeError_errBit (c : ErrCode) (b : Byte) (p : Nat) : (takeError c b p s).errBit = true := rfl
@[simp] theorem takeError_errCode (c : ErrCode) (b : Byte) (p : Nat) : (takeError c b p s).errCode = errNumber c := rfl
@[simp] theorem takeError_inLen (c : ErrCode) (b : Byte) (p : Nat) : (takeError c b p s).inLen = s.inLen := rfl
@[simp] theorem takeError_outLen (c : ErrCode) (b : Byte) (p : Nat) : (takeError c b p s).outLen = 0 := rfl
@[simp] theorem takeError_errByte (c : ErrCode) (b : Byte) (p : Nat) : (takeError c b p s).errByte = b := rfl
@[simp] theorem takeError_errPos (c : ErrCode) (b : Byte) (p : Nat) : (takeError c b p s).errPos = BitVec.ofNat 17 p := rfl
@[simp] theorem takeError_irqEn (c : ErrCode) (b : Byte) (p : Nat) : (takeError c b p s).irqEn = s.irqEn := rfl
@[simp] theorem takeError_inBuf (c : ErrCode) (b : Byte) (p : Nat) : (takeError c b p s).inBuf = s.inBuf := rfl
@[simp] theorem takeError_outBuf (c : ErrCode) (b : Byte) (p : Nat) : (takeError c b p s).outBuf = [] := rfl
@[simp] theorem takeError_config (c : ErrCode) (b : Byte) (p : Nat) : (takeError c b p s).config = s.config := rfl
@[simp] theorem takeError_hostQueue (c : ErrCode) (b : Byte) (p : Nat) : (takeError c b p s).hostQueue = s.hostQueue := rfl
@[simp] theorem takeError_busResp (c : ErrCode) (b : Byte) (p : Nat) : (takeError c b p s).busResp = s.busResp := rfl
@[simp] theorem takeError_engineDelay (c : ErrCode) (b : Byte) (p : Nat) : (takeError c b p s).engineDelay = s.engineDelay := rfl
@[simp] theorem takeError_cmdCount (c : ErrCode) (b : Byte) (p : Nat) : (takeError c b p s).cmdCount = s.cmdCount := rfl
@[simp] theorem takeError_inEpoch (c : ErrCode) (b : Byte) (p : Nat) : (takeError c b p s).inEpoch = s.inEpoch := rfl
@[simp] theorem takeError_outEpoch (c : ErrCode) (b : Byte) (p : Nat) : (takeError c b p s).outEpoch = s.outEpoch + 1 := rfl

/-! ## The W1C write of STATUS (R26) -/

@[simp] theorem acknowledge_cmd : (acknowledge s).cmd = s.cmd := rfl
@[simp] theorem acknowledge_latLen : (acknowledge s).latLen = s.latLen := rfl
@[simp] theorem acknowledge_busy : (acknowledge s).busy = s.busy := rfl
@[simp] theorem acknowledge_doneBit : (acknowledge s).doneBit = false := rfl
@[simp] theorem acknowledge_errBit : (acknowledge s).errBit = s.errBit := rfl
@[simp] theorem acknowledge_errCode : (acknowledge s).errCode = s.errCode := rfl
@[simp] theorem acknowledge_inLen : (acknowledge s).inLen = s.inLen := rfl
@[simp] theorem acknowledge_outLen : (acknowledge s).outLen = s.outLen := rfl
@[simp] theorem acknowledge_errByte : (acknowledge s).errByte = s.errByte := rfl
@[simp] theorem acknowledge_errPos : (acknowledge s).errPos = s.errPos := rfl
@[simp] theorem acknowledge_irqEn : (acknowledge s).irqEn = s.irqEn := rfl
@[simp] theorem acknowledge_inBuf : (acknowledge s).inBuf = s.inBuf := rfl
@[simp] theorem acknowledge_outBuf : (acknowledge s).outBuf = s.outBuf := rfl
@[simp] theorem acknowledge_config : (acknowledge s).config = s.config := rfl
@[simp] theorem acknowledge_hostQueue : (acknowledge s).hostQueue = s.hostQueue := rfl
@[simp] theorem acknowledge_busResp : (acknowledge s).busResp = s.busResp := rfl
@[simp] theorem acknowledge_engineDelay : (acknowledge s).engineDelay = s.engineDelay := rfl
@[simp] theorem acknowledge_cmdCount : (acknowledge s).cmdCount = s.cmdCount := rfl
@[simp] theorem acknowledge_inEpoch : (acknowledge s).inEpoch = s.inEpoch := rfl
@[simp] theorem acknowledge_outEpoch : (acknowledge s).outEpoch = s.outEpoch := rfl

/-! ## Reset (R250) -/

@[simp] theorem applyReset_cmd : (applyReset s).cmd = 0 := rfl
@[simp] theorem applyReset_latLen : (applyReset s).latLen = 0 := rfl
@[simp] theorem applyReset_busy : (applyReset s).busy = false := rfl
@[simp] theorem applyReset_doneBit : (applyReset s).doneBit = false := rfl
@[simp] theorem applyReset_errBit : (applyReset s).errBit = false := rfl
@[simp] theorem applyReset_errCode : (applyReset s).errCode = 0 := rfl
@[simp] theorem applyReset_inLen : (applyReset s).inLen = 0 := rfl
@[simp] theorem applyReset_outLen : (applyReset s).outLen = 0 := rfl
@[simp] theorem applyReset_errByte : (applyReset s).errByte = 0 := rfl
@[simp] theorem applyReset_errPos : (applyReset s).errPos = 0 := rfl
@[simp] theorem applyReset_irqEn : (applyReset s).irqEn = false := rfl
@[simp] theorem applyReset_inBuf : (applyReset s).inBuf = [] := rfl
@[simp] theorem applyReset_outBuf : (applyReset s).outBuf = [] := rfl
@[simp] theorem applyReset_config : (applyReset s).config = s.config := rfl
@[simp] theorem applyReset_hostQueue : (applyReset s).hostQueue = s.hostQueue := rfl
@[simp] theorem applyReset_busResp : (applyReset s).busResp = ⟨false, 0⟩ := rfl
@[simp] theorem applyReset_engineDelay : (applyReset s).engineDelay = 0 := rfl
@[simp] theorem applyReset_cmdCount : (applyReset s).cmdCount = s.cmdCount := rfl
@[simp] theorem applyReset_inEpoch : (applyReset s).inEpoch = s.inEpoch + 1 := rfl
@[simp] theorem applyReset_outEpoch : (applyReset s).outEpoch = s.outEpoch + 1 := rfl

/-! ## One HOST event taken off the queue (R61) -/

@[simp] theorem dequeueEvent_cmd (rest : List HostEvent) : (dequeueEvent s rest).cmd = s.cmd := rfl
@[simp] theorem dequeueEvent_latLen (rest : List HostEvent) : (dequeueEvent s rest).latLen = s.latLen := rfl
@[simp] theorem dequeueEvent_busy (rest : List HostEvent) : (dequeueEvent s rest).busy = s.busy := rfl
@[simp] theorem dequeueEvent_doneBit (rest : List HostEvent) : (dequeueEvent s rest).doneBit = s.doneBit := rfl
@[simp] theorem dequeueEvent_errBit (rest : List HostEvent) : (dequeueEvent s rest).errBit = s.errBit := rfl
@[simp] theorem dequeueEvent_errCode (rest : List HostEvent) : (dequeueEvent s rest).errCode = s.errCode := rfl
@[simp] theorem dequeueEvent_inLen (rest : List HostEvent) : (dequeueEvent s rest).inLen = s.inLen := rfl
@[simp] theorem dequeueEvent_outLen (rest : List HostEvent) : (dequeueEvent s rest).outLen = s.outLen := rfl
@[simp] theorem dequeueEvent_errByte (rest : List HostEvent) : (dequeueEvent s rest).errByte = s.errByte := rfl
@[simp] theorem dequeueEvent_errPos (rest : List HostEvent) : (dequeueEvent s rest).errPos = s.errPos := rfl
@[simp] theorem dequeueEvent_irqEn (rest : List HostEvent) : (dequeueEvent s rest).irqEn = s.irqEn := rfl
@[simp] theorem dequeueEvent_inBuf (rest : List HostEvent) : (dequeueEvent s rest).inBuf = s.inBuf := rfl
@[simp] theorem dequeueEvent_outBuf (rest : List HostEvent) : (dequeueEvent s rest).outBuf = s.outBuf := rfl
@[simp] theorem dequeueEvent_config (rest : List HostEvent) : (dequeueEvent s rest).config = s.config := rfl
@[simp] theorem dequeueEvent_hostQueue (rest : List HostEvent) : (dequeueEvent s rest).hostQueue = rest := rfl
@[simp] theorem dequeueEvent_busResp (rest : List HostEvent) : (dequeueEvent s rest).busResp = s.busResp := rfl
@[simp] theorem dequeueEvent_engineDelay (rest : List HostEvent) : (dequeueEvent s rest).engineDelay = s.engineDelay - 1 := rfl
@[simp] theorem dequeueEvent_cmdCount (rest : List HostEvent) : (dequeueEvent s rest).cmdCount = s.cmdCount := rfl
@[simp] theorem dequeueEvent_inEpoch (rest : List HostEvent) : (dequeueEvent s rest).inEpoch = s.inEpoch := rfl
@[simp] theorem dequeueEvent_outEpoch (rest : List HostEvent) : (dequeueEvent s rest).outEpoch = s.outEpoch := rfl

/-! ## A command placed as the next instruction -/

@[simp] theorem withFetchWord_cmd (nbits w : Nat) : (s.withFetchWord nbits w).cmd = BitVec.ofNat 32 (w % 2 ^ nbits) := rfl
@[simp] theorem withFetchWord_latLen (nbits w : Nat) : (s.withFetchWord nbits w).latLen = s.inLen := rfl
@[simp] theorem withFetchWord_busy (nbits w : Nat) : (s.withFetchWord nbits w).busy = true := rfl
@[simp] theorem withFetchWord_doneBit (nbits w : Nat) : (s.withFetchWord nbits w).doneBit = false := rfl
@[simp] theorem withFetchWord_errBit (nbits w : Nat) : (s.withFetchWord nbits w).errBit = false := rfl
@[simp] theorem withFetchWord_errCode (nbits w : Nat) : (s.withFetchWord nbits w).errCode = 0 := rfl
@[simp] theorem withFetchWord_inLen (nbits w : Nat) : (s.withFetchWord nbits w).inLen = s.inLen := rfl
@[simp] theorem withFetchWord_outLen (nbits w : Nat) : (s.withFetchWord nbits w).outLen = 0 := rfl
@[simp] theorem withFetchWord_errByte (nbits w : Nat) : (s.withFetchWord nbits w).errByte = 0 := rfl
@[simp] theorem withFetchWord_errPos (nbits w : Nat) : (s.withFetchWord nbits w).errPos = 0 := rfl
@[simp] theorem withFetchWord_irqEn (nbits w : Nat) : (s.withFetchWord nbits w).irqEn = s.irqEn := rfl
@[simp] theorem withFetchWord_inBuf (nbits w : Nat) : (s.withFetchWord nbits w).inBuf = s.inBuf := rfl
@[simp] theorem withFetchWord_outBuf (nbits w : Nat) : (s.withFetchWord nbits w).outBuf = s.outBuf := rfl
@[simp] theorem withFetchWord_config (nbits w : Nat) : (s.withFetchWord nbits w).config = s.config := rfl
@[simp] theorem withFetchWord_hostQueue (nbits w : Nat) : (s.withFetchWord nbits w).hostQueue = s.hostQueue := rfl
@[simp] theorem withFetchWord_busResp (nbits w : Nat) : (s.withFetchWord nbits w).busResp = s.busResp := rfl
@[simp] theorem withFetchWord_engineDelay (nbits w : Nat) : (s.withFetchWord nbits w).engineDelay = 0 := rfl
@[simp] theorem withFetchWord_cmdCount (nbits w : Nat) : (s.withFetchWord nbits w).cmdCount = s.cmdCount + 1 := rfl
@[simp] theorem withFetchWord_inEpoch (nbits w : Nat) : (s.withFetchWord nbits w).inEpoch = s.inEpoch := rfl
@[simp] theorem withFetchWord_outEpoch (nbits w : Nat) : (s.withFetchWord nbits w).outEpoch = s.outEpoch := rfl

/-! ## Reset state (R250) -/

section
variable (c : Config)

@[simp] theorem resetOf_cmd : (State.resetOf c).cmd = 0 := rfl
@[simp] theorem resetOf_latLen : (State.resetOf c).latLen = 0 := rfl
@[simp] theorem resetOf_busy : (State.resetOf c).busy = false := rfl
@[simp] theorem resetOf_doneBit : (State.resetOf c).doneBit = false := rfl
@[simp] theorem resetOf_errBit : (State.resetOf c).errBit = false := rfl
@[simp] theorem resetOf_errCode : (State.resetOf c).errCode = 0 := rfl
@[simp] theorem resetOf_inLen : (State.resetOf c).inLen = 0 := rfl
@[simp] theorem resetOf_outLen : (State.resetOf c).outLen = 0 := rfl
@[simp] theorem resetOf_errByte : (State.resetOf c).errByte = 0 := rfl
@[simp] theorem resetOf_errPos : (State.resetOf c).errPos = 0 := rfl
@[simp] theorem resetOf_irqEn : (State.resetOf c).irqEn = false := rfl
@[simp] theorem resetOf_inBuf : (State.resetOf c).inBuf = [] := rfl
@[simp] theorem resetOf_outBuf : (State.resetOf c).outBuf = [] := rfl
@[simp] theorem resetOf_config : (State.resetOf c).config = c := rfl
@[simp] theorem resetOf_hostQueue : (State.resetOf c).hostQueue = [] := rfl
@[simp] theorem resetOf_busResp : (State.resetOf c).busResp = ⟨false, 0⟩ := rfl
@[simp] theorem resetOf_engineDelay : (State.resetOf c).engineDelay = 0 := rfl
@[simp] theorem resetOf_cmdCount : (State.resetOf c).cmdCount = 0 := rfl
@[simp] theorem resetOf_inEpoch : (State.resetOf c).inEpoch = 0 := rfl
@[simp] theorem resetOf_outEpoch : (State.resetOf c).outEpoch = 0 := rfl

end
end

end Sys2Proof.Machine
end

