-- ==== Sys2Proof/Laws/Memory.lean ====
section
/-! SUPPORT. The buffers as lists of cells: what a read gives after a write, and that every memory operation keeps the
canonical form and the capacity. -/

namespace Sys2Proof.Machine

theorem readCell_writeCell (m : Memory) (i j : Nat) (b : Byte) :
    readCell (writeCell m i b) j = if j = i then some b else readCell m j := by
  induction m with
  | nil => simp [writeCell, readCell, eq_comm]
  | cons x rest ih =>
    obtain ⟨a, c⟩ := x
    unfold writeCell
    split
    · simp [readCell, eq_comm]
    · split
      · subst_vars
        by_cases h : j = a
        · simp [readCell, h]
        · simp [readCell, h, Ne.symm h]
      · rename_i h1 h2
        by_cases h : a = j
        · subst h
          simp [readCell, Ne.symm h2]
        · simp [readCell, h, ih]

/-- A read after a run of stores gives the stored byte inside the run and the old contents outside it. -/
theorem readCell_writeCells (m : Memory) (i j : Nat) (bs : List Byte) :
    readCell (writeCells m i bs) j =
      if h : i ≤ j ∧ j - i < bs.length then some (bs[j - i]'h.2) else readCell m j := by
  induction bs generalizing m i with
  | nil => simp [writeCells]
  | cons b rest ih =>
    rw [writeCells, ih, readCell_writeCell]
    by_cases hj : j = i
    · subst hj
      simp
    · by_cases hlt : i ≤ j
      · have hsub : j - i = (j - (i + 1)) + 1 := by omega
        by_cases hin : j - (i + 1) < rest.length
        · have h1 : i + 1 ≤ j ∧ j - (i + 1) < rest.length := ⟨by omega, hin⟩
          have h2 : i ≤ j ∧ j - i < (b :: rest).length := ⟨hlt, by simp; omega⟩
          rw [dif_pos h1, dif_pos h2]
          simp [hsub]
        · have h1 : ¬(i + 1 ≤ j ∧ j - (i + 1) < rest.length) := fun h => hin h.2
          have h2 : ¬(i ≤ j ∧ j - i < (b :: rest).length) := fun h => hin (by simp at h; omega)
          rw [dif_neg h1, dif_neg h2, if_neg hj]
      · have h1 : ¬(i + 1 ≤ j ∧ j - (i + 1) < rest.length) := fun h => hlt (by omega)
        have h2 : ¬(i ≤ j ∧ j - i < (b :: rest).length) := fun h => hlt h.1
        rw [dif_neg h1, dif_neg h2, if_neg hj]

theorem mem_writeCell {m : Memory} {i : Nat} {b : Byte} {x : Host.Cell} (h : x ∈ writeCell m i b) :
    x = (i, b) ∨ x ∈ m := by
  induction m with
  | nil => simpa [writeCell] using h
  | cons y rest ih =>
    obtain ⟨a, c⟩ := y
    unfold writeCell at h
    split at h
    · simpa using h
    · split at h
      · simp only [List.mem_cons] at h ⊢
        tauto
      · simp only [List.mem_cons] at h ⊢
        rcases h with h | h
        · exact .inr (.inl h)
        · exact (ih h).imp_right .inr

/-- A store keeps the canonical form. -/
theorem writeCell_wf {m : Memory} (h : Memory.wf m) (i : Nat) (b : Byte) : Memory.wf (writeCell m i b) := by
  induction m with
  | nil => simp [writeCell, Memory.wf]
  | cons y rest ih =>
    obtain ⟨a, c⟩ := y
    simp only [Memory.wf, List.pairwise_cons] at h
    unfold writeCell
    split
    · rename_i hlt
      simp only [Memory.wf, List.pairwise_cons, List.mem_cons]
      refine ⟨fun x hx => ?_, h.1, h.2⟩
      rcases hx with rfl | hx
      · exact hlt
      · exact lt_trans hlt (h.1 x hx)
    · split
      · rename_i heq
        subst heq
        exact List.pairwise_cons.2 ⟨h.1, h.2⟩
      · rename_i h1 h2
        refine List.pairwise_cons.2 ⟨fun x hx => ?_, ih h.2⟩
        rcases mem_writeCell hx with rfl | hx
        · simp only
          omega
        · exact h.1 x hx

theorem writeCells_wf {m : Memory} (h : Memory.wf m) (i : Nat) (bs : List Byte) : Memory.wf (writeCells m i bs) := by
  induction bs generalizing m i with
  | nil => exact h
  | cons b rest ih => exact ih (writeCell_wf h i b) (i + 1)

/-- A run of stores that ends inside the capacity keeps every entry inside it. -/
theorem writeCells_within {m : Memory} {cap : Nat} (h : Memory.within m cap) (i : Nat) (bs : List Byte)
    (hb : i + bs.length ≤ cap) : Memory.within (writeCells m i bs) cap := by
  induction bs generalizing m i with
  | nil => exact h
  | cons b rest ih =>
    simp only [List.length_cons] at hb
    refine ih (fun x hx => ?_) (i + 1) (by omega)
    rcases mem_writeCell hx with rfl | hx
    · simp only
      omega
    · exact h x hx

theorem clearCells_wf : Memory.wf clearCells := List.Pairwise.nil

theorem clearCells_within (cap : Nat) : Memory.within clearCells cap := by simp [clearCells, Memory.within]

@[simp] theorem readCell_clearCells (i : Nat) : readCell clearCells i = none := rfl

@[simp] theorem readCell_nil (i : Nat) : readCell [] i = none := rfl

theorem reset_memory_wf (c : Config) : Memory.wf (State.resetOf c).inBuf ∧ Memory.wf (State.resetOf c).outBuf :=
  ⟨List.Pairwise.nil, List.Pairwise.nil⟩

/-- In canonical form an entry is what a read of its index gives. -/
theorem readCell_of_mem {m : Memory} (h : Memory.wf m) {i : Nat} {b : Byte} (hm : (i, b) ∈ m) : readCell m i = some b := by
  induction m with
  | nil => simp at hm
  | cons y rest ih =>
    obtain ⟨a, c⟩ := y
    simp only [Memory.wf, List.pairwise_cons] at h
    rcases List.mem_cons.1 hm with heq | hrest
    · obtain ⟨rfl, rfl⟩ := Prod.mk.inj heq
      simp [readCell]
    · have := h.1 _ hrest
      simp only at this
      have hne : a ≠ i := by omega
      simp [readCell, hne, ih h.2 hrest]

/-- Nothing is held outside the capacity. -/
theorem readCell_eq_none_of_within {m : Memory} {cap : Nat} (h : Memory.within m cap) {i : Nat} (hi : cap ≤ i) :
    readCell m i = none := by
  induction m with
  | nil => rfl
  | cons y rest ih =>
    obtain ⟨a, c⟩ := y
    have ha : a < cap := h (a, c) (by simp)
    have hne : a ≠ i := by omega
    simp only [readCell, hne, if_false]
    exact ih fun x hx => h x (by simp [hx])

@[simp] theorem length_dataBytes (v : Word) (n : Nat) : (dataBytes v n).length = n := by simp [dataBytes]

@[simp] theorem length_inputBytes (s : State) : (inputBytes s).length = s.latLen.toNat := by simp [inputBytes]

theorem getElem_inputBytes (s : State) (i : Nat) (h : i < (inputBytes s).length) : (inputBytes s)[i] = inByte s i := by
  simp [inputBytes]

/-- The input depends on the latched length and the bytes of IN_BUF alone. -/
theorem inputBytes_congr {s t : State} (hl : t.latLen = s.latLen) (hb : ∀ i < s.latLen.toNat, inByte t i = inByte s i) :
    inputBytes t = inputBytes s := by
  unfold inputBytes
  rw [hl]
  exact List.map_congr_left fun i hi => hb i (List.mem_range.1 hi)

end Sys2Proof.Machine
end

