-- ==== Sys2Proof/Laws/Rom.lean ====
section
/-! SUPPORT. The alphabet ROM and the constants of R6: sizes, and the range of the inverse lookup. -/

namespace Sys2Proof.Machine

theorem length_fwdTable (a : Alphabet) (lc : LetterCase) : (fwdTable a lc).length = 2 ^ bitsPerSymbol a := by
  cases a <;> cases lc <;> rfl

/-- A group holds as many bits in bytes as in symbols (R6). -/
theorem symbols_mul_bits (a : Alphabet) : symbolsPerGroup a * bitsPerSymbol a = 8 * bytesPerGroup a := by
  cases a <;> rfl

theorem bytesPerGroup_pos (a : Alphabet) : 0 < bytesPerGroup a := by cases a <;> decide

theorem symbolsPerGroup_pos (a : Alphabet) : 0 < symbolsPerGroup a := by cases a <;> decide

theorem bitsPerSymbol_eq_four (a : Alphabet) : bitsPerSymbol a = 4 ↔ a = .hex := by cases a <;> decide

theorem invLetter_eq_some {a : Alphabet} {lc : LetterCase} {c : Byte} {v : Nat} (h : invLetter a lc c = some v) :
    v < 2 ^ bitsPerSymbol a ∧ fwd a lc v = c := by
  unfold invLetter at h
  rw [List.findIdx?_eq_some_iff_getElem] at h
  obtain ⟨hv, hc, -⟩ := h
  rw [length_fwdTable] at hv
  refine ⟨hv, ?_⟩
  simp only [beq_iff_eq] at hc
  simp [fwd, List.getD, hc, List.getElem?_eq_getElem (length_fwdTable a lc ▸ hv)]

theorem invLetter_eq_none {a : Alphabet} {lc : LetterCase} {c : Byte} :
    invLetter a lc c = none ↔ ∀ v < 2 ^ bitsPerSymbol a, fwd a lc v ≠ c := by
  unfold invLetter
  rw [List.findIdx?_eq_none_iff_findIdx_eq, List.findIdx_eq_length]
  constructor
  · intro h v hv heq
    have hl : v < (fwdTable a lc).length := by rw [length_fwdTable]; exact hv
    have := h _ (List.getElem_mem hl)
    simp only [beq_eq_false_iff_ne] at this
    exact this (by rw [← heq]; simp [fwd, List.getD, List.getElem?_eq_getElem hl])
  · intro h x hx
    obtain ⟨v, hv, rfl⟩ := List.getElem_of_mem hx
    have := h v (length_fwdTable a lc ▸ hv)
    simp only [beq_eq_false_iff_ne]
    intro heq
    exact this (by rw [← heq]; simp [fwd, List.getD, List.getElem?_eq_getElem hv])

/-- A looked-up value has `k` bits. -/
theorem inv_lt {a : Alphabet} {cs : CaseMode} {c : Byte} {v : Nat} (h : inv a cs c = some v) :
    v < 2 ^ bitsPerSymbol a := by
  cases cs with
  | upper => exact (invLetter_eq_some h).1
  | lower => exact (invLetter_eq_some h).1
  | mixed =>
    simp only [inv, Option.or_eq_some_iff] at h
    rcases h with h | ⟨-, h⟩ <;> exact (invLetter_eq_some h).1
  | reserved => simp [inv] at h

end Sys2Proof.Machine
end

