-- ==== Sys2Proof/Laws/Encoder.lean ====
section
/-! SUPPORT. The encoder's pieces: bit concatenation, group values, and how many symbols each part gives. -/

namespace Sys2Proof.Machine

/-- `a ++ b = (a << w) | b` for a `w`-bit `b` (R8). -/
theorem concatBits_eq_shiftLeft_or {a w b : Nat} (h : b < 2 ^ w) : concatBits a w b = a <<< w ||| b := by
  rw [concatBits, Nat.shiftLeft_eq, Nat.mul_comm, Nat.two_pow_add_eq_or_of_lt h]

theorem concatBits_lt {a w b n : Nat} (ha : a < 2 ^ n) (hb : b < 2 ^ w) : concatBits a w b < 2 ^ (n + w) := by
  unfold concatBits
  rw [Nat.pow_add]
  calc a * 2 ^ w + b < a * 2 ^ w + 2 ^ w := by omega
    _ = (a + 1) * 2 ^ w := by ring
    _ ≤ 2 ^ n * 2 ^ w := Nat.mul_le_mul_right _ ha

theorem foldl_groupValue (w : Nat) (bs : List Byte) :
    bs.foldl (fun w b => concatBits w 8 b.toNat) w = w * 2 ^ (8 * bs.length) + groupValue bs := by
  unfold groupValue
  induction bs generalizing w with
  | nil => simp
  | cons b rest ih =>
    simp only [List.foldl_cons, List.length_cons]
    rw [ih (concatBits w 8 b.toNat), ih (concatBits 0 8 b.toNat)]
    simp only [concatBits, Nat.mul_add, Nat.pow_add]
    ring

@[simp] theorem groupValue_nil : groupValue [] = 0 := rfl

theorem groupValue_cons (b : Byte) (bs : List Byte) :
    groupValue (b :: bs) = b.toNat * 2 ^ (8 * bs.length) + groupValue bs := by
  have := foldl_groupValue (concatBits 0 8 b.toNat) bs
  simpa [groupValue, concatBits] using this

theorem groupValue_append (bs cs : List Byte) :
    groupValue (bs ++ cs) = groupValue bs * 2 ^ (8 * cs.length) + groupValue cs := by
  conv_lhs => rw [groupValue, List.foldl_append, ← groupValue]
  exact foldl_groupValue _ _

theorem groupValue_lt (bs : List Byte) : groupValue bs < 2 ^ (8 * bs.length) := by
  induction bs with
  | nil => simp
  | cons b rest ih =>
    rw [groupValue_cons, List.length_cons, Nat.mul_add, Nat.pow_add]
    have := b.isLt
    calc b.toNat * 2 ^ (8 * rest.length) + groupValue rest
        < (b.toNat + 1) * 2 ^ (8 * rest.length) := by rw [Nat.add_mul]; omega
      _ ≤ 2 ^ 8 * 2 ^ (8 * rest.length) := Nat.mul_le_mul_right _ this
      _ = _ := by ring

@[simp] theorem length_bytesOfValue (nb w : Nat) : (bytesOfValue nb w).length = nb := by simp [bytesOfValue]

@[simp] theorem length_cutSymbols (F : Nat → Byte) (k m w : Nat) : (cutSymbols F k m w).length = m := by
  simp [cutSymbols]

@[simp] theorem length_byteGroups (B : Nat) (x : List Byte) : (byteGroups B x).length = x.length / B := by
  simp [byteGroups]

/-- A full group in front is the first group. -/
theorem byteGroups_append {B : Nat} (hB : 0 < B) (g x : List Byte) (hg : g.length = B) :
    byteGroups B (g ++ x) = g :: byteGroups B x := by
  unfold byteGroups
  have hq : (g ++ x).length / B = x.length / B + 1 := by
    rw [List.length_append, hg, Nat.add_comm, Nat.add_div_right _ hB]
  rw [hq, List.range_succ_eq_map, List.map_cons, List.map_map]
  congr 1
  · simp [← hg]
  · refine List.map_congr_left fun i _ => ?_
    have : (i + 1) * B = g.length + i * B := by rw [hg]; ring
    simp [Function.comp, this, List.drop_append, List.drop_of_length_le]

theorem byteGroups_of_length_lt {B : Nat} (x : List Byte) (h : x.length < B) : byteGroups B x = [] := by
  simp [byteGroups, Nat.div_eq_of_lt h]

theorem length_encodeGroups (a : Alphabet) (F : Nat → Byte) (x : List Byte) :
    (encodeGroups a F x).length = x.length / bytesPerGroup a * symbolsPerGroup a := by
  simp [encodeGroups, List.length_flatMap]

/-- How many symbols a tail gives: the column `m` of R123. -/
theorem length_encodeTail (a : Alphabet) (F : Nat → Byte) (x : List Byte) :
    (encodeTail a F x).length =
      match tailRow (bitsPerSymbol a) (x.length % bytesPerGroup a) with
      | some (m, _) => m
      | none => 0 := by
  unfold encodeTail
  split <;> simp_all

theorem length_padSymbols (y : List Byte) (g : Nat) (c : Byte) :
    (padSymbols y g c).length = if y.length % g = 0 then y.length else y.length + (g - y.length % g) := by
  unfold padSymbols
  split <;> simp

/-- Padding adds copies of the pad byte at the end, fewer than a group. -/
theorem padSymbols_eq_append (y : List Byte) {g : Nat} (hg : 0 < g) (c : Byte) :
    ∃ r < g, padSymbols y g c = y ++ List.replicate r c := by
  unfold padSymbols
  split
  · exact ⟨0, hg, by simp⟩
  · exact ⟨g - y.length % g, by omega, rfl⟩

/-! ## Cutting and putting together again -/

/-- The most significant symbol, then the symbols of the rest. -/
theorem cutSymbols_succ (F : Nat → Byte) (k m w : Nat) :
    cutSymbols F k (m + 1) w = F ((w >>> (m * k)) % 2 ^ k) :: cutSymbols F k m w := by
  unfold cutSymbols
  rw [List.range_succ_eq_map, List.map_cons, List.map_map]
  congr 1
  · congr 3
    rw [Nat.add_mul, Nat.zero_mul, Nat.one_mul, Nat.sub_zero, Nat.add_sub_cancel]
  · refine List.map_congr_left fun j _ => ?_
    simp only [Function.comp]
    congr 3
    rw [Nat.succ_mul, Nat.succ_mul]
    omega

/-- The most significant byte, then the bytes of the rest. -/
theorem bytesOfValue_succ (n w : Nat) : bytesOfValue (n + 1) w = BitVec.ofNat 8 (w >>> (8 * n)) :: bytesOfValue n w := by
  unfold bytesOfValue
  rw [List.range_succ_eq_map, List.map_cons, List.map_map]
  congr 1
  refine List.map_congr_left fun j _ => ?_
  simp only [Function.comp]
  congr 3
  omega

/-- The bytes of a group's value, above any multiple of its size, are the group. -/
theorem bytesOfValue_groupValue (c : Nat) (bs : List Byte) :
    bytesOfValue bs.length (c * 2 ^ (8 * bs.length) + groupValue bs) = bs := by
  induction bs generalizing c with
  | nil => rfl
  | cons b rest ih =>
    rw [List.length_cons, bytesOfValue_succ]
    have hlt := groupValue_lt rest
    have hsplit : c * 2 ^ (8 * (rest.length + 1)) + groupValue (b :: rest) =
        (c * 2 ^ 8 + b.toNat) * 2 ^ (8 * rest.length) + groupValue rest := by
      rw [groupValue_cons, Nat.mul_add 8, Nat.pow_add]
      ring
    rw [hsplit, ih]
    congr 1
    rw [Nat.shiftRight_eq_div_pow, Nat.mul_comm, Nat.mul_add_div (by positivity), Nat.div_eq_of_lt hlt, Nat.add_zero]
    apply BitVec.eq_of_toNat_eq
    simp only [BitVec.toNat_ofNat]
    have := b.isLt
    omega

end Sys2Proof.Machine
end

