-- ==== Sys2Proof/Laws/Decoder.lean ====
section
/-! SUPPORT. The decoder's pieces: what each can answer. -/

namespace Sys2Proof.Machine

@[simp] theorem length_positioned (s : List Byte) : (positioned s).length = s.length := by simp [positioned]

theorem getElem_positioned (s : List Byte) (i : Nat) (h : i < (positioned s).length) :
    (positioned s)[i] = ⟨s[i]'(by simpa using h), some i⟩ := by
  simp [positioned]

/-- A symbol of the sequence stands in IN_BUF at its position. -/
theorem mem_positioned {s : List Byte} {c : Symbol} (h : c ∈ positioned s) :
    ∃ i, c.pos = some i ∧ s[i]? = some c.byte := by
  obtain ⟨i, hi, rfl⟩ := List.getElem_of_mem h
  rw [getElem_positioned]
  exact ⟨i, rfl, by simp⟩

theorem mem_stripWhitespace {s : List Byte} {c : Symbol} :
    c ∈ stripWhitespace s ↔ c ∈ positioned s ∧ isWhitespace c.byte = false := by
  simp [stripWhitespace]

theorem length_stripWhitespace_le (s : List Byte) : (stripWhitespace s).length ≤ s.length := by
  simpa [stripWhitespace] using List.length_filter_le (fun c : Symbol => !isWhitespace c.byte) (positioned s)

theorem map_byte_positioned (s : List Byte) : (positioned s).map Symbol.byte = s := by
  apply List.ext_getElem
  · simp
  · intro i h1 h2
    simp [getElem_positioned]

/-- A failed lookup is that of one of the symbols. -/
theorem assembleSymbols_error {I : Byte → Option Nat} {k w : Nat} {f : List Symbol} {e : CodecError}
    (h : assembleSymbols I k w f = .error e) : ∃ c ∈ f, I c.byte = none ∧ e = symbolError c := by
  induction f generalizing w with
  | nil => simp [assembleSymbols] at h
  | cons c rest ih =>
    unfold assembleSymbols at h
    split at h
    · rename_i hc
      exact ⟨c, by simp, hc, (Except.error.inj h).symm⟩
    · obtain ⟨d, hd, hI, he⟩ := ih h
      exact ⟨d, by simp [hd], hI, he⟩

/-- If every lookup succeeds with a `k`-bit value, the result has as many bits as the symbols carry. -/
theorem assembleSymbols_ok_lt {I : Byte → Option Nat} {k : Nat} (hI : ∀ c v, I c = some v → v < 2 ^ k) {w n : Nat}
    {f : List Symbol} {r : Nat} (hw : w < 2 ^ n) (h : assembleSymbols I k w f = .ok r) :
    r < 2 ^ (n + f.length * k) := by
  induction f generalizing w n with
  | nil =>
    simp only [assembleSymbols, Except.ok.injEq] at h
    subst h
    simpa using hw
  | cons c rest ih =>
    unfold assembleSymbols at h
    split at h
    · simp at h
    · rename_i v hv
      have := ih (concatBits_lt hw (hI _ _ hv)) h
      rw [List.length_cons, Nat.add_mul, Nat.one_mul]
      convert this using 2
      ring

theorem decodeGroups_error {I : Byte → Option Nat} {k B : Nat} {gs : List (List Symbol)} {e : CodecError}
    (h : decodeGroups I k B gs = .error e) : ∃ g ∈ gs, ∃ c ∈ g, I c.byte = none ∧ e = symbolError c := by
  induction gs with
  | nil => simp [decodeGroups] at h
  | cons g rest ih =>
    unfold decodeGroups at h
    split at h
    · rename_i he
      obtain ⟨c, hc, hI, rfl⟩ := assembleSymbols_error he
      exact ⟨g, by simp, c, hc, hI, (Except.error.inj h).symm⟩
    · split at h
      · rename_i he
        rw [Except.error.inj h] at he
        obtain ⟨g', hg', c, hc, hI, heq⟩ := ih he
        exact ⟨g', by simp [hg'], c, hc, hI, heq⟩
      · simp at h

theorem decodeGroups_ok_length {I : Byte → Option Nat} {k B : Nat} {gs : List (List Symbol)} {y : List Byte}
    (h : decodeGroups I k B gs = .ok y) : y.length = gs.length * B := by
  induction gs generalizing y with
  | nil =>
    simp only [decodeGroups, Except.ok.injEq] at h
    simp [← h]
  | cons g rest ih =>
    unfold decodeGroups at h
    split at h
    · simp at h
    · split at h
      · simp at h
      · rename_i y' hy
        simp only [Except.ok.injEq] at h
        subst h
        simp [ih hy, Nat.add_mul, Nat.add_comm]

/-- The final group fails by its shape or by one of its data symbols; on success its shape says how many bytes it gives. -/
theorem decodeFinal_cases (I : Byte → Option Nat) (k S : Nat) (f : List Symbol) :
    decodeFinal I k S f = .error (plainError .incorrectPadding) ∨
    (∃ c ∈ f, I c.byte = none ∧ c ∈ f.take (S - padRun f) ∧ c.byte ≠ padByte ∧ decodeFinal I k S f = .error (symbolError c)) ∨
    (∃ nb w, legalShape k (padRun f) = some nb ∧ decodeFinal I k S f = .ok (bytesOfValue nb w)) := by
  unfold decodeFinal
  simp only
  split
  · exact .inl rfl
  · rename_i nb hnb
    split
    · exact .inl rfl
    · rename_i hany
      split
      · rename_i e he
        obtain ⟨c, hc, hI, rfl⟩ := assembleSymbols_error he
        refine .inr (.inl ⟨c, List.mem_of_mem_take hc, hI, hc, ?_, rfl⟩)
        intro hpad
        simp only [List.any_eq_true, not_exists, not_and, beq_iff_eq] at hany
        exact hany c hc hpad
      · rename_i w hw
        exact .inr (.inr ⟨nb, _, hnb, rfl⟩)

/-- Every output of a legal shape is one to five bytes, and at most a full group. -/
theorem legalShape_le {k p nb : Nat} (h : legalShape k p = some nb) :
    1 ≤ nb ∧ (k = 6 ∧ nb ≤ 3 ∨ k = 5 ∧ nb ≤ 5) := by
  unfold legalShape at h
  split at h <;> simp_all <;> omega

theorem length_symbolGroups (S n : Nat) (u : List Symbol) : (symbolGroups S n u).length = n := by simp [symbolGroups]

theorem mem_of_mem_symbolGroups {S n : Nat} {u g : List Symbol} {c : Symbol} (hg : g ∈ symbolGroups S n u) (hc : c ∈ g) :
    c ∈ u := by
  simp only [symbolGroups, List.mem_map] at hg
  obtain ⟨i, -, rfl⟩ := hg
  exact List.mem_of_mem_drop (List.mem_of_mem_take hc)

/-- The first group of an aligned sequence. -/
theorem symbolGroups_append {S n : Nat} (g u : List Symbol) (hg : g.length = S) :
    symbolGroups S (n + 1) (g ++ u) = g :: symbolGroups S n u := by
  unfold symbolGroups
  rw [List.range_succ_eq_map, List.map_cons, List.map_map]
  congr 1
  · simp [← hg]
  · refine List.map_congr_left fun i _ => ?_
    have : (i + 1) * S = g.length + i * S := by rw [hg]; ring
    simp [Function.comp, this, List.drop_append, List.drop_of_length_le]

/-- The length check or the re-padding (R144). -/
theorem alignSymbols_cases (S : Nat) (pad : Bool) (u : List Symbol) :
    (pad = true ∧ u.length % S ≠ 0 ∧ alignSymbols S pad u = .error (plainError .incorrectPadding)) ∨
    (pad = true ∧ u.length % S = 0 ∧ alignSymbols S pad u = .ok u) ∨
    (pad = false ∧
      alignSymbols S pad u = .ok (u ++ List.replicate ((S - u.length % S) % S) ⟨padByte, none⟩)) := by
  unfold alignSymbols
  cases pad
  · simp
  · by_cases h : u.length % S = 0 <;> simp [h]

/-- Looking up the symbols that a value was cut into gives the value back. -/
theorem assembleSymbols_cutSymbols {I : Byte → Option Nat} {F : Nat → Byte} {k : Nat} (hI : ∀ v < 2 ^ k, I (F v) = some v)
    (m w₀ w : Nat) (f : List Symbol) (hf : f.map Symbol.byte = cutSymbols F k m w) :
    assembleSymbols I k w₀ f = .ok (w₀ * 2 ^ (m * k) + w % 2 ^ (m * k)) := by
  induction m generalizing w₀ f with
  | zero =>
    obtain rfl : f = [] := by simpa [cutSymbols] using hf
    simp [assembleSymbols, Nat.mod_one]
  | succ m ih =>
    rw [cutSymbols_succ] at hf
    obtain ⟨c, rest, rfl, hc, hrest⟩ := List.map_eq_cons_iff.1 hf
    have hv : (w >>> (m * k)) % 2 ^ k < 2 ^ k := Nat.mod_lt _ (by positivity)
    unfold assembleSymbols
    rw [hc, hI _ hv]
    simp only
    rw [ih _ rest hrest]
    congr 1
    rw [concatBits, Nat.shiftRight_eq_div_pow, Nat.add_mul m 1, Nat.one_mul, Nat.pow_add, Nat.mod_mul]
    ring

end Sys2Proof.Machine
end

