-- ==== Sys2Proof/Laws/Machine.lean ====
section
/-! SUPPORT. What each shared operation and each agent's move can do, said once. -/

namespace Sys2Proof.Machine

theorem errNumber_toNat (c : ErrCode) : (errNumber c).toNat = c.number := by cases c <;> rfl

theorem errNumber_ne_zero (c : ErrCode) : errNumber c ≠ 0 := by cases c <;> decide

/-- A completion with an error is what R204 says. -/
theorem takeError_failedWith (c : ErrCode) (b : Byte) (p : Nat) (s : State) (hp : p < 2 ^ 17) :
    FailedWith s (takeError c b p s) c.number b p where
  frame := by constructor <;> rfl
  busy := rfl
  doneBit := rfl
  errBit := rfl
  errCode := errNumber_toNat c
  errByte := rfl
  errPos := by simpa [takeError] using hp
  outLen := rfl
  outNoValue _ := rfl
  outEpoch := rfl

/-- A completion with success is what R80 says, for any output whose length OUT_LEN can show. -/
theorem completeOk_succeeded (y : List Byte) (s : State) (hy : y.length < 2 ^ 18) : Succeeded s (completeOk y s) y where
  frame := by constructor <;> rfl
  busy := rfl
  doneBit := rfl
  errBit := rfl
  errCode := rfl
  errByte := rfl
  errPos := rfl
  outLen := by simpa [completeOk] using hy
  outStored i h := by simp [readCell_writeCells, h]
  outKept i h := by
    have : ¬i < y.length := by omega
    simp [readCell_writeCells, this]
  outEpoch := rfl

/-- How a command ends (R80): an error, an output that fits, or an output no OUT_BUF holds. -/
theorem finishCommand_cases (r : CodecResult) (s : State) :
    (∃ y, r = .ok y ∧ y.length ≤ s.config.outBufBytes ∧ finishCommand r s = .next (completeOk y s)) ∨
    (∃ y, r = .ok y ∧ s.config.outBufBytes < y.length ∧ finishCommand r s = .fault .outBufOverflow) ∨
    (∃ e, r = .error e ∧ finishCommand r s = .next (takeError e.code e.byte e.pos s)) := by
  cases r with
  | ok y =>
    by_cases h : y.length ≤ s.config.outBufBytes
    · exact .inl ⟨y, rfl, h, by simp [finishCommand, h]⟩
    · exact .inr (.inl ⟨y, rfl, by omega, by simp [finishCommand, h]⟩)
  | error e => exact .inr (.inr ⟨e, rfl, rfl⟩)

/-- The order of the checks (R80, R207): legality, then the length, then the codec. -/
theorem runCommand_cases (legal : Bool) (codec : List Byte → CodecResult) (s : State) :
    (legal = false ∧ runCommand legal codec s = .next (takeError .illegalCommand 0 0 s)) ∨
    (legal = true ∧ s.config.inBufBytes < s.latLen.toNat ∧
      runCommand legal codec s = .next (takeError .lengthRange 0 0 s)) ∨
    (legal = true ∧ s.latLen.toNat ≤ s.config.inBufBytes ∧
      runCommand legal codec s = finishCommand (codec (inputBytes s)) s) := by
  cases legal
  · exact .inl ⟨rfl, rfl⟩
  · by_cases h : s.config.inBufBytes < s.latLen.toNat
    · exact .inr (.inl ⟨rfl, h, by simp [runCommand, h]⟩)
    · exact .inr (.inr ⟨rfl, by omega, by simp [runCommand, h]⟩)

/-- The codec a command runs, as its rule names it (R126 to R130, R151 to R155). -/
def codecOf : Instr → List Byte → CodecResult
  | .enc16 cs np _, x => .ok (encodeBytes .hex (letterCaseOf cs) (!np) x)
  | .dec16 cs np _, x => decodeSymbols .hex cs (!np) false x
  | .enc32 cs np _, x => .ok (encodeBytes .base32 (letterCaseOf cs) (!np) x)
  | .dec32 cs np _, x => decodeSymbols .base32 cs (!np) false x
  | .enc32hex cs np _, x => .ok (encodeBytes .base32hex (letterCaseOf cs) (!np) x)
  | .dec32hex cs np _, x => decodeSymbols .base32hex cs (!np) false x
  | .enc64 _ np _, x => .ok (encodeBytes .base64 .upper (!np) x)
  | .dec64 _ np ig, x => decodeSymbols .base64 .upper (!np) ig x
  | .enc64url _ np _, x => .ok (encodeBytes .base64url .upper (!np) x)
  | .dec64url _ np ig, x => decodeSymbols .base64url .upper (!np) ig x

/-- Every command is the ENGINE step of its codec, legal exactly when it is well formed. -/
theorem exec_eq_runCommand (i : Instr) (s : State) : exec i s = runCommand i.wellFormed (codecOf i) s := by
  cases i <;> rename_i cs np ig <;> cases cs <;> cases ig <;> rfl

/-- Everything a command can do. -/
theorem exec_cases (i : Instr) (s : State) :
    (i.wellFormed = false ∧ exec i s = .next (takeError .illegalCommand 0 0 s)) ∨
    (i.wellFormed = true ∧ s.config.inBufBytes < s.latLen.toNat ∧
      exec i s = .next (takeError .lengthRange 0 0 s)) ∨
    (i.wellFormed = true ∧ s.latLen.toNat ≤ s.config.inBufBytes ∧
      exec i s = finishCommand (codecOf i (inputBytes s)) s) := by
  rw [exec_eq_runCommand]
  exact runCommand_cases _ _ _

/-- The ENGINE's step: the decoded command, or ILLEGAL_COMMAND. -/
theorem engineStep_cases (s : State) :
    (∃ i, decodeWord s.cmd = .ok i ∧ engineStep s = exec i s) ∨
    (∃ r, decodeWord s.cmd = .error r ∧ engineStep s = .next (takeError .illegalCommand 0 0 s)) := by
  unfold engineStep
  cases h : decodeWord s.cmd with
  | ok i => exact .inl ⟨i, rfl, rfl⟩
  | error r => exact .inr ⟨r, rfl, rfl⟩

/-- A step is an ENGINE step or the HOST's move. -/
theorem step_cases (s : State) :
    (s.busy = true ∧ (s.engineDelay = 0 ∨ s.hostQueue = []) ∧ step s = engineStep s) ∨
    (¬(s.busy = true ∧ (s.engineDelay = 0 ∨ s.hostQueue = [])) ∧ step s = .next (hostMove s)) := by
  have hiff : engineMovesNext s = true ↔ s.busy = true ∧ (s.engineDelay = 0 ∨ s.hostQueue = []) := by
    simp [engineMovesNext]
  by_cases h : engineMovesNext s = true
  · exact .inl ⟨(hiff.1 h).1, (hiff.1 h).2, by simp [step, h]⟩
  · exact .inr ⟨fun h' => h (hiff.2 h'), by simp [step, h]⟩

/-- What an access may reach: what the map gives, unless R255 forbids it now. -/
theorem permitted_cases (s : State) (addr : Offset) (n : Nat) (isWrite : Bool) :
    (permitted s addr n isWrite = none ∧
      (targetOf s.config addr n = none ∨
        s.busy = true ∧ ∃ t, targetOf s.config addr n = some t ∧ forbiddenWhileBusy isWrite t = true)) ∨
    (∃ t, targetOf s.config addr n = some t ∧ permitted s addr n isWrite = some t ∧
      (s.busy = true → forbiddenWhileBusy isWrite t = false)) := by
  unfold permitted
  cases htt : targetOf s.config addr n with
  | none => exact .inl ⟨rfl, .inl rfl⟩
  | some t =>
    cases hb : s.busy <;> cases hf : forbiddenWhileBusy isWrite t <;> simp [Option.filter, hf]

/-- With no command in flight an access reaches what the map gives. -/
theorem permitted_of_idle {s : State} (h : s.busy = false) (addr : Offset) (n : Nat) (isWrite : Bool) :
    permitted s addr n isWrite = targetOf s.config addr n := by
  unfold permitted
  rw [h]
  cases targetOf s.config addr n <;> simp [Option.filter]

/-- With a command in flight an access reaches what the map gives, less what R255 forbids. -/
theorem permitted_of_busy {s : State} (h : s.busy = true) (addr : Offset) (n : Nat) (isWrite : Bool) :
    permitted s addr n isWrite = (targetOf s.config addr n).filter fun t => !forbiddenWhileBusy isWrite t := by
  unfold permitted
  rw [h]
  cases targetOf s.config addr n <;> simp [Option.filter]

/-- Where each register lies (R22). -/
theorem regAt_eq_some {a : Nat} {r : Reg} (h : regAt a = some r) :
    (a = 0x000 ∧ r = .cmd) ∨ (a = 0x004 ∧ r = .status) ∨ (a = 0x008 ∧ r = .inLen) ∨ (a = 0x00C ∧ r = .outLen) ∨
      (a = 0x010 ∧ r = .errByte) ∨ (a = 0x014 ∧ r = .errPos) ∨ (a = 0x018 ∧ r = .inCap) ∨ (a = 0x01C ∧ r = .outCap) ∨
      (a = 0x020 ∧ r = .irqEn) := by
  unfold regAt at h
  split at h <;> simp_all

/-- A buffer target lies inside its buffer. -/
theorem targetOf_inBuf {c : Config} {addr : Offset} {n i : Nat} (h : targetOf c addr n = some (.inBuf i)) :
    i + n ≤ c.inBufBytes ∧ addr.toNat = inBufBase + i ∧ widthOk addr.toNat n = true := by
  unfold targetOf at h
  simp only at h
  split at h
  · split at h
    · simp at h
    · simp at h
  · split at h
    · rename_i hw
      simp only [Option.some.injEq, Target.inBuf.injEq] at h
      exact ⟨by omega, by omega, hw.1⟩
    · split at h <;> simp at h

theorem targetOf_outBuf {c : Config} {addr : Offset} {n i : Nat} (h : targetOf c addr n = some (.outBuf i)) :
    i + n ≤ c.outBufBytes ∧ addr.toNat = outBufBase + i ∧ widthOk addr.toNat n = true := by
  unfold targetOf at h
  simp only at h
  split at h
  · split at h
    · simp at h
    · simp at h
  · split at h
    · simp at h
    · split at h
      · rename_i hw
        simp only [Option.some.injEq, Target.outBuf.injEq] at h
        exact ⟨by omega, by omega, hw.1⟩
      · simp at h

theorem targetOf_reg {c : Config} {addr : Offset} {n : Nat} {r : Reg} (h : targetOf c addr n = some (.reg r)) :
    n = 4 ∧ regAt addr.toNat = some r := by
  unfold targetOf at h
  simp only at h
  split at h
  · split at h
    · simp only [Option.map_eq_some_iff, Target.reg.injEq, exists_eq_right] at h
      exact ⟨‹_›, h⟩
    · simp at h
  · split at h
    · simp at h
    · split at h <;> simp at h

/-- Everything a HOST write can do to the block's state. -/
theorem hostWrite_cases (s : State) (addr : Offset) (n : Nat) (v : Word) :
    hostWrite s addr n v = s ∨
    (s.busy = false ∧ hostWrite s addr n v = acceptCommand v s) ∨
    hostWrite s addr n v = acknowledge s ∨
    (s.busy = false ∧ hostWrite s addr n v = { s with inLen := v.setWidth 17 }) ∨
    hostWrite s addr n v = { s with irqEn := v.getLsbD 0 } ∨
    (s.busy = false ∧ ∃ i, i + n ≤ s.config.inBufBytes ∧
      hostWrite s addr n v = { s with inBuf := writeCells s.inBuf i (dataBytes v n) }) ∨
    (s.busy = false ∧ ∃ i, i + n ≤ s.config.outBufBytes ∧
      hostWrite s addr n v = { s with outBuf := writeCells s.outBuf i (dataBytes v n) }) := by
  rcases permitted_cases s addr n true with ⟨hp, -⟩ | ⟨t, ht, hp, hbusy⟩
  · exact .inl (by simp [hostWrite, hp])
  · have hidle : forbiddenWhileBusy true t = true → s.busy = false := by
      intro hf
      cases hb : s.busy with
      | false => rfl
      | true => simp [hbusy hb] at hf
    have hw : hostWrite s addr n v = writeTarget s n v t := by simp [hostWrite, hp]
    rw [hw]
    cases t with
    | inBuf i => exact .inr (.inr (.inr (.inr (.inr (.inl ⟨hidle rfl, i, (targetOf_inBuf ht).1, rfl⟩)))))
    | outBuf i => exact .inr (.inr (.inr (.inr (.inr (.inr ⟨hidle rfl, i, (targetOf_outBuf ht).1, rfl⟩)))))
    | reg r =>
      cases r with
      | cmd => exact .inr (.inl ⟨hidle rfl, rfl⟩)
      | inLen => exact .inr (.inr (.inr (.inl ⟨hidle rfl, rfl⟩)))
      | irqEn => exact .inr (.inr (.inr (.inr (.inl rfl))))
      | status =>
        by_cases hv : v.getLsbD 1 = true
        · exact .inr (.inr (.inl (by simp only [writeTarget, writeReg, hv, if_true])))
        · exact .inl (by simp only [writeTarget, writeReg, hv, Bool.false_eq_true, if_false])
      | outLen => exact .inl rfl
      | errByte => exact .inl rfl
      | errPos => exact .inl rfl
      | inCap => exact .inl rfl
      | outCap => exact .inl rfl

/-- Everything the HOST's move can be, by the oldest event. -/
theorem hostMove_cases (s : State) :
    (s.hostQueue = [] ∧ hostMove s = s) ∨
    ∃ ev rest, s.hostQueue = ev :: rest ∧ hostMove s = performEvent (dequeueEvent s rest) ev := by
  unfold hostMove
  cases h : s.hostQueue with
  | nil => exact .inl ⟨rfl, rfl⟩
  | cons ev rest => exact .inr ⟨ev, rest, rfl, rfl⟩

end Sys2Proof.Machine
end

