-- ==== Sys2Proof/Laws/PerInstr.lean ====
section
/-! SUPPORT. Statements about every instruction as syntax, one lemma per constructor. -/

namespace Sys2Proof.Laws.WordLayout

/-- The fields of a command's word are where R70 puts them: OP in `[3:0]`, CASE in `[5:4]`, NOPAD in `[6]`, IGN in `[7]`,
and RSVD = 0. -/
abbrev Statement (i : Instr) : Prop :=
  ((encode i).extractLsb' 0 4).toNat = opCode i ∧ ((encode i).extractLsb' 4 2).toNat = caseCode (optionsOf i).1 ∧
    (encode i).getLsbD 6 = (optionsOf i).2.1 ∧ (encode i).getLsbD 7 = (optionsOf i).2.2 ∧
    (encode i).extractLsb' 8 24 = 0

theorem enc16 (cs : CaseMode) (nopad ign : Bool) : Statement (.enc16 cs nopad ign) := by
  cases cs <;> cases nopad <;> cases ign <;> decide

theorem dec16 (cs : CaseMode) (nopad ign : Bool) : Statement (.dec16 cs nopad ign) := by
  cases cs <;> cases nopad <;> cases ign <;> decide

theorem enc32 (cs : CaseMode) (nopad ign : Bool) : Statement (.enc32 cs nopad ign) := by
  cases cs <;> cases nopad <;> cases ign <;> decide

theorem dec32 (cs : CaseMode) (nopad ign : Bool) : Statement (.dec32 cs nopad ign) := by
  cases cs <;> cases nopad <;> cases ign <;> decide

theorem enc32hex (cs : CaseMode) (nopad ign : Bool) : Statement (.enc32hex cs nopad ign) := by
  cases cs <;> cases nopad <;> cases ign <;> decide

theorem dec32hex (cs : CaseMode) (nopad ign : Bool) : Statement (.dec32hex cs nopad ign) := by
  cases cs <;> cases nopad <;> cases ign <;> decide

theorem enc64 (cs : CaseMode) (nopad ign : Bool) : Statement (.enc64 cs nopad ign) := by
  cases cs <;> cases nopad <;> cases ign <;> decide

theorem dec64 (cs : CaseMode) (nopad ign : Bool) : Statement (.dec64 cs nopad ign) := by
  cases cs <;> cases nopad <;> cases ign <;> decide

theorem enc64url (cs : CaseMode) (nopad ign : Bool) : Statement (.enc64url cs nopad ign) := by
  cases cs <;> cases nopad <;> cases ign <;> decide

theorem dec64url (cs : CaseMode) (nopad ign : Bool) : Statement (.dec64url cs nopad ign) := by
  cases cs <;> cases nopad <;> cases ign <;> decide

end Sys2Proof.Laws.WordLayout
end

