-- ==== Sys2Proof/Tests/Slice0.lean ====
section
/-! SUPPORT. Small tests, one step each, with expected results from spec/95_test_vectors.md, and for each statement with
hypotheses a witness that meets them. -/

namespace Sys2Proof.Tests

open Sys2Proof Sys2Proof.Machine

/-! ## WellFormed refuses -/

/-- R76: mixed on an encoder. -/
theorem test_enc32_mixed_ill_formed : (Instr.enc32 .mixed false false).wellFormed = false := by decide

/-- R76: the reserved CASE on a decoder. -/
theorem test_dec16_reserved_ill_formed : (Instr.dec16 .reserved false false).wellFormed = false := by decide

/-- R76: a CASE on base64. -/
theorem test_dec64_mixed_ill_formed : (Instr.dec64 .mixed true true).wellFormed = false := by decide

/-- R76: IGN on a command that does not offer it. -/
theorem test_dec32hex_ign_ill_formed : (Instr.dec32hex .upper false true).wellFormed = false := by decide

/-! ## Decoding words written out from R70 and R76, and refusing by name (CW1 to CW12) -/

/-- Fields from bit 31 down: RSVD, IGN, NOPAD, CASE, ALPH, DIR. -/
def fields (ign nopad : BitVec 1) (cs : BitVec 2) (alph : BitVec 3) (dir : BitVec 1) : Word :=
  (0#24) ++ ign ++ nopad ++ cs ++ alph ++ dir

theorem test_decode_enc16 : decodeWord (fields 0 0 0b01 0b000 0) = .ok (.enc16 .lower false false) := by decide
theorem test_decode_dec16 : decodeWord (fields 0 1 0b10 0b000 1) = .ok (.dec16 .mixed true false) := by decide
theorem test_decode_enc32 : decodeWord (fields 0 1 0b01 0b001 0) = .ok (.enc32 .lower true false) := by decide
theorem test_decode_dec32 : decodeWord (fields 0 0 0b00 0b001 1) = .ok (.dec32 .upper false false) := by decide
theorem test_decode_enc32hex : decodeWord (fields 0 0 0b00 0b010 0) = .ok (.enc32hex .upper false false) := by decide
theorem test_decode_dec32hex : decodeWord (fields 0 1 0b10 0b010 1) = .ok (.dec32hex .mixed true false) := by decide
theorem test_decode_enc64 : decodeWord (fields 0 1 0b00 0b011 0) = .ok (.enc64 .upper true false) := by decide
theorem test_decode_dec64 : decodeWord (fields 1 0 0b00 0b011 1) = .ok (.dec64 .upper false true) := by decide
theorem test_decode_enc64url : decodeWord (fields 0 0 0b00 0b100 0) = .ok (.enc64url .upper false false) := by decide
theorem test_decode_dec64url : decodeWord (fields 1 1 0b00 0b100 1) = .ok (.dec64url .upper true true) := by decide

theorem test_reject_reserved_bits : decodeWord 0x80000006 = .error .reservedBits := by decide
theorem test_reject_alphabet : decodeWord 0x0000000B = .error .reservedAlphabet := by decide
theorem test_reject_reserved_case : decodeWord 0x00000031 = .error .reservedCase := by decide
theorem test_reject_mixed_encode : decodeWord 0x00000020 = .error .mixedOnEncode := by decide
theorem test_reject_base64_case : decodeWord 0x00000016 = .error .caseOnBase64 := by decide
theorem test_reject_ign : decodeWord 0x00000085 = .error .ignNotOffered := by decide

/-- R51, R70: the bytes of a command word, the lowest first; three bytes are no word. -/
theorem test_decode_bytes : decodeBytes [0x87, 0, 0, 0] = .ok (.dec64 .upper false true) ∧
    decodeBytes [0x87, 0, 0] = .error .notOneWord := by decide

/-- The host's form of the decoder: ENC64 nopad is 0x46 (R82). -/
theorem test_decode_table_word : decodeTableWord 32 0x46 = some (.enc64 .upper true false) ∧
    decodeTableWord 32 0x26 = none := by decide

/-- R82's examples, from their source lines to their words. -/
theorem test_assemble_examples :
    (assemble "ENC64" []).map encode = some 0x06 ∧ (assemble "ENC64" [.nopad]).map encode = some 0x46 ∧
    (assemble "DEC64" [.ign]).map encode = some 0x87 ∧ (assemble "DEC16" [.mixed]).map encode = some 0x21 ∧
    (assemble "ENC32" [.lower, .nopad]).map encode = some 0x52 ∧
    (assemble "DEC32HEX" [.mixed, .nopad]).map encode = some 0x65 := by decide

/-- R82: an illegal option and two case options are assembly errors. -/
theorem test_assemble_errors : assemble "ENC64" [.lower] = none ∧ assemble "DEC16" [.upper, .mixed] = none := by decide

/-! ## One command on a small input -/

/-- A block after reset whose HOST wrote `inp` to IN_BUF and its length to IN_LEN. -/
def loaded (inp : List Byte) : State :=
  { State.reset with inBuf := writeCells [] 0 inp, inLen := BitVec.ofNat 17 inp.length }

/-- The next step runs the word `w` on `inp` and succeeds with `out`. -/
def gives (w : Nat) (inp out : List Byte) : Bool :=
  match step ((loaded inp).withFetchWord 32 w) with
  | .next t => decide (t.outBuf = writeCells [] 0 out) && t.outLen == BitVec.ofNat 18 out.length &&
      statusWord t == 0x00000002
  | _ => false

/-- The next step runs the word `w` on `inp` and ends with this STATUS, ERR_BYTE and ERR_POS, and OUT_LEN 0. -/
def endsWith (w : Nat) (inp : List Byte) (status : Word) (b : Byte) (p : BitVec 17) : Bool :=
  match step ((loaded inp).withFetchWord 32 w) with
  | .next t => statusWord t == status && t.errByte == b && t.errPos == p && t.outLen == 0 && decide (t.outBuf = [])
  | _ => false

/-- EV3: `foobar` in lower case. -/
theorem test_enc16_lower : gives 0x10 [0x66, 0x6F, 0x6F, 0x62]
    [0x36, 0x36, 0x36, 0x66, 0x36, 0x66, 0x36, 0x32] = true := by decide

/-- EV36: mixed on ENC16 (ST5). -/
theorem test_enc16_mixed : endsWith 0x20 [0x66] 0x46 0 0 = true := by decide

/-- DV6: `66Ff` in mixed case. -/
theorem test_dec16_mixed : gives 0x21 [0x36, 0x36, 0x46, 0x66] [0x66, 0xFF] = true := by decide

/-- S10: `66ZZ` (ST4). -/
theorem test_dec16_bad_symbol : endsWith 0x01 [0x36, 0x36, 0x5A, 0x5A] 0x36 0x5A 2 = true := by decide

/-- EV11: `foob` gives `MZXW6YQ=`. -/
theorem test_enc32_tail4 : gives 0x02 [0x66, 0x6F, 0x6F, 0x62] [0x4D, 0x5A, 0x58, 0x57, 0x36, 0x59, 0x51, 0x3D] = true := by
  decide

/-- EV8: `f` gives `MY======`. -/
theorem test_enc32_tail1 : gives 0x02 [0x66] [0x4D, 0x59, 0x3D, 0x3D, 0x3D, 0x3D, 0x3D, 0x3D] = true := by decide

/-- DV22: `MZ======` drops its non-zero discarded bits. -/
theorem test_dec32_discards : gives 0x03 [0x4D, 0x5A, 0x3D, 0x3D, 0x3D, 0x3D, 0x3D, 0x3D] [0x66] = true := by decide

/-- DV21: `MZX` without padding re-pads to an illegal shape (ST3). -/
theorem test_dec32_nopad_bad_length : endsWith 0x43 [0x4D, 0x5A, 0x58] 0x26 0 0 = true := by decide

/-- EV24's first bytes: `foo` in lower case without padding gives `cpnmu`. -/
theorem test_enc32hex_lower : gives 0x54 [0x66, 0x6F, 0x6F] [0x63, 0x70, 0x6E, 0x6D, 0x75] = true := by decide

/-- EV25: an all-ones group. -/
theorem test_enc32hex_ones : gives 0x04 [0xFF, 0xFF, 0xFF, 0xFF, 0xFF]
    [0x56, 0x56, 0x56, 0x56, 0x56, 0x56, 0x56, 0x56] = true := by decide

/-- DV27: `W` is not in extended-hex. -/
theorem test_dec32hex_bad_symbol :
    endsWith 0x05 [0x43, 0x50, 0x4E, 0x4D, 0x55, 0x4F, 0x4A, 0x57] 0x36 0x57 7 = true := by decide

/-- DV26's first group: `cpnmuoj1` in mixed case gives `fooba`. -/
theorem test_dec32hex_mixed : gives 0x25 [0x63, 0x70, 0x6E, 0x6D, 0x75, 0x6F, 0x6A, 0x31]
    [0x66, 0x6F, 0x6F, 0x62, 0x61] = true := by decide

/-- S2: `foob` gives `Zm9vYg==`. -/
theorem test_enc64_tail1 : gives 0x06 [0x66, 0x6F, 0x6F, 0x62]
    [0x5A, 0x6D, 0x39, 0x76, 0x59, 0x67, 0x3D, 0x3D] = true := by decide

/-- EV32: values 62 and 63 in the standard table. -/
theorem test_enc64_plus_slash : gives 0x06 [0xFB, 0xFF] [0x2B, 0x2F, 0x38, 0x3D] = true := by decide

/-- DV48: ERR_POS counts the stripped space. -/
theorem test_dec64_ign_position :
    endsWith 0x87 [0x5A, 0x6D, 0x39, 0x76, 0x20, 0x59, 0x6D, 0x46, 0x21] 0x36 0x21 8 = true := by decide

/-- DV33: `Zg===` without padding puts a `'='` into an earlier group. -/
theorem test_dec64_repadded_pad : endsWith 0x47 [0x5A, 0x67, 0x3D, 0x3D, 0x3D] 0x36 0x3D 2 = true := by decide

/-- EV33: values 62 and 63 in the URL-safe table. -/
theorem test_enc64url_minus_underscore : gives 0x08 [0xFB, 0xFF] [0x2D, 0x5F, 0x38, 0x3D] = true := by decide

/-- EV34's first group: `FF 7F FE` without padding gives `_3_-`. -/
theorem test_enc64url_group : gives 0x48 [0xFF, 0x7F, 0xFE] [0x5F, 0x33, 0x5F, 0x2D] = true := by decide

/-- DV54: `_3_-_A` without padding. -/
theorem test_dec64url_nopad : gives 0x49 [0x5F, 0x33, 0x5F, 0x2D, 0x5F, 0x41] [0xFF, 0x7F, 0xFE, 0xFC] = true := by decide

/-- DV53: `/` is not URL-safe. -/
theorem test_dec64url_bad_symbol : endsWith 0x09 [0x2F, 0x33, 0x2F, 0x2B] 0x36 0x2F 0 = true := by decide

/-- R206: an input longer than IN_BUF (ST6), and R207: ILLEGAL_COMMAND comes first. -/
theorem test_length_range :
    (match step ({ State.reset with inLen := 4097 }.withFetchWord 32 0x06) with
      | .next t => statusWord t == 0x56 | _ => false) = true ∧
    (match step ({ State.reset with inLen := 4097 }.withFetchWord 32 0x20) with
      | .next t => statusWord t == 0x46 | _ => false) = true := by decide

/-! ## HOST accesses (95_test_vectors.md, bus behaviour, with IN_BUF_BYTES = 4096) -/

theorem test_bus_unmapped : hostRead State.reset 0x00024 4 = ⟨true, 0⟩ := by decide
theorem test_bus_half_register : hostRead State.reset 0x00004 2 = ⟨true, 0⟩ := by decide
theorem test_bus_misaligned : hostWriteResponse State.reset 0x10002 4 = ⟨true, 0⟩ := by decide
theorem test_bus_last_byte : hostWriteResponse State.reset 0x10FFF 1 = ⟨false, 0⟩ := by decide
theorem test_bus_beyond : hostWriteResponse State.reset 0x11000 1 = ⟨true, 0⟩ := by decide

/-- Program 1: `W32 0x10000, 0x626F6F66` stores `foob`, and a 16-bit read returns `fo`. -/
theorem test_bus_little_endian :
    (hostWrite State.reset 0x10000 4 0x626F6F66).inBuf = [(0, 0x66), (1, 0x6F), (2, 0x6F), (3, 0x62)] ∧
    hostRead (hostWrite State.reset 0x10000 4 0x626F6F66) 0x10000 2 = ⟨false, 0x6F66⟩ := by decide

/-- R24, ST8: STATUS while a command is in flight; R255: its operands are refused. -/
theorem test_bus_busy :
    hostRead (hostWrite State.reset 0x000 4 0x06) 0x004 4 = ⟨false, 1⟩ ∧
    hostWriteResponse (hostWrite State.reset 0x000 4 0x06) 0x008 4 = ⟨true, 0⟩ ∧
    hostRead (hostWrite State.reset 0x000 4 0x06) 0x40000 1 = ⟨true, 0⟩ := by decide

/-- R31, R34: the capacity registers of the reset state. -/
theorem test_bus_capacities : hostRead State.reset 0x018 4 = ⟨false, 4096⟩ ∧ hostRead State.reset 0x01C 4 = ⟨false, 8200⟩ := by
  decide

/-- ST7: the W1C of DONE leaves ERR and ERRCODE. -/
theorem test_status_w1c :
    statusWord (hostWrite (takeError .invalidSymbol 0x5A 2 State.reset) 0x004 4 0x2) = 0x34 := by decide

/-- PV6: `Zm\n9` keeps its positions. -/
theorem test_strip : stripWhitespace [0x5A, 0x6D, 0x0A, 0x39] = [⟨0x5A, some 0⟩, ⟨0x6D, some 1⟩, ⟨0x39, some 3⟩] := by decide

/-- PV8: form feed, vertical tab and NUL are not whitespace. -/
theorem test_strip_others : (stripWhitespace [0x41, 0x0C, 0x0B, 0x00]).length = 4 := by decide

/-- A step with one HOST event: the write of Program 2 to IRQ_EN. -/
theorem test_step_host :
    (match step { State.reset with hostQueue := [.write 0x020 4 1] } with
      | .next t => t.irqEn && decide (t.hostQueue = []) && decide (t.busResp = ⟨false, 0⟩) | _ => false) = true := by decide

/-! ## Witnesses: states and operands that meet the hypotheses of the statements -/

/-- A state with a command in flight, the ENGINE to move. -/
def inFlight (w : Word) : State := { State.reset with cmd := w, busy := true }

theorem witness_DecodeAndEncodeAgree : decodeWord 0x06 = .ok (.enc64 .upper false false) ∧
    (Instr.enc64 .upper false false).wellFormed = true ∧ encode (.enc64 .upper false false) = 0x06 := by decide

theorem witness_IllegalWordsAreAcceptedAndFail : State.reset.busy = false ∧ EngineMoves (inFlight 0x20) ∧
    ¬LegalWord (inFlight 0x20).cmd := by decide

theorem witness_LegalWordMatchesItsTableRowOnly : decodeWord 0xC9 = .ok (.dec64url .upper true true) := by decide

theorem witness_StepRunsTheDecodedCommand : EngineMoves (inFlight 0x87) ∧
    decodeWord (inFlight 0x87).cmd = .ok (.dec64 .upper false true) := by decide

theorem witness_PlacedCommandRunsNext : decodeWord 0x52 = .ok (.enc32 .lower true false) := by decide

theorem witness_TooLongInputEndsWithLengthRange : (Instr.enc64 .upper false false).wellFormed = true ∧
    { State.reset with latLen := 4097 }.config.inBufBytes < { State.reset with latLen := 4097 }.latLen.toNat := by decide

theorem witness_ForbiddenOptionEndsWithIllegalCommand : (Instr.enc16 .mixed false false).wellFormed = false := by decide

theorem witness_CommandsChangeOnlyTheirResults : ∃ t, exec (.enc64 .upper false false) State.reset = .next t ∧
    State.reset.config.Legal ∧ t.errBit = false ∧ t.outLen.toNat ≤ 5 := ⟨_, rfl, by decide, rfl, by decide⟩

theorem witness_ErrorCodesOfEachCommand : ∃ t, exec (.dec16 .upper false false) { loaded [0x41] with latLen := 1 } = .next t ∧
    t.errCode.toNat = 1 := ⟨_, rfl, by decide⟩

theorem witness_ResultDependsOnCommandAndInputOnly :
    let s₁ := { loaded [0x66] with cmd := 0x06, latLen := 1 }
    let s₂ := { s₁ with outLen := 7, inBuf := [(0, 0x66), (9, 0)] }
    s₂.cmd = s₁.cmd ∧ s₂.latLen = s₁.latLen ∧ s₂.config = s₁.config ∧
      (∀ j < s₁.latLen.toNat, inByte s₂ j = inByte s₁ j) ∧ ∃ t₁, engineStep s₁ = .next t₁ ∧ t₁.errBit = false ∧
      t₁.outLen = 4 :=
  ⟨rfl, rfl, rfl, by decide, _, rfl, by decide, by decide⟩

/-- The whole IN_BUF as input: the greatest length that is no LENGTH_RANGE. -/
theorem witness_encoders : State.reset.config.Legal ∧
    { State.reset with latLen := 4096 }.latLen.toNat ≤ { State.reset with latLen := 4096 }.config.inBufBytes ∧
    ((CaseMode.upper = .upper ∧ LetterCase.upper = .upper) ∨ (CaseMode.upper = .lower ∧ LetterCase.upper = .lower)) ∧
    ((CaseMode.lower = .upper ∧ LetterCase.lower = .upper) ∨ (CaseMode.lower = .lower ∧ LetterCase.lower = .lower)) := by
  decide

theorem witness_OutputAlwaysFits : Config.Legal ⟨1, 10⟩ ∧ ([0xFF] : List Byte).length ≤ 1 ∧
    decodeSymbols .hex .upper true false [] = .ok [] ∧ Config.Legal ⟨65536, 131080⟩ := by decide

theorem witness_EncodingIsInjective : ([1, 2] : List Byte).length = ([1, 2] : List Byte).length ∧
    EncodeCaseAllowed .hex .lower ∧ EncodeCaseAllowed .base64 .upper ∧
    encodeBytes .hex .lower true [1, 2] = encodeBytes .hex .lower true [1, 2] := ⟨rfl, by decide, by decide, rfl⟩

theorem witness_DecodeCommandsEndAsDecodeSays : State.reset.config.Legal ∧
    { State.reset with latLen := 4096 }.latLen.toNat ≤ { State.reset with latLen := 4096 }.config.inBufBytes ∧
    CaseMode.mixed ≠ .reserved ∧
    (Instr.dec32 .mixed true false = .dec32 .mixed true false ∧ Alphabet.base32 = .base32) ∧
    (Instr.dec64 .upper true true = .dec64 .upper true true ∧ Alphabet.base64 = .base64) := by decide

theorem witness_Dec16WritesOneBytePerPair :
    let s := { loaded [0x36, 0x46] with latLen := 2 }
    s.config.Legal ∧ s.latLen.toNat ≤ s.config.inBufBytes ∧ CaseMode.upper ≠ .reserved ∧ s.latLen.toNat % 2 = 0 ∧
      ∀ j < s.latLen.toNat, inv .hex .upper (inByte s j) = some (if j = 0 then 6 else 15) := by decide

/-- The input `4D 59 3D 3D 3D 3D 3D 3D` is the padded base32 encoding of `f`, and `5A 67` the unpadded base64 one. -/
theorem witness_DecodeCommandsUndoEncoding :
    let s := { loaded [0x4D, 0x59, 0x3D, 0x3D, 0x3D, 0x3D, 0x3D, 0x3D] with latLen := 8 }
    let t := { loaded [0x5A, 0x67] with latLen := 2 }
    s.config.Legal ∧ s.latLen.toNat ≤ s.config.inBufBytes ∧ CaseUndoes .upper .mixed ∧
      inputBytes s = encodeBytes .base32 .upper (!false) [0x66] ∧ t.latLen.toNat ≤ t.config.inBufBytes ∧
      inputBytes t = encodeBytes .base64 .upper (!true) [0x66] := by decide

theorem witness_DecodingUndoesEncoding : EncodeCaseAllowed .base64url .upper ∧ CaseUndoes .upper .upper ∧
    EncodeCaseAllowed .base32hex .lower ∧ CaseUndoes .lower .mixed := by decide

theorem witness_DecodedLength : decodeSymbols .base64 .upper false true [0x5A, 0x20, 0x67] = .ok [0x66] ∧
    decodeSymbols .hex .upper true false [0x36, 0x36] = .ok [0x66] := by decide

theorem witness_InvalidSymbolNamesAnInputByte :
    decodeSymbols .base64 .upper true true [0x5A, 0x20, 0x21, 0x3D, 0x3D] = .error ⟨.invalidSymbol, 0x21, 2⟩ ∧
    decodeSymbols .base64 .upper false false [0x5A, 0x67, 0x3D, 0x3D, 0x3D] = .error ⟨.invalidSymbol, 0x3D, 2⟩ := by decide

theorem witness_InvalidSymbol_in_the_registers :
    ∃ t, exec (.dec16 .upper false false) { loaded [0x36, 0x3D] with latLen := 2 } = .next t ∧ t.errCode.toNat = 3 :=
  ⟨_, rfl, by decide⟩

/-- One witness for each of the three places: `6=`; `Zg==Zm9v` at its index 2; and `Z!==`. -/
theorem witness_FirstBadSymbolIsReported :
    (([0x36] : List Byte) ++ 0x3D :: []).length % 2 = 0 ∧ (∀ x ∈ ([0x36] : List Byte), inv .hex .upper x ≠ none) ∧
      inv .hex .upper 0x3D = none ∧
    (([0x5A, 0x67] : List Byte) ++ 0x3D :: [0x3D, 0x5A, 0x6D, 0x39, 0x76]).length % symbolsPerGroup .base64 = 0 ∧
      ([0x5A, 0x67] : List Byte).length + symbolsPerGroup .base64 <
        (([0x5A, 0x67] : List Byte) ++ 0x3D :: [0x3D, 0x5A, 0x6D, 0x39, 0x76]).length ∧
      (∀ x ∈ ([0x5A, 0x67] : List Byte), inv .base64 .upper x ≠ none) ∧ inv .base64 .upper 0x3D = none ∧
    ([] : List Byte).length % symbolsPerGroup .base64 = 0 ∧
      (([0x5A] : List Byte) ++ 0x21 :: []).length + 2 = symbolsPerGroup .base64 ∧ LegalPadCount .base64 2 ∧
      padByte ∉ ([0x5A] : List Byte) ++ 0x21 :: [] ∧ (∀ x ∈ ([] : List Byte) ++ [0x5A], inv .base64 .upper x ≠ none) ∧
      inv .base64 .upper 0x21 = none := by decide

theorem witness_NopadDecodesTheRepaddedInput : Alphabet.base64 ≠ .hex ∧
    ([0x5A, 0x67, 0x3D] : List Byte).length % symbolsPerGroup .base64 ≠ 0 := by decide

/-- A legal final group `Zg==` and an illegal one `Z===`. -/
theorem witness_FinalGroupShapeDecidesPaddingError : Alphabet.base64 ≠ .hex ∧
    ([0x5A, 0x6D, 0x39, 0x76] : List Byte).length % symbolsPerGroup .base64 = 0 ∧
    ([0x5A, 0x67, 0x3D, 0x3D] : List Byte).length = symbolsPerGroup .base64 ∧
    (∀ x ∈ ([0x5A, 0x6D, 0x39, 0x76] : List Byte), inv .base64 .upper x ≠ none) ∧
    LegalFinalGroup .base64 [0x5A, 0x67, 0x3D, 0x3D] ∧
    decodeSymbols .base64 .upper true false [0x5A, 0x3D, 0x3D, 0x3D] = .error ⟨.incorrectPadding, 0, 0⟩ :=
  ⟨by decide, by decide, by decide, by decide, ⟨[0x5A, 0x67], 2, by decide, by decide, by decide⟩, by decide⟩

theorem witness_FullGroupDecodesInFront : ([0x5A, 0x6D, 0x39, 0x76] : List Byte).length = symbolsPerGroup .base64 ∧
    (∀ x ∈ ([0x5A, 0x6D, 0x39, 0x76] : List Byte), inv .base64 .upper x ≠ none) ∧
    decodeSymbols .base64 .upper true false [0x5A, 0x67, 0x3D, 0x3D] = .ok [0x66] := by decide

/-- Symbols of the highest value, and a mixed-case group whose last symbol leaves non-zero bits over. -/
theorem witness_FinalGroupBytes : (∀ j < 4, inv .base64url .upper ((fun _ => 0x5F) j) = some ((fun _ => 63) j)) ∧
    (∀ j < 8, inv .base32 .mixed ((fun j => if j = 0 then 0x4D else 0x7A) j) =
      some ((fun j => if j = 0 then 12 else 25) j)) ∧ DecodeCaseAllowed .base32 .mixed ∧
    DecodeCaseAllowed .base32hex .lower := by decide

/-- `mz` in mixed case: 12 and 25 give 0x66 and the left-over bits 01 are dropped (R149). -/
theorem test_dec32_mixed_discarded_bits :
    decodeSymbols .base32 .mixed true false [0x4D, 0x7A, 0x3D, 0x3D, 0x3D, 0x3D, 0x3D, 0x3D] = .ok [0x66] := by decide

/-- DV48, and the same bad byte twice: the first one, at index 3 of `Zm !YmF 8!`, is reported (R157, R207). -/
theorem witness_IgnDecodesTheStrippedInput :
    decodeSymbols .base64 .upper true true [0x5A, 0x6D, 0x39, 0x76, 0x20, 0x59, 0x6D, 0x46, 0x21] =
      .error ⟨.invalidSymbol, 0x21, 8⟩ ∧
    decodeSymbols .base64 .upper true true [0x5A, 0x6D, 0x20, 0x21, 0x59, 0x6D, 0x46, 0x20, 0x38, 0x21] =
      .error ⟨.invalidSymbol, 0x21, 3⟩ ∧
    decodeSymbols .base64 .upper true true [0x5A, 0x20, 0x67] = .error ⟨.incorrectPadding, 0, 0⟩ := by decide

theorem witness_EmptyInputDecodesToNothing : ∀ c ∈ ([0x20, 0x0A] : List Byte), isWhitespace c = true := by decide

theorem witness_InverseLookupIsExact : DecodeCaseAllowed .base64url .upper ∧ DecodeCaseAllowed .hex .mixed ∧
    inv .base64url .upper 0x5F = some 63 := by decide

theorem witness_RomInvariants : EncodeCaseAllowed .base32hex .lower ∧ 31 < 2 ^ bitsPerSymbol .base32hex ∧
    EncodeCaseAllowed .base64 .upper ∧ 63 < 2 ^ bitsPerSymbol .base64 := by decide

theorem witness_PadProperties : 1 ≤ 1 ∧ 1 ≤ 8 := by decide

/-- The tables the statements about base32, base64 and letter case are about. -/
theorem witness_tables : (Alphabet.base64url = .base64 ∨ Alphabet.base64url = .base64url) ∧
    (Alphabet.base32hex = .base32 ∨ Alphabet.base32hex = .base32hex) ∧
    (Alphabet.hex = .hex ∨ Alphabet.hex = .base32 ∨ Alphabet.hex = .base32hex) ∧ Alphabet.base32 ≠ .hex := by decide

theorem witness_register_offsets : (0x014 : Offset) = 0x00C ∨ (0x014 : Offset) = 0x010 ∨ (0x014 : Offset) = 0x014 := by decide

theorem witness_CapacityRegisters : State.reset.config.Legal ∧ ∃ t, step State.reset = .next t := ⟨by decide, _, rfl⟩

theorem witness_NoRunEverStops : Inv { State.reset with config := ⟨1, 10⟩ } := by
  constructor <;> simp [State.reset, Memory.wf, Memory.within, Config.Legal]

theorem witness_idle : State.reset.busy = false ∧ State.reset.hostQueue = [] := by decide

theorem witness_BusErrorsChangeNothing :
    (hostRead State.reset 0x24 4).error = true ∧ (hostWriteResponse State.reset 0x7FFFF 1).error = true ∧
    HostMovesWith { State.reset with hostQueue := [.read 0x24 4] } (.read 0x24 4) [] ∧
    HostMovesWith { State.reset with hostQueue := [.write 0x7FFFF 1 0] } (.write 0x7FFFF 1 0) [] := by decide

theorem witness_ReadsHaveNoSideEffect :
    HostMovesWith { State.reset with hostQueue := [.read 0x004 4, .rst] } (.read 0x004 4) [.rst] := by decide

/-- The offsets at the ends of the forbidden ranges: CMD, IN_LEN, the first and the last IN_BUF byte, the first OUT_BUF
byte, and STATUS and IRQ_EN, which stay open. -/
theorem witness_BusyBlockRefusesOperandAndOutputAccesses :
    (inFlight 0x06).busy = true ∧ (inFlight 0x06).config.Legal ∧ (0x000 : Offset).toNat < 4 ∧
    8 ≤ (0x008 : Offset).toNat ∧ (0x008 : Offset).toNat < 12 ∧ 0x10000 ≤ (0x10FFF : Offset).toNat ∧
    (0x10FFF : Offset).toNat < 0x10000 + (inFlight 0x06).config.inBufBytes ∧ 0x40000 ≤ (0x40000 : Offset).toNat ∧
    (0x020 : Offset).toNat < 0x10000 ∧ 12 ≤ (0x020 : Offset).toNat ∧ (0x004 : Offset).toNat = 4 ∧
    0x10000 + (inFlight 0x06).config.inBufBytes ≤ (0x11000 : Offset).toNat ∧
    0x10000 + (inFlight 0x06).config.inBufBytes ≤ (0x3FFFF : Offset).toNat ∧ (0x3FFFF : Offset).toNat < 0x40000 := by decide

theorem reset_inv : Inv State.reset := by
  constructor <;> simp [State.reset, Memory.wf, Memory.within, Config.atReset, Config.Legal]

theorem inFlight_inv : Inv (inFlight 0x06) := by
  constructor <;> simp [inFlight, State.reset, Memory.wf, Memory.within, Config.atReset, Config.Legal]

theorem witness_Inv_of_a_busy_state : Inv (inFlight 0x06) ∧ (inFlight 0x06).busy = true := ⟨inFlight_inv, rfl⟩

theorem witness_StatusWritesAndWhoChangesErr : ∃ t, step (inFlight 0x20) = .next t ∧
    (t.errBit ≠ (inFlight 0x20).errBit ∨ t.errCode ≠ (inFlight 0x20).errCode) ∧
    (2 : Word).getLsbD 1 = true ∧ (1 : Word).getLsbD 1 = false := ⟨_, rfl, by decide, by decide, by decide⟩

theorem witness_OnlyTheseEventsChangeTheRegisters :
    ∃ t, step { State.reset with hostQueue := [.write 0x10000 1 0x41] } = .next t ∧
      t.inBuf ≠ { State.reset with hostQueue := [.write 0x10000 1 0x41] }.inBuf := ⟨_, rfl, by decide⟩

theorem witness_InterruptOutput : (2 : Word).getLsbD 1 = true ∧ (0 : Word).getLsbD 0 = false ∧
    irq { State.reset with doneBit := true, irqEn := true } = true := by decide

/-- The last aligned word of IN_BUF and the first byte of OUT_BUF. -/
theorem witness_BufferWriteThenRead : State.reset.busy = false ∧ State.reset.config.Legal ∧ (0x10FFC : Offset).toNat % 4 = 0 ∧
    (0x10FFC : Offset).toNat = 0x10000 + 0xFFC ∧ 0xFFC + 4 ≤ State.reset.config.inBufBytes ∧
    (0x40000 : Offset).toNat % 1 = 0 ∧ (0x40000 : Offset).toNat = 0x40000 + 0 ∧ 0 + 1 ≤ State.reset.config.outBufBytes := by
  decide

/-- The last place of each width in IN_BUF, and in OUT_BUF. -/
theorem witness_MixedWidthReadsSeeTheSameBytes : State.reset.config.Legal ∧ State.reset.busy = false ∧
    (0x10FFC : Offset).toNat = 0x10000 + 0xFFC ∧ 0xFFC % 4 = 0 ∧ 0xFFC + 4 ≤ State.reset.config.inBufBytes ∧
    (0x10FFE : Offset).toNat = 0x10000 + 0xFFE ∧ 0xFFE % 2 = 0 ∧ 0xFFE + 2 ≤ State.reset.config.inBufBytes ∧
    (0x10FFF : Offset).toNat = 0x10000 + 0xFFF ∧ 0xFFF + 1 ≤ State.reset.config.inBufBytes ∧
    (0x42004 : Offset).toNat = 0x40000 + 8196 ∧ 8196 % 4 = 0 ∧ 8196 + 4 ≤ State.reset.config.outBufBytes ∧
    (0x42006 : Offset).toNat = 0x40000 + 8198 ∧ 8198 % 2 = 0 ∧ 8198 + 2 ≤ State.reset.config.outBufBytes ∧
    (0x42007 : Offset).toNat = 0x40000 + 8199 ∧ 8199 + 1 ≤ State.reset.config.outBufBytes := by decide

theorem witness_WriteAnswersCarryDataZero :
    HostMovesWith { State.reset with hostQueue := [.write 0x000 4 6] } (.write 0x000 4 6) [] := by decide

/-- Reset while a command waits for one more HOST access (R252). -/
theorem witness_ResetState :
    HostMovesWith { inFlight 0x06 with engineDelay := 1, hostQueue := [.rst] } .rst [] := by decide

theorem witness_HostAccessesAreTakenInOrder :
    HostMovesWith { State.reset with hostQueue := [.write 0x000 4 6, .waitDone] } (.write 0x000 4 6) [.waitDone] ∧
    HostMovesWith { inFlight 0x06 with engineDelay := 2, hostQueue := [.waitDone] } .waitDone [] ∧
    HostMovesWith { State.reset with hostQueue := [.rst, .waitDone] } .rst [.waitDone] := by decide

theorem witness_EngineStepComesWithFrozenOperands :
    let s := { inFlight 0x06 with engineDelay := 3, hostQueue := [.waitDone, .read 0x004 4] }
    s.busy = true ∧ ∀ ev ∈ s.hostQueue, ev ≠ .rst := by decide

theorem witness_InvariantHoldsAtReset : Config.Legal ⟨1, 10⟩ ∧ Config.Legal ⟨65536, 262144⟩ ∧ Inv (inFlight 0x06) :=
  ⟨by decide, by decide, inFlight_inv⟩

theorem witness_StepKeepsTheInvariant : Inv (inFlight 0x06) ∧ ∃ t, step (inFlight 0x06) = .next t :=
  ⟨inFlight_inv, _, rfl⟩

end Sys2Proof.Tests
end

/-! SUPPORT. How long the output of a codec can be: never more than `2n + 8` bytes for `n` input bytes (R135, R160), which is
what the legal capacities of R5 leave room for. -/

namespace Sys2Proof.Machine

/-! ## Encoding -/

/-- A tail gives fewer symbols than a group (R123). -/
theorem tailRow_lt {k t m z : Nat} (h : tailRow k t = some (m, z)) : k = 6 ∧ m < 4 ∨ k = 5 ∧ m < 8 := by
  unfold tailRow at h
  split at h <;> simp_all <;> omega

theorem tailRow_lt_symbolsPerGroup {a : Alphabet} {t m z : Nat} (h : tailRow (bitsPerSymbol a) t = some (m, z)) :
    m < symbolsPerGroup a := by
  have := tailRow_lt h
  cases a <;> simp [bitsPerSymbol, symbolsPerGroup] at this ⊢ <;> exact this

theorem length_encodeTail_lt (a : Alphabet) (F : Nat → Byte) (x : List Byte) :
    (encodeTail a F x).length < symbolsPerGroup a := by
  rw [length_encodeTail]
  split
  · exact tailRow_lt_symbolsPerGroup ‹_›
  · exact symbolsPerGroup_pos a

/-- Full groups and at most one more, which the tail and its padding fill. -/
theorem length_encodeBytes_le_groups (a : Alphabet) (lc : LetterCase) (pad : Bool) (x : List Byte) :
    (encodeBytes a lc pad x).length ≤ (x.length / bytesPerGroup a + 1) * symbolsPerGroup a := by
  have htail := length_encodeTail_lt a (fwd a lc) x
  have hlen : (encodeGroups a (fwd a lc) x ++ encodeTail a (fwd a lc) x).length =
      x.length / bytesPerGroup a * symbolsPerGroup a + (encodeTail a (fwd a lc) x).length := by
    rw [List.length_append, length_encodeGroups]
  have hmod : (encodeGroups a (fwd a lc) x ++ encodeTail a (fwd a lc) x).length % symbolsPerGroup a =
      (encodeTail a (fwd a lc) x).length := by
    rw [hlen, Nat.mul_add_mod', Nat.mod_eq_of_lt htail]
  unfold encodeBytes
  simp only
  rw [Nat.add_mul, Nat.one_mul]
  split
  · rw [length_padSymbols, hmod]
    split <;> omega
  · omega

/-- R135: the bound on every encoding. -/
theorem length_encodeBytes_le (a : Alphabet) (lc : LetterCase) (pad : Bool) (x : List Byte) :
    (encodeBytes a lc pad x).length ≤ 2 * x.length + 8 := by
  have h := length_encodeBytes_le_groups a lc pad x
  cases a <;> simp only [bytesPerGroup, symbolsPerGroup] at h <;> omega

/-! ## Decoding -/

/-- R160 for base16: one byte per pair of symbols. -/
theorem decodeHex_ok_length {I : Byte → Option Nat} {u : List Symbol} {y : List Byte} (h : decodeHex I u = .ok y) :
    y.length = u.length / 2 := by
  unfold decodeHex at h
  split at h
  · simp at h
  · simpa [length_symbolGroups] using decodeGroups_ok_length h

/-- R160 for the other tables: `B` bytes for every group but the last, and as many for the last as its shape gives. -/
theorem decodeAligned_ok_length {I : Byte → Option Nat} {k B S : Nat} {u : List Symbol} {y : List Byte}
    (h : decodeAligned I k B S u = .ok y) :
    (u.length / S = 0 ∧ y = []) ∨
    (0 < u.length / S ∧ ∃ p nb, legalShape k p = some nb ∧ y.length = (u.length / S - 1) * B + nb) := by
  unfold decodeAligned at h
  simp only at h
  split at h
  · rename_i hG
    exact .inl ⟨hG, (Except.ok.inj h).symm⟩
  · rename_i hG
    split at h
    · simp at h
    · rename_i front hfront
      rcases decodeFinal_cases I k S ((u.drop ((u.length / S - 1) * S)).take S) with hf | ⟨c, -, -, -, -, hf⟩ |
        ⟨nb, w, hshape, hf⟩
      · simp [hf] at h
      · simp [hf] at h
      · simp only [hf, Except.ok.injEq] at h
        have hlen := decodeGroups_ok_length hfront
        rw [length_symbolGroups] at hlen
        exact .inr ⟨Nat.pos_of_ne_zero hG, _, nb, hshape, by simp [← h, hlen]⟩

/-- The final group gives at most a full group of bytes (R146). -/
theorem legalShape_le_bytesPerGroup {a : Alphabet} {p nb : Nat} (h : legalShape (bitsPerSymbol a) p = some nb) :
    nb ≤ bytesPerGroup a := by
  have := (legalShape_le h).2
  cases a <;> simp [bitsPerSymbol, bytesPerGroup] at this ⊢ <;> omega

/-- Decoding an aligned sequence gives no more bytes than there are symbols. -/
theorem length_decodeAligned_le {I : Byte → Option Nat} {a : Alphabet} {u : List Symbol} {y : List Byte}
    (h : decodeAligned I (bitsPerSymbol a) (bytesPerGroup a) (symbolsPerGroup a) u = .ok y) : y.length ≤ u.length := by
  rcases decodeAligned_ok_length h with ⟨-, rfl⟩ | ⟨hpos, p, nb, hshape, hlen⟩
  · exact Nat.zero_le _
  · have hnb := legalShape_le_bytesPerGroup hshape
    cases a <;> simp only [bytesPerGroup, symbolsPerGroup] at hpos hlen hnb <;> omega

/-- Re-padding adds less than a group (R144). -/
theorem alignSymbols_ok_length_lt {S : Nat} (hS : 0 < S) {pad : Bool} {u v : List Symbol}
    (h : alignSymbols S pad u = .ok v) : v.length < u.length + S := by
  rcases alignSymbols_cases S pad u with ⟨-, -, ha⟩ | ⟨-, -, ha⟩ | ⟨-, ha⟩ <;> rw [ha] at h
  · simp at h
  · obtain rfl := Except.ok.inj h
    omega
  · obtain rfl := Except.ok.inj h
    have := Nat.mod_lt (S - u.length % S) hS
    simp only [List.length_append, List.length_replicate]
    omega

/-- A decode gives at most one byte per symbol of the input and its re-padding. -/
theorem length_decodeSymbols_le {a : Alphabet} {cs : CaseMode} {pad ign : Bool} {s y : List Byte}
    (h : decodeSymbols a cs pad ign s = .ok y) : y.length ≤ s.length + 8 := by
  unfold decodeSymbols at h
  simp only at h
  have hu : (if ign = true then stripWhitespace s else positioned s).length ≤ s.length := by
    split
    · exact length_stripWhitespace_le s
    · exact (length_positioned s).le
  generalize (if ign = true then stripWhitespace s else positioned s) = u at h hu
  split at h
  · have := decodeHex_ok_length h
    omega
  · split at h
    · simp at h
    · rename_i v hv
      have hS : symbolsPerGroup a ≤ 8 := by cases a <;> decide
      have := alignSymbols_ok_length_lt (symbolsPerGroup_pos a) hv
      have := length_decodeAligned_le h
      omega

/-! ## The codec of a command -/

/-- A command encodes, which cannot fail, or decodes (R120, R140). -/
theorem codecOf_cases (i : Instr) :
    (∃ a lc pad, ∀ x, codecOf i x = .ok (encodeBytes a lc pad x)) ∨
    (∃ a cs pad ign, ∀ x, codecOf i x = decodeSymbols a cs pad ign x) := by
  cases i with
  | enc16 | enc32 | enc32hex | enc64 | enc64url => exact .inl ⟨_, _, _, fun _ => rfl⟩
  | dec16 cs np => exact .inr ⟨.hex, cs, !np, false, fun _ => rfl⟩
  | dec32 cs np => exact .inr ⟨.base32, cs, !np, false, fun _ => rfl⟩
  | dec32hex cs np => exact .inr ⟨.base32hex, cs, !np, false, fun _ => rfl⟩
  | dec64 _ np ig => exact .inr ⟨.base64, .upper, !np, ig, fun _ => rfl⟩
  | dec64url _ np ig => exact .inr ⟨.base64url, .upper, !np, ig, fun _ => rfl⟩

theorem length_codecOf_le {i : Instr} {x y : List Byte} (h : codecOf i x = .ok y) : y.length ≤ 2 * x.length + 8 := by
  rcases codecOf_cases i with ⟨a, lc, pad, henc⟩ | ⟨a, cs, pad, ign, hdec⟩
  · rw [henc] at h
    obtain rfl := Except.ok.inj h
    exact length_encodeBytes_le a lc pad x
  · rw [hdec] at h
    have := length_decodeSymbols_le h
    omega

end Sys2Proof.Machine

/-! SUPPORT. The ENGINE step as one result and one way of completing with it (R80): the result is a function of the command
word, the latched length, the capacities and the input, and completing with a result is `finishCommand`. -/

namespace Sys2Proof.Machine

/-- What the command in CMD ends with (R80): the checks in the order of R207, then its codec on the input. -/
def commandResult (s : State) : CodecResult :=
  match decodeWord s.cmd with
  | .error _ => .error (plainError .illegalCommand)
  | .ok i =>
    if i.wellFormed = false then .error (plainError .illegalCommand)
    else if s.config.inBufBytes < s.latLen.toNat then .error (plainError .lengthRange)
    else codecOf i (inputBytes s)

/-- The ENGINE step completes with the command's result. -/
theorem engineStep_eq_finishCommand (s : State) : engineStep s = finishCommand (commandResult s) s := by
  rcases engineStep_cases s with ⟨i, hdec, hstep⟩ | ⟨r, hdec, hstep⟩
  · rcases exec_cases i s with ⟨hwf, hexec⟩ | ⟨hwf, hlen, hexec⟩ | ⟨hwf, hlen, hexec⟩
    · simp [hstep, hexec, commandResult, hdec, hwf, finishCommand, plainError]
    · simp [hstep, hexec, commandResult, hdec, hwf, hlen, finishCommand, plainError]
    · simp [hstep, hexec, commandResult, hdec, hwf, Nat.not_lt.2 hlen]
  · simp [hstep, commandResult, hdec, finishCommand, plainError]

/-- The result looks at the command word, the latched length, the capacities and the input bytes, and at nothing else. -/
theorem commandResult_congr {s t : State} (hcmd : t.cmd = s.cmd) (hlen : t.latLen = s.latLen)
    (hconfig : t.config = s.config) (hbytes : ∀ j < s.latLen.toNat, inByte t j = inByte s j) :
    commandResult t = commandResult s := by
  unfold commandResult
  rw [hcmd, hlen, hconfig, inputBytes_congr hlen hbytes]

/-- A command succeeds with the output of its codec, on an input that fits IN_BUF. -/
theorem commandResult_ok {s : State} {y : List Byte} (h : commandResult s = .ok y) :
    ∃ i, decodeWord s.cmd = .ok i ∧ i.wellFormed = true ∧ s.latLen.toNat ≤ s.config.inBufBytes ∧
      codecOf i (inputBytes s) = .ok y := by
  unfold commandResult at h
  split at h
  · simp at h
  · rename_i i hdec
    split at h
    · simp at h
    · rename_i hwf
      split at h
      · simp at h
      · exact ⟨i, hdec, by simpa using hwf, by omega, h⟩

/-- R135: under legal capacities the output of a command fits OUT_BUF. -/
theorem commandResult_ok_length_le {s : State} (hlegal : s.config.Legal) {y : List Byte} (h : commandResult s = .ok y) :
    y.length ≤ s.config.outBufBytes := by
  obtain ⟨i, -, -, hlen, hcodec⟩ := commandResult_ok h
  have hy := length_codecOf_le hcodec
  obtain ⟨-, -, hcap, -⟩ := hlegal
  rw [length_inputBytes] at hy
  omega

/-- What a completed ENGINE step leaves: the completion with the command's output, or with its error. -/
theorem engineStep_next_cases {s t : State} (h : engineStep s = .next t) :
    (∃ y, commandResult s = .ok y ∧ y.length ≤ s.config.outBufBytes ∧ t = completeOk y s) ∨
    (∃ e, commandResult s = .error e ∧ t = takeError e.code e.byte e.pos s) := by
  rw [engineStep_eq_finishCommand] at h
  rcases finishCommand_cases (commandResult s) s with ⟨y, hr, hy, hf⟩ | ⟨y, -, -, hf⟩ | ⟨e, hr, hf⟩ <;> rw [hf] at h
  · exact .inl ⟨y, hr, hy, (Host.Outcome.next.inj h).symm⟩
  · simp at h
  · exact .inr ⟨e, hr, (Host.Outcome.next.inj h).symm⟩

/-- R11, R135: under legal capacities the ENGINE step always completes. -/
theorem engineStep_next_of_legal {s : State} (hlegal : s.config.Legal) : ∃ t, engineStep s = .next t := by
  rw [engineStep_eq_finishCommand]
  rcases finishCommand_cases (commandResult s) s with ⟨y, -, -, hf⟩ | ⟨y, hr, hlong, -⟩ | ⟨e, -, hf⟩
  · exact ⟨_, hf⟩
  · exact absurd (commandResult_ok_length_le hlegal hr) (by omega)
  · exact ⟨_, hf⟩

theorem engineStep_config {s t : State} (h : engineStep s = .next t) : t.config = s.config := by
  rcases engineStep_next_cases h with ⟨y, -, -, rfl⟩ | ⟨e, -, rfl⟩ <;> rfl

end Sys2Proof.Machine

/-! SUPPORT. The HOST's move: the step that performs a queued event, and what taking the event off the queue leaves alone. -/

namespace Sys2Proof.Machine

/-- With nothing to perform the block keeps its state (R216). -/
theorem step_of_idle {s : State} (hbusy : s.busy = false) (hqueue : s.hostQueue = []) : step s = .next s := by
  simp [step, engineMovesNext, hostMove, hbusy, hqueue]

/-- When the ENGINE does not move, the step performs the oldest event (R61 (a)). -/
theorem step_of_hostMovesWith {s : State} {ev : HostEvent} {rest : List HostEvent} (h : HostMovesWith s ev rest) :
    step s = .next (performEvent (dequeueEvent s rest) ev) := by
  obtain ⟨hqueue, hengine⟩ := h
  simp [step, engineMovesNext, hostMove, hqueue, hengine]

section
variable (s : State) (rest : List HostEvent) (addr : Offset) (n : Nat)

@[simp] theorem permitted_dequeueEvent (isWrite : Bool) :
    permitted (dequeueEvent s rest) addr n isWrite = permitted s addr n isWrite := rfl

@[simp] theorem readTarget_dequeueEvent (t : Target) : readTarget (dequeueEvent s rest) n t = readTarget s n t := by
  cases t with
  | reg r => cases r <;> rfl
  | inBuf i => rfl
  | outBuf i => rfl

@[simp] theorem hostRead_dequeueEvent : hostRead (dequeueEvent s rest) addr n = hostRead s addr n := by
  simp [hostRead]

@[simp] theorem hostWriteResponse_dequeueEvent :
    hostWriteResponse (dequeueEvent s rest) addr n = hostWriteResponse s addr n := rfl

/-- A permitted write does the same to a state whose queue and delay differ; only a command's start sets the delay anew. -/
theorem writeTarget_dequeueEvent (v : Word) (t : Target) :
    ∃ d, writeTarget (dequeueEvent s rest) n v t = { writeTarget s n v t with hostQueue := rest, engineDelay := d } := by
  cases t with
  | inBuf i => exact ⟨_, rfl⟩
  | outBuf i => exact ⟨_, rfl⟩
  | reg r =>
    cases r with
    | status =>
      refine ⟨s.engineDelay - 1, ?_⟩
      simp only [writeTarget, writeReg]
      split <;> rfl
    | cmd | inLen | outLen | errByte | errPos | inCap | outCap | irqEn => exact ⟨_, rfl⟩

theorem hostWrite_dequeueEvent (v : Word) :
    ∃ d, hostWrite (dequeueEvent s rest) addr n v =
      { hostWrite s addr n v with hostQueue := rest, engineDelay := d } := by
  unfold hostWrite
  rw [permitted_dequeueEvent]
  cases permitted s addr n true with
  | none => exact ⟨_, rfl⟩
  | some t => exact writeTarget_dequeueEvent s rest n v t

end

/-- An access that R255 does not forbid reaches what the map gives, with a command in flight or not. -/
theorem permitted_of_not_forbidden {s : State} {addr : Offset} {n : Nat} {isWrite : Bool} {t : Target}
    (ht : targetOf s.config addr n = some t) (hf : forbiddenWhileBusy isWrite t = false) :
    permitted s addr n isWrite = some t := by
  simp [permitted, ht, Option.filter, hf]

/-- STATUS is readable in every state. -/
theorem hostRead_statusOffset (s : State) : hostRead s statusOffset 4 = ⟨false, statusWord s⟩ := by
  have hp : permitted s statusOffset 4 false = some (.reg .status) := permitted_of_not_forbidden rfl rfl
  rw [hostRead, hp]
  rfl

/-- Bit 1 of STATUS is DONE (R25). -/
@[simp] theorem statusWord_getLsbD_one (s : State) : (statusWord s).getLsbD 1 = s.doneBit := by
  unfold statusWord
  rw [BitVec.getLsbD_append, BitVec.getLsbD_append]
  simp

/-- `WAIT_DONE` reads STATUS and stays at the head of the queue until DONE is 1 (R14). -/
theorem performEvent_waitDone (s : State) :
    performEvent s .waitDone =
      { s with busResp := hostRead s statusOffset 4,
               hostQueue := if s.doneBit then s.hostQueue else .waitDone :: s.hostQueue } := by
  unfold performEvent
  rw [hostRead_statusOffset, statusWord_getLsbD_one]
  cases s.doneBit <;> rfl

/-! ## The capacities stay -/

theorem hostWrite_config (s : State) (addr : Offset) (n : Nat) (v : Word) :
    (hostWrite s addr n v).config = s.config := by
  rcases hostWrite_cases s addr n v with h | ⟨-, h⟩ | h | ⟨-, h⟩ | h | ⟨-, i, -, h⟩ | ⟨-, i, -, h⟩ <;> simp [h]

theorem performEvent_config (s : State) (ev : HostEvent) : (performEvent s ev).config = s.config := by
  cases ev with
  | read addr n => rfl
  | write addr n v => exact hostWrite_config s addr n v
  | waitDone => simp [performEvent_waitDone]
  | rst => rfl

theorem hostMove_config (s : State) : (hostMove s).config = s.config := by
  rcases hostMove_cases s with ⟨-, h⟩ | ⟨ev, rest, -, h⟩
  · rw [h]
  · rw [h, performEvent_config, dequeueEvent_config]

/-- No step changes the capacities (R5). -/
theorem step_config {s t : State} (h : step s = .next t) : t.config = s.config := by
  rcases step_cases s with ⟨-, -, hs⟩ | ⟨-, hs⟩ <;> rw [hs] at h
  · exact engineStep_config h
  · obtain rfl := Host.Outcome.next.inj h
    exact hostMove_config s

end Sys2Proof.Machine

/-! The statements of 00_scope.md: no run stops, the result depends on the command and its input alone, and HOST accesses are
taken in order. -/

namespace Sys2Proof

open Sys2Proof.Machine

/-! ## Progress -/

/-- Under legal capacities every step answers a next state. -/
theorem step_next_of_legal {s : State} (hlegal : s.config.Legal) : ∃ t, step s = .next t := by
  rcases step_cases s with ⟨-, -, hs⟩ | ⟨-, hs⟩
  · rw [hs]
    exact engineStep_next_of_legal hlegal
  · exact ⟨_, hs⟩

theorem run_succ_of_step {s t : State} (h : step s = .next t) (k : Nat) :
    Sys2Proof.core.run (k + 1) s = Sys2Proof.core.run k t := by
  simp only [Host.Core.run, Sys2Proof.core, h]

/-- A run never stops from a state with a property that guarantees a next step and passes on to the next state. -/
theorem neverStops_of_progress {P : State → Prop} (hnext : ∀ s, P s → ∃ t, step s = .next t)
    (hkeep : ∀ s t, P s → step s = .next t → P t) {s : State} (hs : P s) : NeverStops s := by
  intro k
  induction k generalizing s with
  | zero => exact ⟨s, rfl⟩
  | succ k ih =>
    obtain ⟨t, ht⟩ := hnext s hs
    rw [run_succ_of_step ht]
    exact ih (hkeep s t hs ht)

/-- Settles O59: legal capacities are all that progress needs, since every output then fits OUT_BUF, and no step changes
them. -/
theorem noRunEverStops : Obligations.NoRunEverStops := by
  intro s hinv
  exact neverStops_of_progress (P := fun s => s.config.Legal) (fun _ hlegal => step_next_of_legal hlegal)
    (fun _ _ hlegal hstep => step_config hstep ▸ hlegal) hinv.config_legal

/-! ## Two runs -/

/-- Completing with one output stores the same bytes whatever OUT_BUF held before. -/
theorem readCell_completeOk_of_lt_outLen (y : List Byte) (s₁ s₂ : State) {j : Nat}
    (hj : j < (completeOk y s₁).outLen.toNat) :
    readCell (completeOk y s₂).outBuf j = readCell (completeOk y s₁).outBuf j := by
  have hlt : j < y.length := by
    rw [completeOk_outLen, BitVec.toNat_ofNat] at hj
    exact hj.trans_le (Nat.mod_le _ _)
  simp [readCell_writeCells, hlt]

/-- Settles O11: both ENGINE steps complete with the same result. -/
theorem resultDependsOnCommandAndInputOnly : Obligations.ResultDependsOnCommandAndInputOnly := by
  intro s₁ s₂ t₁ hcmd hlen hconfig hbytes hstep
  have hresult : commandResult s₂ = commandResult s₁ := commandResult_congr hcmd hlen hconfig hbytes
  rw [engineStep_eq_finishCommand s₂, hresult]
  rcases engineStep_next_cases hstep with ⟨y, hr, hy, rfl⟩ | ⟨e, hr, rfl⟩
  · refine ⟨completeOk y s₂, ?_, rfl, rfl, rfl, rfl, rfl, fun _ j hj => readCell_completeOk_of_lt_outLen y s₁ s₂ hj⟩
    simp [hr, finishCommand, hconfig, hy]
  · refine ⟨takeError e.code e.byte e.pos s₂, ?_, rfl, rfl, rfl, rfl, rfl, fun herr => ?_⟩
    · rw [hr]
      rfl
    · simp at herr

/-! ## The order of HOST accesses -/

/-- Settles O55: each clause is what the step performs on the queue's oldest event. -/
theorem hostAccessesAreTakenInOrder : Obligations.HostAccessesAreTakenInOrder := by
  refine ⟨fun s => step_of_idle, fun s addr n v rest h => ?_, fun s rest h => ?_, fun s rest h => ?_⟩
  · obtain ⟨d, hd⟩ := hostWrite_dequeueEvent s rest addr n v
    refine ⟨_, step_of_hostMovesWith h, ?_, ?_, d, ?_⟩ <;> simp [performEvent, hd]
  · refine ⟨_, step_of_hostMovesWith h, ?_, ?_, ?_⟩ <;> rw [performEvent_waitDone]
    · exact hostRead_dequeueEvent s rest statusOffset 4
    · rfl
    · rfl
  · exact ⟨_, step_of_hostMovesWith h, rfl⟩

end Sys2Proof

/-! SUPPORT. The errors a codec can raise: which bytes and positions an error carries, by its code (R11, R157). -/

namespace Sys2Proof.Machine

/-- What ERR_BYTE and ERR_POS may be told of an input of `n` bytes: nothing unless the code is INVALID_SYMBOL, and then an
index of the input (R29, R30). -/
def CodecError.Reportable (e : CodecError) (n : Nat) : Prop :=
  (e.code ≠ .invalidSymbol → e.byte = 0 ∧ e.pos = 0) ∧ (e.code = .invalidSymbol → e.pos < n)

theorem plainError_reportable {c : ErrCode} (hc : c ≠ .invalidSymbol) (n : Nat) : (plainError c).Reportable n :=
  ⟨fun _ => ⟨rfl, rfl⟩, fun h => absurd h hc⟩

theorem symbolError_reportable {c : Symbol} {n : Nat} (hc : c.pos.getD 0 < n) : (symbolError c).Reportable n :=
  ⟨fun h => absurd rfl h, fun _ => hc⟩

theorem decodeHex_error {I : Byte → Option Nat} {u : List Symbol} {e : CodecError} (h : decodeHex I u = .error e) :
    e = plainError .oddLength ∨ ∃ c ∈ u, e = symbolError c := by
  unfold decodeHex at h
  split at h
  · exact .inl (Except.error.inj h).symm
  · obtain ⟨g, hg, c, hc, -, he⟩ := decodeGroups_error h
    exact .inr ⟨c, mem_of_mem_symbolGroups hg hc, he⟩

theorem decodeAligned_error {I : Byte → Option Nat} {k B S : Nat} {u : List Symbol} {e : CodecError}
    (h : decodeAligned I k B S u = .error e) : e = plainError .incorrectPadding ∨ ∃ c ∈ u, e = symbolError c := by
  unfold decodeAligned at h
  simp only at h
  split at h
  · simp at h
  · split at h
    · rename_i he
      obtain ⟨g, hg, c, hc, -, heq⟩ := decodeGroups_error he
      exact .inr ⟨c, mem_of_mem_symbolGroups hg hc, Except.error.inj h ▸ heq⟩
    · rcases decodeFinal_cases I k S ((u.drop ((u.length / S - 1) * S)).take S) with hf | ⟨c, hc, -, -, -, hf⟩ |
        ⟨nb, w, -, hf⟩ <;> simp only [hf, Except.error.injEq, reduceCtorEq] at h
      · exact .inl h.symm
      · exact .inr ⟨c, List.mem_of_mem_drop (List.mem_of_mem_take hc), h.symm⟩

/-- Every symbol of the sequence, whitespace stripped or not, keeps its index in the input (R140, R173). -/
theorem pos_lt_of_mem_symbols {s : List Byte} {ign : Bool} {c : Symbol}
    (h : c ∈ if ign = true then stripWhitespace s else positioned s) : c.pos.getD 0 < s.length := by
  have hmem : c ∈ positioned s := by
    split at h
    · exact (mem_stripWhitespace.1 h).1
    · exact h
  obtain ⟨i, hpos, hbyte⟩ := mem_positioned hmem
  rw [hpos]
  exact (List.getElem?_eq_some_iff.1 hbyte).1

theorem alignSymbols_error {S : Nat} {pad : Bool} {u : List Symbol} {e : CodecError}
    (h : alignSymbols S pad u = .error e) : e = plainError .incorrectPadding := by
  rcases alignSymbols_cases S pad u with ⟨-, -, ha⟩ | ⟨-, -, ha⟩ | ⟨-, ha⟩ <;>
    simp only [ha, Except.error.injEq, reduceCtorEq] at h
  exact h.symm

/-- Re-padding appends symbols without a position, and only after a symbol of the input (R144). -/
theorem mem_of_alignSymbols {S : Nat} {pad : Bool} {u v : List Symbol} (h : alignSymbols S pad u = .ok v) {c : Symbol}
    (hc : c ∈ v) : c ∈ u ∨ (u ≠ [] ∧ c.pos = none) := by
  rcases alignSymbols_cases S pad u with ⟨-, -, ha⟩ | ⟨-, -, ha⟩ | ⟨-, ha⟩ <;>
    simp only [ha, Except.ok.injEq, reduceCtorEq] at h <;> subst h
  · exact .inl hc
  · rcases List.mem_append.1 hc with hc | hc
    · exact .inl hc
    · obtain ⟨hcount, rfl⟩ := List.mem_replicate.1 hc
      refine .inr ⟨?_, rfl⟩
      rintro rfl
      simp at hcount

/-- Every error of a decode is reportable (R157). -/
theorem decodeSymbols_error {a : Alphabet} {cs : CaseMode} {pad ign : Bool} {s : List Byte} {e : CodecError}
    (h : decodeSymbols a cs pad ign s = .error e) : e.Reportable s.length := by
  unfold decodeSymbols at h
  simp only at h
  have hu : ∀ c ∈ (if ign = true then stripWhitespace s else positioned s), c.pos.getD 0 < s.length :=
    fun _ => pos_lt_of_mem_symbols
  generalize (if ign = true then stripWhitespace s else positioned s) = u at h hu
  split at h
  · rcases decodeHex_error h with rfl | ⟨c, hc, rfl⟩
    · exact plainError_reportable (by decide) _
    · exact symbolError_reportable (hu c hc)
  · split at h
    · rename_i halign
      obtain rfl := Except.error.inj h
      rw [alignSymbols_error halign]
      exact plainError_reportable (by decide) _
    · rename_i v halign
      rcases decodeAligned_error h with rfl | ⟨c, hc, rfl⟩
      · exact plainError_reportable (by decide) _
      · apply symbolError_reportable
        rcases mem_of_alignSymbols halign hc with hin | ⟨hne, hpos⟩
        · exact hu c hin
        · obtain ⟨d, hd⟩ := List.exists_mem_of_ne_nil u hne
          rw [hpos]
          exact (Nat.zero_le _).trans_lt (hu d hd)

theorem codecOf_error {i : Instr} {x : List Byte} {e : CodecError} (h : codecOf i x = .error e) :
    e.Reportable x.length := by
  rcases codecOf_cases i with ⟨a, lc, pad, henc⟩ | ⟨a, cs, pad, ign, hdec⟩
  · simp [henc] at h
  · exact decodeSymbols_error (hdec x ▸ h)

/-- The errors of a command: one that the checks raise carries nothing, and the codec's stands for an input inside IN_BUF
(R206, R207). -/
theorem commandResult_error {s : State} {e : CodecError} (h : commandResult s = .error e) :
    e.Reportable s.latLen.toNat ∧ (e.code = .invalidSymbol → s.latLen.toNat ≤ s.config.inBufBytes) := by
  have hplain : ∀ c : ErrCode, c ≠ .invalidSymbol → (plainError c).Reportable s.latLen.toNat ∧
      ((plainError c).code = .invalidSymbol → s.latLen.toNat ≤ s.config.inBufBytes) :=
    fun c hc => ⟨plainError_reportable hc _, fun h => absurd h hc⟩
  unfold commandResult at h
  split at h
  · exact Except.error.inj h ▸ hplain _ (by decide)
  · split at h
    · exact Except.error.inj h ▸ hplain _ (by decide)
    · split at h
      · exact Except.error.inj h ▸ hplain _ (by decide)
      · rename_i hlen
        exact ⟨length_inputBytes s ▸ codecOf_error h, fun _ => by omega⟩

end Sys2Proof.Machine

/-! SUPPORT. What a command leaves alone: the frame of both ways a command ends, and of the ENGINE step (R34, R204). -/

namespace Sys2Proof.Machine

theorem completeOk_frame (y : List Byte) (s : State) : CommandFrame s (completeOk y s) := by
  constructor <;> rfl

theorem takeError_frame (c : ErrCode) (b : Byte) (p : Nat) (s : State) : CommandFrame s (takeError c b p s) := by
  constructor <;> rfl

theorem engineStep_frame {s t : State} (h : engineStep s = .next t) : CommandFrame s t := by
  rcases engineStep_next_cases h with ⟨y, -, -, rfl⟩ | ⟨e, -, rfl⟩
  · exact completeOk_frame y s
  · exact takeError_frame _ _ _ s

/-- What a completed command leaves: its codec's output on an input that fits IN_BUF, or an error. -/
theorem exec_next_cases {i : Instr} {s t : State} (h : exec i s = .next t) :
    (∃ y, codecOf i (inputBytes s) = .ok y ∧ s.latLen.toNat ≤ s.config.inBufBytes ∧ t = completeOk y s) ∨
    (∃ c b p, t = takeError c b p s) := by
  rcases exec_cases i s with ⟨-, hexec⟩ | ⟨-, -, hexec⟩ | ⟨-, hlen, hexec⟩ <;> rw [hexec] at h
  · exact .inr ⟨_, _, _, (Host.Outcome.next.inj h).symm⟩
  · exact .inr ⟨_, _, _, (Host.Outcome.next.inj h).symm⟩
  · rcases finishCommand_cases (codecOf i (inputBytes s)) s with ⟨y, hy, -, hf⟩ | ⟨y, -, -, hf⟩ | ⟨e, -, hf⟩ <;>
      rw [hf] at h
    · exact .inl ⟨y, hy, hlen, (Host.Outcome.next.inj h).symm⟩
    · simp at h
    · exact .inr ⟨_, _, _, (Host.Outcome.next.inj h).symm⟩

/-- R135: the output for an input inside a legal IN_BUF has a length that OUT_LEN can show. -/
theorem length_codecOf_lt {i : Instr} {s : State} {y : List Byte} (hlegal : s.config.Legal)
    (hlen : s.latLen.toNat ≤ s.config.inBufBytes) (h : codecOf i (inputBytes s) = .ok y) : y.length < 2 ^ 18 := by
  have hy := length_codecOf_le h
  obtain ⟨-, hcap, -, -⟩ := hlegal
  rw [length_inputBytes] at hy
  omega

end Sys2Proof.Machine

/-! SUPPORT. The registers on the bus: where each lies, and that an access to it reaches it (R22, R57). -/

namespace Sys2Proof.Machine

/-- The offset of a register (R22). -/
def regOffset : Reg → Offset
  | .cmd => 0x000
  | .status => 0x004
  | .inLen => 0x008
  | .outLen => 0x00C
  | .errByte => 0x010
  | .errPos => 0x014
  | .inCap => 0x018
  | .outCap => 0x01C
  | .irqEn => 0x020

/-- A 32-bit access at a register's offset reaches it. -/
theorem targetOf_regOffset (c : Config) (r : Reg) : targetOf c (regOffset r) 4 = some (.reg r) := by
  cases r <;> rfl

/-- Nothing but a 32-bit access at its offset reaches a register. -/
theorem eq_regOffset_of_targetOf {c : Config} {addr : Offset} {n : Nat} {r : Reg}
    (h : targetOf c addr n = some (.reg r)) : addr = regOffset r ∧ n = 4 := by
  obtain ⟨hn, hreg⟩ := targetOf_reg h
  refine ⟨BitVec.eq_of_toNat_eq ?_, hn⟩
  rcases regAt_eq_some hreg with ⟨ha, rfl⟩ | ⟨ha, rfl⟩ | ⟨ha, rfl⟩ | ⟨ha, rfl⟩ | ⟨ha, rfl⟩ | ⟨ha, rfl⟩ | ⟨ha, rfl⟩ |
    ⟨ha, rfl⟩ | ⟨ha, rfl⟩ <;> exact ha

/-- Every register is readable in every state (R255). -/
theorem hostRead_regOffset (s : State) (r : Reg) : hostRead s (regOffset r) 4 = ⟨false, readReg s r⟩ := by
  have hp : permitted s (regOffset r) 4 false = some (.reg r) :=
    permitted_of_not_forbidden (targetOf_regOffset _ r) (by cases r <;> rfl)
  rw [hostRead, hp]
  rfl

theorem permitted_write_regOffset {s : State} {r : Reg}
    (h : s.busy = true → forbiddenWhileBusy true (.reg r) = false) :
    permitted s (regOffset r) 4 true = some (.reg r) := by
  cases hb : s.busy with
  | false => rw [permitted_of_idle hb, targetOf_regOffset]
  | true => exact permitted_of_not_forbidden (targetOf_regOffset _ r) (h hb)

/-- A register that may be written now takes the write, without a bus error (R255). -/
theorem hostWrite_regOffset {s : State} {r : Reg} (h : s.busy = true → forbiddenWhileBusy true (.reg r) = false)
    (v : Word) :
    (hostWriteResponse s (regOffset r) 4).error = false ∧ hostWrite s (regOffset r) 4 v = writeReg s v r := by
  rw [hostWriteResponse, hostWrite, permitted_write_regOffset h]
  exact ⟨rfl, rfl⟩

theorem toNat_append_eq_add {m n : Nat} (x : BitVec m) (y : BitVec n) :
    (x ++ y).toNat = x.toNat * 2 ^ n + y.toNat := by
  rw [BitVec.toNat_append, ← Nat.shiftLeft_add_eq_or_of_lt y.isLt, Nat.shiftLeft_eq]

/-- STATUS is its fields at bits 0, 1, 2 and 7 to 4 (R25). -/
theorem toNat_statusWord (s : State) :
    (statusWord s).toNat = s.busy.toNat + 2 * s.doneBit.toNat + 4 * s.errBit.toNat + 16 * s.errCode.toNat := by
  simp only [statusWord, toNat_append_eq_add, BitVec.toNat_ofBool, BitVec.toNat_ofNat]
  omega

theorem toNat_readReg_inLen (s : State) : (readReg s .inLen).toNat = s.inLen.toNat :=
  BitVec.toNat_setWidth_of_le (by decide)

theorem toNat_readReg_irqEn (s : State) : (readReg s .irqEn).toNat = s.irqEn.toNat :=
  (BitVec.toNat_setWidth_of_le (by decide)).trans (BitVec.toNat_ofBool _)

/-- A write to STATUS in one equation: DONE stays unless bit 1 is written 1 (R26). -/
theorem writeReg_status (s : State) (v : Word) :
    writeReg s v .status = { s with doneBit := s.doneBit && !v.getLsbD 1 } := by
  unfold writeReg acknowledge
  cases hv : v.getLsbD 1 <;> simp

theorem hostRead_regOffset_value {s : State} {r : Reg} {x : Nat} (h : (readReg s r).toNat = x) :
    (hostRead s (regOffset r) 4).error = false ∧ (hostRead s (regOffset r) 4).data.toNat = x := by
  rw [hostRead_regOffset]
  exact ⟨rfl, h⟩

/-! ## The four registers a write can change, at their offsets -/

section
variable {s : State} (hidle : s.busy = false) (v : Word)
include hidle

theorem hostWrite_cmd_of_idle :
    (hostWriteResponse s 0x000 4).error = false ∧ hostWrite s 0x000 4 v = acceptCommand v s :=
  hostWrite_regOffset (r := .cmd) (by simp [hidle]) v

theorem hostWrite_inLen_of_idle :
    (hostWriteResponse s 0x008 4).error = false ∧ hostWrite s 0x008 4 v = { s with inLen := v.setWidth 17 } :=
  hostWrite_regOffset (r := .inLen) (by simp [hidle]) v

end

theorem hostWrite_status (s : State) (v : Word) :
    (hostWriteResponse s 0x004 4).error = false ∧
      hostWrite s 0x004 4 v = { s with doneBit := s.doneBit && !v.getLsbD 1 } :=
  writeReg_status s v ▸ hostWrite_regOffset (r := .status) (fun _ => rfl) v

theorem hostWrite_irqEn (s : State) (v : Word) :
    (hostWriteResponse s 0x020 4).error = false ∧ hostWrite s 0x020 4 v = { s with irqEn := v.getLsbD 0 } :=
  hostWrite_regOffset (r := .irqEn) (fun _ => rfl) v

/-- Which fields a permitted write leaves alone, by what it reaches (R23, R26, R27, R32, R36). -/
theorem writeTarget_keeps (s : State) (n : Nat) (v : Word) (t : Target) :
    (t ≠ .reg .cmd → (writeTarget s n v t).cmd = s.cmd ∧ (writeTarget s n v t).latLen = s.latLen ∧
      (writeTarget s n v t).errBit = s.errBit ∧ (writeTarget s n v t).errCode = s.errCode) ∧
    (t ≠ .reg .inLen → (writeTarget s n v t).inLen = s.inLen) ∧
    (t ≠ .reg .irqEn → (writeTarget s n v t).irqEn = s.irqEn) ∧
    ((∀ i, t ≠ .inBuf i) → (writeTarget s n v t).inBuf = s.inBuf) := by
  cases t with
  | inBuf i | outBuf i => simp [writeTarget]
  | reg r =>
    cases r with
    | status => simp [writeTarget, writeReg_status]
    | cmd | inLen | outLen | errByte | errPos | inCap | outCap | irqEn => simp [writeTarget, writeReg]

end Sys2Proof.Machine

/-! SUPPORT. What one step can do to the block, said once, with the queue, the delay and the port's answer left open
after a HOST access. -/

namespace Sys2Proof.Machine

/-- A HOST write has no effect, or the effect of a write to what the map gives, which R255 does not forbid now. -/
theorem hostWrite_effect (s : State) (addr : Offset) (n : Nat) (v : Word) :
    hostWrite s addr n v = s ∨
    ∃ tgt, targetOf s.config addr n = some tgt ∧ (s.busy = true → forbiddenWhileBusy true tgt = false) ∧
      hostWrite s addr n v = writeTarget s n v tgt := by
  unfold hostWrite
  rcases permitted_cases s addr n true with ⟨hp, -⟩ | ⟨tgt, htgt, hp, hbusy⟩ <;> rw [hp]
  · exact .inl rfl
  · exact .inr ⟨tgt, htgt, hbusy, rfl⟩

/-- A write that R255 forbids while busy is permitted to an idle block only. -/
theorem idle_of_forbidden {s : State} {tgt : Target} (h : s.busy = true → forbiddenWhileBusy true tgt = false)
    (hf : forbiddenWhileBusy true tgt = true) : s.busy = false := by
  cases hb : s.busy with
  | false => rfl
  | true => simp [h hb] at hf

/-- An access on the queue that reaches a register is a 32-bit one at its offset. -/
theorem queue_head_of_targetOf_reg {s : State} {addr : Offset} {n : Nat} {v : Word} {rest : List HostEvent} {r : Reg}
    (hqueue : s.hostQueue = .write addr n v :: rest) (htgt : targetOf s.config addr n = some (.reg r)) :
    ∃ v rest, s.hostQueue = .write (regOffset r) 4 v :: rest := by
  obtain ⟨rfl, rfl⟩ := eq_regOffset_of_targetOf htgt
  exact ⟨v, rest, hqueue⟩

/-- Everything a step can do: the command's completion; a reset; a write that reaches something; or no more than a change
of the queue, the delay and the port's answer. -/
theorem step_effect {s t : State} (h : step s = .next t) :
    (EngineMoves s ∧ engineStep s = .next t) ∨
    (∃ rest, s.hostQueue = .rst :: rest ∧ t = applyReset (dequeueEvent s rest)) ∨
    (∃ addr n v rest tgt d resp, s.hostQueue = .write addr n v :: rest ∧ targetOf s.config addr n = some tgt ∧
      (s.busy = true → forbiddenWhileBusy true tgt = false) ∧
      t = { writeTarget s n v tgt with hostQueue := rest, engineDelay := d, busResp := resp }) ∨
    (∃ q d resp, t = { s with hostQueue := q, engineDelay := d, busResp := resp }) := by
  rcases step_cases s with ⟨hbusy, hturn, hs⟩ | ⟨-, hs⟩ <;> rw [hs] at h
  · exact .inl ⟨⟨hbusy, hturn⟩, h⟩
  · obtain rfl := Host.Outcome.next.inj h
    rcases hostMove_cases s with ⟨-, hmove⟩ | ⟨ev, rest, hqueue, hmove⟩
    · exact .inr (.inr (.inr ⟨_, _, _, hmove⟩))
    · cases ev with
      | read addr n => exact .inr (.inr (.inr ⟨_, _, _, hmove⟩))
      | waitDone => exact .inr (.inr (.inr ⟨_, _, _, hmove.trans (performEvent_waitDone _)⟩))
      | rst => exact .inr (.inl ⟨rest, hqueue, hmove⟩)
      | write addr n v =>
        obtain ⟨d, hd⟩ := hostWrite_dequeueEvent s rest addr n v
        rw [performEvent, hd] at hmove
        rcases hostWrite_effect s addr n v with hw | ⟨tgt, htgt, hbusy, hw⟩ <;> rw [hw] at hmove
        · exact .inr (.inr (.inr ⟨_, _, _, hmove⟩))
        · exact .inr (.inr (.inl ⟨addr, n, v, rest, tgt, d, _, hqueue, htgt, hbusy, hmove⟩))

end Sys2Proof.Machine

/-! SUPPORT. The invariant under each operation that can change what it speaks of. -/

namespace Sys2Proof

open Sys2Proof.Machine

theorem inv_resetOf {c : Config} (hc : c.Legal) : Inv (State.resetOf c) where
  config_legal := hc
  inBuf_wf := clearCells_wf
  inBuf_within := clearCells_within _
  outBuf_wf := clearCells_wf
  outBuf_within := clearCells_within _
  busy_clear := by simp
  err_iff := by simp
  errCode_range := by simp
  err_outLen := by simp
  outLen_le := by simp
  errByte_zero := by simp
  errPos_lt := by simp

theorem inv_applyReset {s : State} (h : s.config.Legal) : Inv (applyReset s) :=
  { inv_resetOf h with }

theorem inv_acceptCommand {s : State} (h : Inv s) (w : Word) : Inv (acceptCommand w s) :=
  { h with
    busy_clear := by simp
    err_iff := by simp
    errCode_range := by simp
    err_outLen := by simp
    outLen_le := by simp
    errByte_zero := by simp
    errPos_lt := by simp }

theorem inv_withFetchWord {s : State} (h : Inv s) (nbits w : Nat) : Inv (s.withFetchWord nbits w) :=
  { inv_acceptCommand h (BitVec.ofNat 32 (w % 2 ^ nbits)) with }

/-- An output that fits OUT_BUF is stored inside it, and OUT_LEN counts no more than its bytes (R135). -/
theorem inv_completeOk {s : State} (h : Inv s) {y : List Byte} (hy : y.length ≤ s.config.outBufBytes) :
    Inv (completeOk y s) :=
  { h with
    outBuf_wf := writeCells_wf h.outBuf_wf 0 y
    outBuf_within := writeCells_within h.outBuf_within 0 y (by simpa using hy)
    busy_clear := by simp
    err_iff := by simp
    errCode_range := by simp
    err_outLen := by simp
    outLen_le := by
      rw [completeOk_outLen, BitVec.toNat_ofNat]
      exact (Nat.mod_le _ _).trans hy
    errByte_zero := by simp
    errPos_lt := by simp }

theorem errNumber_eq_three {c : ErrCode} : errNumber c = 3 ↔ c = .invalidSymbol := by cases c <;> decide

/-- A reportable error keeps ERR_BYTE and ERR_POS as R29 and R30 say. -/
theorem inv_takeError {s : State} (h : Inv s) {e : CodecError} (hrep : e.Reportable s.latLen.toNat)
    (hlen : e.code = .invalidSymbol → s.latLen.toNat ≤ s.config.inBufBytes) :
    Inv (takeError e.code e.byte e.pos s) :=
  { h with
    outBuf_wf := clearCells_wf
    outBuf_within := clearCells_within _
    busy_clear := by simp
    err_iff := ⟨fun _ => errNumber_ne_zero _, fun _ => rfl⟩
    errCode_range := by
      rw [takeError_errCode, errNumber_toNat]
      cases e.code <;> decide
    err_outLen := by simp
    outLen_le := by simp
    errByte_zero := fun hcode => by
      obtain ⟨hbyte, hpos⟩ := hrep.1 (mt errNumber_eq_three.2 hcode)
      simp [hbyte, hpos]
    errPos_lt := fun hcode => by
      have hinvalid := errNumber_eq_three.1 hcode
      refine ⟨?_, hlen hinvalid⟩
      rw [takeError_errPos, BitVec.toNat_ofNat]
      exact (Nat.mod_le _ _).trans_lt (hrep.2 hinvalid) }

theorem inv_engineStep {s t : State} (h : Inv s) (hstep : engineStep s = .next t) : Inv t := by
  rcases engineStep_next_cases hstep with ⟨y, -, hy, rfl⟩ | ⟨e, he, rfl⟩
  · exact inv_completeOk h hy
  · obtain ⟨hrep, hlen⟩ := commandResult_error he
    exact inv_takeError h hrep hlen

theorem inv_writeReg {s : State} (h : Inv s) (v : Word) (r : Reg) : Inv (writeReg s v r) := by
  cases r with
  | cmd => exact inv_acceptCommand h v
  | status =>
    rw [writeReg_status]
    exact { h with
      busy_clear := fun hbusy => by
        obtain ⟨hdone, hrest⟩ := h.busy_clear hbusy
        exact ⟨by simp [hdone], hrest⟩ }
  | inLen | irqEn => exact { h with }
  | outLen | errByte | errPos | inCap | outCap => exact h

/-- A write that reaches a buffer stores inside its capacity (R55). -/
theorem inv_writeTarget {s : State} (h : Inv s) {addr : Offset} {n : Nat} (v : Word) {tgt : Target}
    (htgt : targetOf s.config addr n = some tgt) : Inv (writeTarget s n v tgt) := by
  cases tgt with
  | reg r => exact inv_writeReg h v r
  | inBuf i =>
    obtain ⟨hfits, -, -⟩ := targetOf_inBuf htgt
    exact { h with
      inBuf_wf := writeCells_wf h.inBuf_wf i _
      inBuf_within := writeCells_within h.inBuf_within i _ (by simpa using hfits) }
  | outBuf i =>
    obtain ⟨hfits, -, -⟩ := targetOf_outBuf htgt
    exact { h with
      outBuf_wf := writeCells_wf h.outBuf_wf i _
      outBuf_within := writeCells_within h.outBuf_within i _ (by simpa using hfits) }

end Sys2Proof

/-! The statements of 10_state.md: the invariant, what a command changes, who changes the registers, and what their reads and
writes do. -/

namespace Sys2Proof

open Sys2Proof.Machine

/-! ## The invariant -/

/-- Settles O58: each of the four things a step can do keeps the invariant. -/
theorem stepKeepsTheInvariant : Obligations.StepKeepsTheInvariant := by
  intro s t hinv hstep
  rcases step_effect hstep with ⟨-, hengine⟩ | ⟨rest, -, rfl⟩ | ⟨addr, n, v, rest, tgt, d, resp, -, htgt, -, rfl⟩ |
    ⟨q, d, resp, rfl⟩
  · exact inv_engineStep hinv hengine
  · exact inv_applyReset hinv.config_legal
  · exact { inv_writeTarget hinv v htgt with }
  · exact { hinv with }

/-- Settles O57: `State.reset` is the reset state of legal capacities, and placing a command is accepting it. -/
theorem invariantHoldsAtReset : Obligations.InvariantHoldsAtReset :=
  ⟨inv_resetOf (by decide), fun _ hc => inv_resetOf hc, fun _ _ _ hinv => inv_withFetchWord hinv _ _⟩

/-! ## The ENGINE step -/

/-- Settles O9: both ways a command ends keep the frame, and a success stores its output and no byte beyond. -/
theorem commandsChangeOnlyTheirResults : Obligations.CommandsChangeOnlyTheirResults := by
  intro i s t hexec
  rcases exec_next_cases hexec with ⟨y, hy, hlen, rfl⟩ | ⟨c, b, p, rfl⟩
  · refine ⟨completeOk_frame y s, rfl, rfl, fun hlegal _ => ?_⟩
    have hdone := completeOk_succeeded y s (length_codecOf_lt hlegal hlen hy)
    exact ⟨hdone.outEpoch, fun j hj => hdone.outKept j (hdone.outLen ▸ hj)⟩
  · exact ⟨takeError_frame c b p s, rfl, rfl, fun _ herr => by simp at herr⟩

/-- Settles O6: the placed word waits for no HOST access, so the next step decodes and runs it. -/
theorem placedCommandRunsNext : Obligations.PlacedCommandRunsNext := by
  intro s w i hdec
  have hturn : step (s.withFetchWord 32 w.toNat) = engineStep (s.withFetchWord 32 w.toNat) := by
    simp [step, engineMovesNext]
  have hword : (s.withFetchWord 32 w.toNat).cmd = w := by
    rw [withFetchWord_cmd, Nat.mod_eq_of_lt w.isLt, BitVec.ofNat_toNat, BitVec.setWidth_eq]
  rw [hturn, engineStep, hword, hdec]

/-! ## Who changes the registers -/

/-- Settles O47: the ENGINE step keeps these fields, and a HOST write changes only what it reaches. -/
theorem onlyTheseEventsChangeTheRegisters : Obligations.OnlyTheseEventsChangeTheRegisters := by
  intro s t hstep
  refine ⟨step_config hstep, ?_⟩
  rcases step_effect hstep with ⟨-, hengine⟩ | ⟨rest, hqueue, -⟩ |
    ⟨addr, n, v, rest, tgt, d, resp, hqueue, htgt, hbusy, rfl⟩ | ⟨q, d, resp, rfl⟩
  · have hframe := engineStep_frame hengine
    simp [hframe.cmd, hframe.latLen, hframe.inLen, hframe.irqEn, hframe.inBuf]
  · have hrst : ∃ rest, s.hostQueue = .rst :: rest := ⟨rest, hqueue⟩
    exact ⟨fun _ => .inr hrst, fun _ => .inr hrst, fun _ => .inr hrst, fun _ => .inr hrst⟩
  · obtain ⟨hcmd, hinLen, hirqEn, hinBuf⟩ := writeTarget_keeps s n v tgt
    refine ⟨fun hne => .inl ?_, fun hne => .inl ?_, fun hne => .inl ?_, fun hne => .inl ?_⟩
    · obtain rfl : tgt = .reg .cmd := by
        by_contra hother
        obtain ⟨hc, hl, -, -⟩ := hcmd hother
        exact hne.elim (· hc) (· hl)
      exact ⟨idle_of_forbidden hbusy rfl, queue_head_of_targetOf_reg hqueue htgt⟩
    · obtain rfl : tgt = .reg .inLen := not_imp_comm.1 hinLen hne
      exact ⟨idle_of_forbidden hbusy rfl, queue_head_of_targetOf_reg hqueue htgt⟩
    · obtain rfl : tgt = .reg .irqEn := not_imp_comm.1 hirqEn hne
      exact queue_head_of_targetOf_reg hqueue htgt
    · obtain ⟨i, rfl⟩ : ∃ i, tgt = .inBuf i := by
        by_contra hother
        exact hne (hinBuf fun i hi => hother ⟨i, hi⟩)
      obtain ⟨hfits, haddr, -⟩ := targetOf_inBuf htgt
      rw [inBufBase] at haddr
      exact ⟨idle_of_forbidden hbusy rfl, addr, n, v, rest, hqueue, by omega, by omega⟩
  · simp

/-- Settles O46: the equation of a STATUS write, and ERR and ERRCODE under each thing a step can do. -/
theorem statusWritesAndWhoChangesErr : Obligations.StatusWritesAndWhoChangesErr := by
  refine ⟨fun s v => ?_, fun s t hstep hne => ?_⟩
  · obtain ⟨hresp, hw⟩ := hostWrite_status s v
    refine ⟨hresp, fun hv => ?_, fun hv => ?_, fun hinv hbusy => ?_, fun hidle => ?_, rfl⟩
    · rw [hw, hv, Bool.not_true, Bool.and_false]
    · rw [hw, hv, Bool.not_false, Bool.and_true]
    · obtain ⟨hdone, -⟩ := hinv.busy_clear hbusy
      rw [hw, hdone, Bool.false_and, ← hdone]
    · rw [(hostWrite_cmd_of_idle hidle v).2, acceptCommand_doneBit]
  · rcases step_effect hstep with ⟨hmoves, -⟩ | ⟨rest, hqueue, -⟩ |
      ⟨addr, n, v, rest, tgt, d, resp, hqueue, htgt, hbusy, rfl⟩ | ⟨q, d, resp, rfl⟩
    · exact .inl hmoves
    · exact .inr (.inr ⟨rest, hqueue⟩)
    · obtain rfl : tgt = .reg .cmd := by
        by_contra hother
        obtain ⟨-, -, hbit, hcode⟩ := (writeTarget_keeps s n v tgt).1 hother
        exact hne.elim (· hbit) (· hcode)
      exact .inr (.inl ⟨idle_of_forbidden hbusy rfl, queue_head_of_targetOf_reg hqueue htgt⟩)
    · simp at hne

/-! ## Reads and writes of the registers -/

/-- Settles O45: an idle block accepts the write, and the delay is whatever the free value gives. -/
theorem acceptedCmdWrite : Obligations.AcceptedCmdWrite := by
  intro s w hidle
  obtain ⟨hresp, hw⟩ := hostWrite_cmd_of_idle hidle w
  exact ⟨hresp, _, hw⟩

/-- Settles O48: a written register holds the low bits that its field has, and the read-only ones stay. -/
theorem registerWritesKeepTheFieldBits : Obligations.RegisterWritesKeepTheFieldBits := by
  intro s v
  obtain ⟨hirqResp, hirq⟩ := hostWrite_irqEn s v
  refine ⟨fun hidle => ?_, hirqResp, hirq, ?_, ?_⟩
  · obtain ⟨hresp, hlen⟩ := hostWrite_inLen_of_idle hidle v
    refine ⟨hresp, ?_, ?_⟩
    · rw [hlen, BitVec.setWidth_eq_extractLsb' (by decide)]
    · rw [hlen]
      exact (hostRead_regOffset_value (r := .inLen) ((toNat_readReg_inLen _).trans (BitVec.toNat_setWidth _ v))).2
  · rw [hirq]
    have hbit : (v.getLsbD 0).toNat = v.toNat % 2 :=
      (Nat.toNat_testBit v.toNat 0).trans (by rw [pow_zero, Nat.div_one])
    exact (hostRead_regOffset_value (r := .irqEn) ((toNat_readReg_irqEn _).trans hbit)).2
  · rintro addr (rfl | rfl | rfl)
    · exact hostWrite_regOffset (r := .outLen) (fun _ => rfl) v
    · exact hostWrite_regOffset (r := .errByte) (fun _ => rfl) v
    · exact hostWrite_regOffset (r := .errPos) (fun _ => rfl) v

/-- Settles O49: legal capacities fit the 32 bits they are shown in, and neither a write nor a step changes them. -/
theorem capacityRegisters : Obligations.CapacityRegisters := by
  intro s v
  have hin : hostRead s 0x018 4 = ⟨false, BitVec.ofNat 32 s.config.inBufBytes⟩ := hostRead_regOffset s .inCap
  have hout : hostRead s 0x01C 4 = ⟨false, BitVec.ofNat 32 s.config.outBufBytes⟩ := hostRead_regOffset s .outCap
  obtain ⟨hinResp, hinWrite⟩ := hostWrite_regOffset (s := s) (r := .inCap) (fun _ => rfl) v
  obtain ⟨houtResp, houtWrite⟩ := hostWrite_regOffset (s := s) (r := .outCap) (fun _ => rfl) v
  refine ⟨hin, hout, fun hlegal => ?_, hinResp, hinWrite, houtResp, houtWrite, fun t => step_config⟩
  obtain ⟨-, hinCap, -, houtCap⟩ := hlegal
  rw [hin, hout, BitVec.toNat_ofNat, BitVec.toNat_ofNat]
  exact ⟨Nat.mod_eq_of_lt (by omega), Nat.mod_eq_of_lt (by omega)⟩

/-- Settles O50: every register is readable in every state, and a field extended to 32 bits keeps its value. -/
theorem registersReadAsLaidOut : Obligations.RegistersReadAsLaidOut := by
  intro s
  exact ⟨hostRead_regOffset s .cmd,
    hostRead_regOffset_value (r := .status) (toNat_statusWord s),
    hostRead_regOffset_value (r := .inLen) (toNat_readReg_inLen s),
    hostRead_regOffset_value (r := .outLen) (BitVec.toNat_setWidth_of_le (by decide)),
    hostRead_regOffset_value (r := .errByte) (BitVec.toNat_setWidth_of_le (by decide)),
    hostRead_regOffset_value (r := .errPos) (BitVec.toNat_setWidth_of_le (by decide)),
    hostRead_regOffset_value (r := .irqEn) (toNat_readReg_irqEn s)⟩

/-- Settles O51: each of the three writes, and the reset, clears one of the two bits `irq` is the conjunction of. -/
theorem interruptOutput : Obligations.InterruptOutput := by
  refine ⟨fun c => rfl, fun s => ⟨by simp [irq], rfl⟩, fun s v hv => ?_, fun s v hv => ?_, fun s v hidle => ?_⟩
  · simp only [(hostWrite_status s v).2, irq, hv, Bool.not_true, Bool.and_false, Bool.false_and]
  · simp only [(hostWrite_irqEn s v).2, irq, hv, Bool.and_false]
  · simp only [(hostWrite_cmd_of_idle hidle v).2, irq, acceptCommand_doneBit, Bool.false_and]

end Sys2Proof

/-! SUPPORT. A HOST access while a command is in flight: what R255 leaves it to change (R61, R63). -/

namespace Sys2Proof.Machine

/-- While busy a write reaches only STATUS and IRQ_EN (R255), so it changes no more than DONE and EN. -/
theorem hostWrite_of_busy {s : State} (hbusy : s.busy = true) (addr : Offset) (n : Nat) (v : Word) :
    ∃ done en, hostWrite s addr n v = { s with doneBit := done, irqEn := en } := by
  rcases hostWrite_cases s addr n v with h | ⟨hidle, -⟩ | h | ⟨hidle, -⟩ | h | ⟨hidle, -⟩ | ⟨hidle, -⟩
  · exact ⟨_, _, h⟩
  · simp [hbusy] at hidle
  · exact ⟨_, _, h⟩
  · simp [hbusy] at hidle
  · exact ⟨_, _, h⟩
  · simp [hbusy] at hidle
  · simp [hbusy] at hidle

/-- While busy an event other than a reset changes no more than DONE, EN, the port's answer and the queue, to which only
the event itself can go back. -/
theorem performEvent_of_busy {s : State} (hbusy : s.busy = true) {ev : HostEvent} (hev : ev ≠ .rst) :
    ∃ done en q resp, q ⊆ ev :: s.hostQueue ∧
      performEvent s ev = { s with doneBit := done, irqEn := en, hostQueue := q, busResp := resp } := by
  have htail : s.hostQueue ⊆ ev :: s.hostQueue := List.subset_cons_self _ _
  cases ev with
  | read addr n => exact ⟨_, _, _, _, htail, rfl⟩
  | write addr n v =>
    obtain ⟨done, en, hw⟩ := hostWrite_of_busy hbusy addr n v
    exact ⟨done, en, _, _, htail, by rw [performEvent, hw]⟩
  | waitDone =>
    refine ⟨_, _, _, _, ?_, performEvent_waitDone s⟩
    split
    · exact htail
    · exact List.Subset.refl _
  | rst => exact absurd rfl hev

/-- A step of a busy block in which the ENGINE does not move, with no reset queued: one HOST access fewer to wait for, and
no more changed than DONE, EN, the port's answer and the queue. -/
theorem step_of_waiting {s : State} (hbusy : s.busy = true) (hrst : ∀ ev ∈ s.hostQueue, ev ≠ .rst)
    (hwait : ¬EngineMoves s) :
    ∃ done en q resp, (∀ ev ∈ q, ev ≠ .rst) ∧ step s = .next { s with
      doneBit := done, irqEn := en, hostQueue := q, busResp := resp, engineDelay := s.engineDelay - 1 } := by
  cases hqueue : s.hostQueue with
  | nil => exact absurd ⟨hbusy, .inr hqueue⟩ hwait
  | cons ev rest =>
    have hmoves : HostMovesWith s ev rest := ⟨hqueue, fun ⟨_, hdelay⟩ => hwait ⟨hbusy, .inl hdelay⟩⟩
    obtain ⟨done, en, q, resp, hq, hperform⟩ :=
      performEvent_of_busy (s := dequeueEvent s rest) hbusy (hrst ev (by simp [hqueue]))
    refine ⟨done, en, q, resp, fun e he => hrst e (hqueue ▸ hq he), ?_⟩
    rw [step_of_hostMovesWith hmoves, hperform]
    rfl

end Sys2Proof.Machine

/-! SUPPORT. The port's answers: when an access gets a bus error, and what it then leaves alone (R54, R57, R58). -/

namespace Sys2Proof.Machine

theorem hostRead_error (s : State) (addr : Offset) (n : Nat) :
    (hostRead s addr n).error = (permitted s addr n false).isNone := by
  unfold hostRead
  cases permitted s addr n false <;> rfl

theorem hostWriteResponse_error (s : State) (addr : Offset) (n : Nat) :
    (hostWriteResponse s addr n).error = (permitted s addr n true).isNone := by
  unfold hostWriteResponse
  cases permitted s addr n true <;> rfl

@[simp] theorem hostWriteResponse_data (s : State) (addr : Offset) (n : Nat) : (hostWriteResponse s addr n).data = 0 := by
  unfold hostWriteResponse
  cases permitted s addr n true <;> rfl

theorem hostRead_of_error {s : State} {addr : Offset} {n : Nat} (h : (hostRead s addr n).error = true) :
    hostRead s addr n = busError := by
  rw [hostRead_error, Option.isNone_iff_eq_none] at h
  rw [hostRead, h]

theorem hostWrite_of_error {s : State} {addr : Offset} {n : Nat} (h : (hostWriteResponse s addr n).error = true)
    (v : Word) : hostWrite s addr n v = s := by
  rw [hostWriteResponse_error, Option.isNone_iff_eq_none] at h
  rw [hostWrite, h]

/-- What a read answers does not depend on the port's last answer. -/
@[simp] theorem hostRead_busResp (s : State) (resp : BusResponse) (addr : Offset) (n : Nat) :
    hostRead { s with busResp := resp } addr n = hostRead s addr n := by
  have htarget (t : Target) : readTarget { s with busResp := resp } n t = readTarget s n t := by
    cases t with
    | reg r => cases r <;> rfl
    | inBuf i | outBuf i => rfl
  have hpermitted : permitted { s with busResp := resp } addr n false = permitted s addr n false := rfl
  simp only [hostRead, hpermitted, htarget]

theorem widthOk_iff (addr n : Nat) : widthOk addr n = true ↔ (n = 1 ∨ n = 2 ∨ n = 4) ∧ addr % n = 0 := by
  simp [widthOk, or_assoc]

/-- The registers lie at the nine 4-aligned offsets below 0x24 (R22). -/
theorem regAt_isSome {a : Nat} (h : a < 0x24) : (regAt a).isSome = true ↔ a % 4 = 0 := by
  revert a
  decide

/-- The accesses the map permits (R53, R55, R56). -/
theorem targetOf_isSome (c : Config) (addr : Offset) (n : Nat) :
    (targetOf c addr n).isSome = true ↔
      (n = 4 ∧ addr.toNat % 4 = 0 ∧ addr.toNat < 0x24) ∨
      ((n = 1 ∨ n = 2 ∨ n = 4) ∧ addr.toNat % n = 0 ∧
        ((inBufBase ≤ addr.toNat ∧ addr.toNat + n ≤ inBufBase + c.inBufBytes) ∨
          (outBufBase ≤ addr.toNat ∧ addr.toNat + n ≤ outBufBase + c.outBufBytes))) := by
  unfold targetOf
  simp only [← and_assoc, ← widthOk_iff]
  by_cases hreg : addr.toNat < 0x24
  · have hin : ¬inBufBase ≤ addr.toNat := by unfold inBufBase; omega
    have hout : ¬outBufBase ≤ addr.toNat := by unfold outBufBase; omega
    by_cases hn : n = 4 <;> simp [hreg, hn, hin, hout, regAt_isSome hreg]
  · simp only [hreg, if_false, and_false, false_or, and_assoc, and_or_left]
    split_ifs <;> simp [*]

theorem permitted_isNone_of_idle {s : State} (hidle : s.busy = false) (addr : Offset) (n : Nat) (isWrite : Bool) :
    (permitted s addr n isWrite).isNone = false ↔ (targetOf s.config addr n).isSome = true := by
  rw [permitted_of_idle hidle, Option.isNone_eq_false_iff]

end Sys2Proof.Machine

/-! SUPPORT. Accesses to the buffers: what they reach, and the bytes of their data word (R51, R55). -/

namespace Sys2Proof.Machine

section
variable {c : Config} {addr : Offset} {n i : Nat} (hwidth : widthOk addr.toNat n = true)
include hwidth

theorem targetOf_eq_inBuf (haddr : addr.toNat = inBufBase + i) (hfits : i + n ≤ c.inBufBytes) :
    targetOf c addr n = some (.inBuf i) := by
  have hreg : ¬inBufBase + i < 0x24 := by unfold inBufBase; omega
  have hin : inBufBase ≤ inBufBase + i ∧ inBufBase + i + n ≤ inBufBase + c.inBufBytes := by omega
  rw [haddr] at hwidth
  simp [targetOf, haddr, hreg, hwidth, hin]

/-- A legal IN_BUF ends below OUT_BUF (R53). -/
theorem targetOf_eq_outBuf (hlegal : c.Legal) (hpos : 0 < n) (haddr : addr.toNat = outBufBase + i)
    (hfits : i + n ≤ c.outBufBytes) : targetOf c addr n = some (.outBuf i) := by
  obtain ⟨-, hcap, -, -⟩ := hlegal
  have hreg : ¬outBufBase + i < 0x24 := by unfold outBufBase; omega
  have hin : ¬outBufBase + i + n ≤ inBufBase + c.inBufBytes := by unfold outBufBase inBufBase; omega
  have hout : outBufBase ≤ outBufBase + i ∧ outBufBase + i + n ≤ outBufBase + c.outBufBytes := by omega
  rw [haddr] at hwidth
  simp [targetOf, haddr, hreg, hwidth, hin, hout]

end

theorem hostRead_of_permitted {s : State} {addr : Offset} {n : Nat} {tgt : Target}
    (h : permitted s addr n false = some tgt) : hostRead s addr n = ⟨false, readTarget s n tgt⟩ := by
  rw [hostRead, h]

theorem hostWrite_of_permitted {s : State} {addr : Offset} {n : Nat} {tgt : Target}
    (h : permitted s addr n true = some tgt) (v : Word) :
    hostWrite s addr n v = writeTarget s n v tgt ∧ (hostWriteResponse s addr n).error = false := by
  rw [hostWrite, hostWriteResponse, h]
  exact ⟨rfl, rfl⟩

/-- A data word of at most four bytes is the number whose digits to base 256 they are, the first least significant (R51). -/
theorem toNat_dataWord {bs : List Byte} (h : bs.length ≤ 4) :
    (dataWord bs).toNat = Nat.ofDigits 256 (bs.map BitVec.toNat) := by
  induction bs with
  | nil => rfl
  | cons b rest ih =>
    rw [List.length_cons] at h
    have hrest := ih (by omega)
    have hdigits : ∀ d ∈ rest.map BitVec.toNat, d < 256 := by
      intro d hd
      obtain ⟨x, -, rfl⟩ := List.mem_map.1 hd
      exact x.isLt
    have hlt : (dataWord rest).toNat < 2 ^ 24 :=
      calc (dataWord rest).toNat < 256 ^ rest.length := by
            rw [hrest]
            simpa using Nat.ofDigits_lt_base_pow_length (by decide) hdigits
        _ ≤ 256 ^ 3 := Nat.pow_le_pow_right (by decide) (by omega)
    have hshift : (dataWord rest <<< 8).toNat = (dataWord rest).toNat <<< 8 := by
      rw [BitVec.toNat_shiftLeft, Nat.shiftLeft_eq]
      exact Nat.mod_eq_of_lt (by omega)
    rw [dataWord, BitVec.toNat_or, BitVec.toNat_setWidth_of_le (by decide), hshift, Nat.or_comm,
      ← Nat.shiftLeft_add_eq_or_of_lt b.isLt, Nat.shiftLeft_eq, List.map_cons, Nat.ofDigits_cons, hrest]
    omega

/-- The bytes of an access carry the low bits of its data word (R51). -/
theorem toNat_dataWord_dataBytes (v : Word) {n : Nat} (hn : n = 1 ∨ n = 2 ∨ n = 4) :
    (dataWord (dataBytes v n)).toNat = v.toNat % 2 ^ (8 * n) := by
  rw [toNat_dataWord (by rw [length_dataBytes]; omega)]
  rcases hn with rfl | rfl | rfl <;>
    simp [dataBytes, dataByte, List.range_succ, Nat.ofDigits_cons, Nat.shiftRight_eq_div_pow] <;> omega

theorem readCell_writeCells_dataBytes (m : Memory) (i : Nat) (v : Word) (n j : Nat) :
    readCell (writeCells m i (dataBytes v n)) j =
      if i ≤ j ∧ j < i + n then some (v.extractLsb' (8 * (j - i)) 8) else readCell m j := by
  have hiff : (i ≤ j ∧ j - i < n) ↔ i ≤ j ∧ j < i + n := by omega
  rw [readCell_writeCells]
  simp only [length_dataBytes, hiff]
  split
  · simp [dataBytes, dataByte]
  · rfl

/-- Reading back the bytes just stored, whatever an unwritten byte would read as. -/
theorem map_readCell_writeCells_dataBytes (m : Memory) (i : Nat) (v : Word) (n : Nat) (free : Nat → Byte) :
    (List.range n).map (fun j => (readCell (writeCells m i (dataBytes v n)) (i + j)).getD (free (i + j))) =
      dataBytes v n := by
  refine List.map_congr_left fun j hj => ?_
  have hin : i ≤ i + j ∧ i + j < i + n := by
    have := List.mem_range.1 hj
    omega
  rw [readCell_writeCells_dataBytes, if_pos hin, Option.getD_some, Nat.add_sub_cancel_left, dataByte]

/-- A write that reaches a buffer of an idle block is accepted, and a read of the same place returns its bytes. -/
theorem hostWrite_then_hostRead {s : State} {addr : Offset} {n : Nat} {tgt : Target} (hidle : s.busy = false)
    (htgt : targetOf s.config addr n = some tgt) (hbuffer : ∀ r, tgt ≠ .reg r) (v : Word) :
    hostWrite s addr n v = writeTarget s n v tgt ∧ (hostWriteResponse s addr n).error = false ∧
      hostRead (writeTarget s n v tgt) addr n = ⟨false, dataWord (dataBytes v n)⟩ := by
  have hpermitted {t : State} (ht : t.busy = false) (hconfig : t.config = s.config) (isWrite : Bool) :
      permitted t addr n isWrite = some tgt := by
    rw [permitted_of_idle ht, hconfig, htgt]
  obtain ⟨hwrite, hresp⟩ := hostWrite_of_permitted (hpermitted hidle rfl true) v
  refine ⟨hwrite, hresp, ?_⟩
  cases tgt with
  | reg r => exact absurd rfl (hbuffer r)
  | inBuf i | outBuf i =>
    refine Eq.trans (hostRead_of_permitted (hpermitted hidle rfl false)) ?_
    exact congrArg (fun bs => BusResponse.mk false (dataWord bs)) (map_readCell_writeCells_dataBytes _ i v n _)

end Sys2Proof.Machine

/-! The statements of 20_memory.md: when the ENGINE step comes, bus errors, reads without effect, and the bytes of the
buffers. -/

namespace Sys2Proof

open Sys2Proof.Machine

/-! ## The ENGINE step comes -/

/-- Settles O56, by induction on the HOST accesses still to wait for: each of them leaves the operands as they are. -/
theorem engineStepComesWithFrozenOperands : Obligations.EngineStepComesWithFrozenOperands := by
  intro s hbusy hrst
  induction hdelay : s.engineDelay generalizing s with
  | zero => exact ⟨0, le_rfl, s, rfl, ⟨hbusy, .inl hdelay⟩, rfl, rfl, rfl, rfl, rfl, rfl, rfl⟩
  | succ d ih =>
    by_cases hmoves : EngineMoves s
    · exact ⟨0, Nat.zero_le _, s, rfl, hmoves, rfl, rfl, rfl, rfl, rfl, rfl, rfl⟩
    · obtain ⟨done, en, q, resp, hq, hstep⟩ := step_of_waiting hbusy hrst hmoves
      obtain ⟨k, hk, t, hrun, hkept⟩ := ih
        { s with doneBit := done, irqEn := en, hostQueue := q, busResp := resp, engineDelay := s.engineDelay - 1 }
        hbusy hq (Nat.sub_eq_of_eq_add hdelay)
      exact ⟨k + 1, Nat.succ_le_succ hk, t, (run_succ_of_step hstep k).trans hrun, hkept⟩

/-! ## Bus errors -/

/-- Settles O41: with no command in flight reads and writes alike reach what the map gives. -/
theorem busErrorExactlyOutsideTheMap : Obligations.BusErrorExactlyOutsideTheMap := by
  intro s addr n hidle
  rw [hostRead_error, hostWriteResponse_error, permitted_isNone_of_idle hidle, permitted_isNone_of_idle hidle]
  exact ⟨Iff.rfl, targetOf_isSome s.config addr n⟩

/-- Settles O42: a refused access answers on the port, and the step takes it off the queue and does no more. -/
theorem busErrorsChangeNothing : Obligations.BusErrorsChangeNothing := by
  intro s addr n v
  refine ⟨fun herr => ?_, fun herr => hostWrite_of_error herr v, fun rest h herr => ?_, fun rest h herr => ?_⟩
  · rw [hostRead_of_error herr]
    rfl
  · rw [step_of_hostMovesWith h, performEvent, hostRead_dequeueEvent, hostRead_of_error herr]
    rfl
  · refine ⟨(hostWriteResponse s addr n).data, ?_⟩
    rw [step_of_hostMovesWith h, performEvent, hostWrite_of_error (by simpa using herr), hostWriteResponse_dequeueEvent,
      ← herr]
    rfl

/-- Settles O43: the answer depends neither on the queue and the delay nor on the port's last answer. -/
theorem readsHaveNoSideEffect : Obligations.ReadsHaveNoSideEffect := by
  intro s addr n rest h
  refine ⟨_, step_of_hostMovesWith h, ?_, ?_⟩ <;> rw [performEvent, hostRead_dequeueEvent]
  · rfl
  · rw [hostRead_busResp, hostRead_dequeueEvent]

/-- Settles O60: a refused and an accepted write are both answered with data 0. -/
theorem writeAnswersCarryDataZero : Obligations.WriteAnswersCarryDataZero :=
  ⟨hostWriteResponse_data, fun _ addr n _ _ h => ⟨_, step_of_hostMovesWith h, hostWriteResponse_data _ addr n⟩⟩

/-! ## The bytes of the buffers -/

/-- Settles O52: the write and the read reach the same index of the same buffer, and the bytes stored there carry the low
bits of the data. -/
theorem bufferWriteThenRead : Obligations.BufferWriteThenRead := by
  intro s addr n i v hidle hlegal hn halign
  have hwidth : widthOk addr.toNat n = true := (widthOk_iff _ _).2 ⟨hn, halign⟩
  refine ⟨fun haddr hfits => ?_, fun haddr hfits => ?_⟩
  · obtain ⟨hwrite, hresp, hread⟩ := hostWrite_then_hostRead hidle (targetOf_eq_inBuf hwidth haddr hfits) nofun v
    refine ⟨_, hwrite, hresp, readCell_writeCells_dataBytes _ i v n, congrArg BusResponse.error hread, ?_⟩
    exact (congrArg (·.data.toNat) hread).trans (toNat_dataWord_dataBytes v hn)
  · obtain ⟨hwrite, hresp, hread⟩ :=
      hostWrite_then_hostRead hidle (targetOf_eq_outBuf hwidth hlegal (by omega) haddr hfits) nofun v
    refine ⟨_, hwrite, hresp, readCell_writeCells_dataBytes _ i v n, congrArg BusResponse.error hread, ?_⟩
    exact (congrArg (·.data.toNat) hread).trans (toNat_dataWord_dataBytes v hn)

/-- Settles O53: a read inside either buffer carries its bytes, and a data word is the number they are the digits of. -/
theorem mixedWidthReadsSeeTheSameBytes : Obligations.MixedWidthReadsSeeTheSameBytes := by
  intro s addr base cap i byte hlegal hbuffer haddr
  have hbase : base % 4 = 0 := by rcases hbuffer with ⟨rfl, -⟩ | ⟨-, rfl, -⟩ <;> rfl
  have hread (n : Nat) (hn : n = 1 ∨ n = 2 ∨ n = 4) (halign : i % n = 0) (hfits : i + n ≤ cap) :
      (hostRead s addr n).error = false ∧ (hostRead s addr n).data.toNat =
        Nat.ofDigits 256 (((List.range n).map fun j => byte (i + j)).map BitVec.toNat) := by
    have hwidth : widthOk addr.toNat n = true :=
      (widthOk_iff _ _).2 ⟨hn, by rcases hn with rfl | rfl | rfl <;> omega⟩
    have hanswer : hostRead s addr n = ⟨false, dataWord ((List.range n).map fun j => byte (i + j))⟩ := by
      rcases hbuffer with ⟨rfl, rfl, rfl⟩ | ⟨hidle, rfl, rfl, rfl⟩
      · exact hostRead_of_permitted (permitted_of_not_forbidden (targetOf_eq_inBuf hwidth haddr hfits) rfl)
      · exact hostRead_of_permitted ((permitted_of_idle hidle addr n false).trans
          (targetOf_eq_outBuf hwidth hlegal (by omega) haddr hfits))
    rw [hanswer]
    exact ⟨rfl, toNat_dataWord (by rw [List.length_map, List.length_range]; omega)⟩
  refine ⟨fun halign hfits => ?_, fun halign hfits => ?_, fun hfits => ?_⟩
  · obtain ⟨herr, hdata⟩ := hread 4 (by decide) halign hfits
    refine ⟨herr, hdata.trans ?_⟩
    simp [List.range_succ, Nat.ofDigits_cons]
    omega
  · obtain ⟨herr, hdata⟩ := hread 2 (by decide) halign hfits
    refine ⟨herr, hdata.trans ?_⟩
    simp [List.range_succ, Nat.ofDigits_cons]
  · obtain ⟨herr, hdata⟩ := hread 1 (by decide) (Nat.mod_one i) hfits
    refine ⟨herr, hdata.trans ?_⟩
    simp

end Sys2Proof

/-! SUPPORT. The command word as its fields: what the decoder accepts, and that a word is the encoding of a command exactly
when its fields are the command's (R70, R77, R82). -/

namespace Sys2Proof

/-! ## Fields and their values -/

/-- The ALPH field's value (R70). -/
def alphCode : Alphabet → Nat
  | .hex => 0
  | .base32 => 1
  | .base32hex => 2
  | .base64 => 3
  | .base64url => 4

theorem alphCode_le (a : Alphabet) : alphCode a ≤ 4 := by cases a <;> decide

theorem caseCode_lt (cs : CaseMode) : caseCode cs < 4 := by cases cs <;> decide

theorem alphabetOf_eq_some_iff (v : BitVec 3) (a : Alphabet) : alphabetOf v = some a ↔ v.toNat = alphCode a := by
  revert v
  cases a <;> decide

theorem alphabetOf_isSome_iff (v : BitVec 3) : (∃ a, alphabetOf v = some a) ↔ v.toNat ≤ 4 := by
  rw [← Option.isSome_iff_exists]
  revert v
  decide

theorem isBase64_iff (a : Alphabet) : isBase64 a = true ↔ 3 ≤ alphCode a := by cases a <;> decide

theorem caseModeOf_eq_iff (v : BitVec 2) (cs : CaseMode) : caseModeOf v = cs ↔ v.toNat = caseCode cs := by
  revert v
  cases cs <;> decide

/-- A word is its fields, each at its place (R70). -/
theorem toNat_eq_fields (w : Word) :
    w.toNat = (dirField w).toNat + 2 * (alphField w).toNat + 16 * (caseField w).toNat + 64 * (nopadField w).toNat +
      128 * (ignField w).toNat + 256 * (rsvdField w).toNat := by
  simp only [dirField, alphField, caseField, nopadField, ignField, rsvdField, BitVec.getLsbD, Nat.toNat_testBit,
    BitVec.extractLsb'_toNat, Nat.shiftRight_eq_div_pow]
  omega

/-! ## The option columns of R76 -/

theorem legalForEncode_iff (cs : CaseMode) : cs.legalForEncode = true ↔ cs ≠ .reserved ∧ cs ≠ .mixed := by
  cases cs <;> decide

theorem legalForDecode_iff (cs : CaseMode) : cs.legalForDecode = true ↔ cs ≠ .reserved := by cases cs <;> decide

theorem legalForBase64_iff (cs : CaseMode) : cs.legalForBase64 = true ↔ cs = .upper := by cases cs <;> decide

/-! ## Commands by table and direction -/

theorem exists_commandOf (i : Instr) : ∃ d a cs np ig, i = commandOf d a cs np ig := by
  cases i with
  | enc16 cs np ig => exact ⟨false, .hex, cs, np, ig, rfl⟩
  | dec16 cs np ig => exact ⟨true, .hex, cs, np, ig, rfl⟩
  | enc32 cs np ig => exact ⟨false, .base32, cs, np, ig, rfl⟩
  | dec32 cs np ig => exact ⟨true, .base32, cs, np, ig, rfl⟩
  | enc32hex cs np ig => exact ⟨false, .base32hex, cs, np, ig, rfl⟩
  | dec32hex cs np ig => exact ⟨true, .base32hex, cs, np, ig, rfl⟩
  | enc64 cs np ig => exact ⟨false, .base64, cs, np, ig, rfl⟩
  | dec64 cs np ig => exact ⟨true, .base64, cs, np, ig, rfl⟩
  | enc64url cs np ig => exact ⟨false, .base64url, cs, np, ig, rfl⟩
  | dec64url cs np ig => exact ⟨true, .base64url, cs, np, ig, rfl⟩

section
variable (d : Bool) (a : Alphabet) (cs : CaseMode) (np ig : Bool)

theorem opCode_commandOf : opCode (commandOf d a cs np ig) = d.toNat + 2 * alphCode a := by
  cases d <;> cases a <;> rfl

theorem optionsOf_commandOf : optionsOf (commandOf d a cs np ig) = (cs, np, ig) := by
  cases d <;> cases a <;> rfl

/-- The option columns of R76 are the last four lines of `Legal` (R77). -/
theorem wellFormed_commandOf_iff : (commandOf d a cs np ig).wellFormed = true ↔
    cs ≠ .reserved ∧ (d = true ∨ cs ≠ .mixed) ∧ (isBase64 a = false ∨ cs = .upper) ∧
      (ig = false ∨ (d = true ∧ isBase64 a = true)) := by
  have hupper : cs = .upper → cs ≠ .reserved ∧ cs ≠ .mixed := by
    rintro rfl
    decide
  cases d <;> cases a <;>
    simp [commandOf, Instr.wellFormed, isBase64, legalForEncode_iff, legalForDecode_iff, legalForBase64_iff] <;>
    tauto

end

/-! ## The decoder -/

/-- The decoder accepts a word with RSVD = 0 and a table in ALPH whose options its mnemonic allows, and gives the command
of its fields. -/
theorem decodeWord_eq_ok_iff (w : Word) (i : Instr) : decodeWord w = .ok i ↔
    rsvdField w = 0 ∧ ∃ a, alphabetOf (alphField w) = some a ∧ i.wellFormed = true ∧
      commandOf (dirField w) a (caseModeOf (caseField w)) (nopadField w) (ignField w) = i := by
  unfold decodeWord
  by_cases hrsvd : rsvdField w = 0
  · rw [if_neg (not_not.2 hrsvd)]
    cases halph : alphabetOf (alphField w) with
    | none => simp
    | some a =>
      have hwf := wellFormed_commandOf_iff (dirField w) a (caseModeOf (caseField w)) (nopadField w) (ignField w)
      simp only [hrsvd, true_and, Option.some.injEq, exists_eq_left']
      constructor
      · intro h
        split_ifs at h with hreserved hmixed hbase64 hign
        obtain rfl := Except.ok.inj h
        refine ⟨hwf.2 ⟨hreserved, ?_, ?_, ?_⟩, rfl⟩ <;> grind
      · rintro ⟨hi, rfl⟩
        obtain ⟨hreserved, hmixed, hbase64, hign⟩ := hwf.1 hi
        rw [if_neg hreserved, if_neg (by grind), if_neg (by grind), if_neg (by grind)]
  · rw [if_pos hrsvd]
    exact ⟨nofun, fun h => absurd h.1 hrsvd⟩

/-! ## The encoder -/

theorem wordLayout (i : Instr) : Laws.WordLayout.Statement i := by
  cases i with
  | enc16 cs np ig => exact Laws.WordLayout.enc16 cs np ig
  | dec16 cs np ig => exact Laws.WordLayout.dec16 cs np ig
  | enc32 cs np ig => exact Laws.WordLayout.enc32 cs np ig
  | dec32 cs np ig => exact Laws.WordLayout.dec32 cs np ig
  | enc32hex cs np ig => exact Laws.WordLayout.enc32hex cs np ig
  | dec32hex cs np ig => exact Laws.WordLayout.dec32hex cs np ig
  | enc64 cs np ig => exact Laws.WordLayout.enc64 cs np ig
  | dec64 cs np ig => exact Laws.WordLayout.dec64 cs np ig
  | enc64url cs np ig => exact Laws.WordLayout.enc64url cs np ig
  | dec64url cs np ig => exact Laws.WordLayout.dec64url cs np ig

/-- The word of a command as the sum of its fields (R82). -/
theorem toNat_encode (i : Instr) : (encode i).toNat = opCode i + 16 * caseCode (optionsOf i).1 +
    64 * (optionsOf i).2.1.toNat + 128 * (optionsOf i).2.2.toNat := by
  obtain ⟨hop, hcase, hnopad, hign, hrsvd⟩ := wordLayout i
  rw [← hop, ← hcase, ← hnopad, ← hign]
  replace hrsvd := congrArg BitVec.toNat hrsvd
  simp only [BitVec.getLsbD, Nat.toNat_testBit, BitVec.extractLsb'_toNat, Nat.shiftRight_eq_div_pow] at hrsvd ⊢
  simp only [BitVec.reduceToNat] at hrsvd
  omega

/-- A word is a command's encoding exactly when its fields are the command's. -/
theorem encode_commandOf_eq_iff (d : Bool) (a : Alphabet) (cs : CaseMode) (np ig : Bool) (w : Word) :
    encode (commandOf d a cs np ig) = w ↔
      rsvdField w = 0 ∧ alphabetOf (alphField w) = some a ∧ dirField w = d ∧ caseModeOf (caseField w) = cs ∧
        nopadField w = np ∧ ignField w = ig := by
  have hbool : ∀ b c : Bool, b = c ↔ b.toNat = c.toNat := by decide
  have hzero : (0 : BitVec 24).toNat = 0 := rfl
  rw [alphabetOf_eq_some_iff, caseModeOf_eq_iff, hbool, hbool, hbool, ← BitVec.toNat_inj, ← BitVec.toNat_inj, hzero,
    toNat_encode, opCode_commandOf, optionsOf_commandOf, toNat_eq_fields w]
  have halph := alphCode_le a
  have hcase := caseCode_lt cs
  have hdir := And.intro d.toNat_le (dirField w).toNat_le
  have hnopad := And.intro np.toNat_le (nopadField w).toNat_le
  have hign := And.intro ig.toNat_le (ignField w).toNat_le
  dsimp only
  omega

end Sys2Proof

/-! SUPPORT. Legal words and the rows of the opcode table (R77, R79). -/

namespace Sys2Proof

/-- On the fields of a word, the options its mnemonic allows are the last four lines of `Legal` (R77). -/
theorem wellFormed_iff_legal_options {w : Word} {a : Alphabet} (halph : alphabetOf (alphField w) = some a) :
    (commandOf (dirField w) a (caseModeOf (caseField w)) (nopadField w) (ignField w)).wellFormed = true ↔
      (caseField w).toNat ≠ 3 ∧ (dirField w = true ∨ (caseField w).toNat ≠ 2) ∧
        ((alphField w).toNat < 3 ∨ (caseField w).toNat = 0) ∧
        (ignField w = false ∨ (dirField w = true ∧ 3 ≤ (alphField w).toNat)) := by
  rw [wellFormed_commandOf_iff, ← Bool.not_eq_true (isBase64 a), isBase64_iff, ← (alphabetOf_eq_some_iff _ a).1 halph,
    not_le]
  simp only [ne_eq, caseModeOf_eq_iff, caseCode]

/-- The decoder accepts exactly the words `Legal` is true of (R77). -/
theorem exists_decodeWord_iff_legalWord (w : Word) : (∃ i, decodeWord w = .ok i) ↔ LegalWord w := by
  simp only [decodeWord_eq_ok_iff]
  constructor
  · rintro ⟨_, hrsvd, a, halph, hwf, rfl⟩
    exact ⟨hrsvd, (alphabetOf_isSome_iff _).1 ⟨a, halph⟩, (wellFormed_iff_legal_options halph).1 hwf⟩
  · rintro ⟨hrsvd, hle, hoptions⟩
    obtain ⟨a, halph⟩ := (alphabetOf_isSome_iff _).2 hle
    exact ⟨_, hrsvd, a, halph, (wellFormed_iff_legal_options halph).2 hoptions, rfl⟩

/-- The rows of the opcode table are told apart by OP: a row covers no word of another OP. -/
theorem opField_of_covers {r : OpcodeRow} (hr : r ∈ opcodeTable) {w : Word} (h : r.covers w = true) :
    w.toNat % 16 = r.bits.toNat := by
  have hrow : ∀ r ∈ opcodeTable, r.mask &&& 0xF = 0xF ∧ r.bits &&& 0xF = r.bits := by decide
  obtain ⟨hmask, hbits⟩ := hrow r hr
  have hand : w &&& r.mask = r.bits := by simpa [OpcodeRow.covers] using h
  have hop : w &&& 0xF = r.bits := by rw [← hbits, ← hand, BitVec.and_assoc, hmask]
  rw [← hop, BitVec.toNat_and]
  exact (Nat.and_two_pow_sub_one_eq_mod w.toNat 4).symm

/-- The mask of a mnemonic's row leaves out the options the mnemonic may set (R79). -/
theorem covers_encode_of_opCode {i : Instr} (hwf : i.wellFormed = true) :
    ∀ r ∈ opcodeTable, r.bits.toNat = opCode i → r.covers (encode i) = true := by
  cases i <;> rename_i cs np ig <;> cases cs <;> decide +revert

theorem covers_encode_iff {i : Instr} (hwf : i.wellFormed = true) {r : OpcodeRow} (hr : r ∈ opcodeTable) :
    r.covers (encode i) = true ↔ r.bits.toNat = opCode i := by
  refine ⟨fun h => ?_, covers_encode_of_opCode hwf r hr⟩
  rw [← opField_of_covers hr h, ← (wordLayout i).1]
  simp

end Sys2Proof

/-! SUPPORT. The ENGINE step and the end of a command, by their cases (R61, R80, R205). -/

namespace Sys2Proof.Machine

theorem step_of_engineMoves {s : State} (h : EngineMoves s) : step s = engineStep s := by
  rcases step_cases s with ⟨-, -, hstep⟩ | ⟨hwait, -⟩
  · exact hstep
  · exact absurd h hwait

theorem engineStep_of_decodeWord_ok {s : State} {i : Instr} (h : decodeWord s.cmd = .ok i) : engineStep s = exec i s := by
  rw [engineStep, h]

/-- The ENGINE step of an illegal word looks at no input (R205). -/
theorem engineStep_of_not_legalWord {s : State} (h : ¬LegalWord s.cmd) :
    engineStep s = .next (takeError .illegalCommand 0 0 s) := by
  rcases engineStep_cases s with ⟨i, hdec, -⟩ | ⟨r, -, hstep⟩
  · exact absurd ((exists_decodeWord_iff_legalWord s.cmd).1 ⟨i, hdec⟩) h
  · exact hstep

theorem exec_of_not_wellFormed {i : Instr} (h : i.wellFormed = false) (s : State) :
    exec i s = .next (takeError .illegalCommand 0 0 s) := by
  rw [exec_eq_runCommand, h]
  rfl

/-- A well-formed command on an input that fits runs its codec (R80, R207). -/
theorem exec_eq_finishCommand {i : Instr} {s : State} (hwf : i.wellFormed = true)
    (hlen : s.latLen.toNat ≤ s.config.inBufBytes) : exec i s = finishCommand (codecOf i (inputBytes s)) s := by
  rw [exec_eq_runCommand, hwf, runCommand, if_neg (by decide), if_neg (Nat.not_lt.2 hlen)]

/-- ERR_POS can show the position of every error a codec raises (R30). -/
theorem codecOf_error_pos_lt {i : Instr} {s : State} {e : CodecError} (h : codecOf i (inputBytes s) = .error e) :
    e.pos < 2 ^ 17 := by
  obtain ⟨hplain, hsymbol⟩ := codecOf_error h
  by_cases hcode : e.code = .invalidSymbol
  · exact (length_inputBytes s ▸ hsymbol hcode).trans s.latLen.isLt
  · rw [(hplain hcode).2]
    decide

section
variable {i : Instr} {s : State} (hwf : i.wellFormed = true)
  (hlen : s.latLen.toNat ≤ s.config.inBufBytes)
include hwf hlen

/-- Under legal capacities a command whose codec gives `y` succeeds with `y` (R80, R135). -/
theorem exec_succeeds_of_codecOf_ok (hlegal : s.config.Legal) {y : List Byte} (h : codecOf i (inputBytes s) = .ok y) :
    ∃ t, exec i s = .next t ∧ Succeeded s t y := by
  refine ⟨completeOk y s, ?_, completeOk_succeeded y s (length_codecOf_lt hlegal hlen h)⟩
  have hfits : y.length ≤ s.config.outBufBytes := by
    have hy := length_codecOf_le h
    obtain ⟨-, -, hcap, -⟩ := hlegal
    rw [length_inputBytes] at hy
    omega
  rw [exec_eq_finishCommand hwf hlen, h, finishCommand, if_pos hfits]

/-- A command whose codec raises `e` fails with it (R80, R204). -/
theorem exec_fails_of_codecOf_error {e : CodecError} (h : codecOf i (inputBytes s) = .error e) :
    ∃ t, exec i s = .next t ∧ FailedWith s t e.code.number e.byte e.pos := by
  refine ⟨_, ?_, takeError_failedWith e.code e.byte e.pos s (codecOf_error_pos_lt h)⟩
  rw [exec_eq_finishCommand hwf hlen, h, finishCommand]

/-- Under legal capacities a command on an input that fits ends as its codec says (R80). -/
theorem exec_ends_as_codecOf (hlegal : s.config.Legal) :
    ∃ t, exec i s = .next t ∧
      match codecOf i (inputBytes s) with
      | .ok y => Succeeded s t y
      | .error e => FailedWith s t e.code.number e.byte e.pos := by
  cases hcodec : codecOf i (inputBytes s) with
  | ok y => exact exec_succeeds_of_codecOf_ok hwf hlen hlegal hcodec
  | error e => exact exec_fails_of_codecOf_error hwf hlen hcodec

end

end Sys2Proof.Machine

/-! The statements of 30_encoding.md: the command word and its opcode table, which words run, and how a command ends. -/

namespace Sys2Proof

open Sys2Proof.Machine

/-! ## The command word -/

/-- Settles O2: what the decoder accepts and what encodes to a word are told by the same fields. -/
theorem decodeAndEncodeAgree : Obligations.DecodeAndEncodeAgree := by
  intro w i
  rw [decodeWord_eq_ok_iff]
  constructor
  · rintro ⟨hrsvd, a, halph, hwf, rfl⟩
    exact ⟨hwf, (encode_commandOf_eq_iff _ _ _ _ _ w).2 ⟨hrsvd, halph, rfl, rfl, rfl, rfl⟩⟩
  · rintro ⟨hwf, henc⟩
    obtain ⟨d, a, cs, np, ig, rfl⟩ := exists_commandOf i
    obtain ⟨hrsvd, halph, rfl, rfl, rfl, rfl⟩ := (encode_commandOf_eq_iff d a cs np ig w).1 henc
    exact ⟨hrsvd, a, halph, hwf, rfl⟩

/-- Settles O4: the word is the command's encoding, and a row covers it exactly when the row's OP is the command's. -/
theorem legalWordMatchesItsTableRowOnly : Obligations.LegalWordMatchesItsTableRowOnly := by
  intro w i hdec
  obtain ⟨hwf, rfl⟩ := (decodeAndEncodeAgree w i).1 hdec
  have hrows : opcodeTable.filter (fun r => r.covers (encode i)) =
      opcodeTable.filter (fun r => r.bits.toNat = opCode i) :=
    List.filter_congr fun r hr => by rw [Bool.eq_iff_iff, covers_encode_iff hwf hr, decide_eq_true_iff]
  rw [hrows]
  cases i <;> rfl

/-- Settles O1, by evaluating the decoder and the assembler on the words and lines written out. -/
theorem commandWordsDecodeAsSpelled : Obligations.CommandWordsDecodeAsSpelled := by
  unfold Obligations.CommandWordsDecodeAsSpelled
  decide

/-! ## Which command a step runs -/

/-- Settles O3: `Legal` decides what decodes, CMD takes any word while idle, and the step of an illegal word is the same
error completion whatever IN_BUF holds. -/
theorem illegalWordsAreAcceptedAndFail : Obligations.IllegalWordsAreAcceptedAndFail := by
  refine ⟨exists_decodeWord_iff_legalWord, fun s w hidle => ?_, fun s hmoves hillegal => ?_⟩
  · obtain ⟨hresp, hw⟩ := hostWrite_cmd_of_idle hidle w
    rw [hw]
    exact ⟨hresp, acceptCommand_cmd s w, acceptCommand_busy s w⟩
  · refine ⟨_, (step_of_engineMoves hmoves).trans (engineStep_of_not_legalWord hillegal),
      takeError_failedWith .illegalCommand 0 0 s (by decide), fun m e => ?_⟩
    exact (step_of_engineMoves (s := { s with inBuf := m, inEpoch := e }) hmoves).trans
      (engineStep_of_not_legalWord hillegal)

/-- Settles O5: the ENGINE's turn is the ENGINE step, and that runs the decoded command. -/
theorem stepRunsTheDecodedCommand : Obligations.StepRunsTheDecodedCommand :=
  fun _ _ hmoves hdec => (step_of_engineMoves hmoves).trans (engineStep_of_decodeWord_ok hdec)

/-! ## How a command ends -/

/-- Settles O8: legality is checked first, so neither the length nor the input matters. -/
theorem forbiddenOptionEndsWithIllegalCommand : Obligations.ForbiddenOptionEndsWithIllegalCommand :=
  fun _ s hwf => ⟨_, exec_of_not_wellFormed hwf s, takeError_failedWith .illegalCommand 0 0 s (by decide)⟩

/-- Settles O21: with legal options the codec of each decode command is `Decode` of its table. -/
theorem decodeCommandsEndAsDecodeSays : Obligations.DecodeCommandsEndAsDecodeSays := by
  intro s cs nopad ign hlegal hlen
  refine ⟨fun i a ⟨hcs, hi⟩ => ?_, fun i a hi => ?_⟩
  · have hcase : cs.legalForDecode = true := (legalForDecode_iff cs).2 hcs
    have hwf : i.wellFormed = true := by
      rcases hi with ⟨rfl, -⟩ | ⟨rfl, -⟩ | ⟨rfl, -⟩ <;> simp [Instr.wellFormed, hcase]
    have hcodec : codecOf i (inputBytes s) = decodeSymbols a cs (!nopad) false (inputBytes s) := by
      rcases hi with ⟨rfl, rfl⟩ | ⟨rfl, rfl⟩ | ⟨rfl, rfl⟩ <;> rfl
    exact hcodec ▸ exec_ends_as_codecOf hwf hlen hlegal
  · have hwf : i.wellFormed = true := by
      rcases hi with ⟨rfl, -⟩ | ⟨rfl, -⟩ <;> rfl
    have hcodec : codecOf i (inputBytes s) = decodeSymbols a .upper (!nopad) ign (inputBytes s) := by
      rcases hi with ⟨rfl, rfl⟩ | ⟨rfl, rfl⟩ <;> rfl
    exact hcodec ▸ exec_ends_as_codecOf hwf hlen hlegal

end Sys2Proof

/-! SUPPORT. The forward tables as one-to-one maps, and the inverse lookup as the forward tables read backwards (R107 to
R112). -/

namespace Sys2Proof.Machine

/-! ## The forward tables -/

/-- `Fwd(a, lower)[v] = Lower(Fwd(a, upper)[v])` (R107). -/
theorem fwd_lower (a : Alphabet) (v : Nat) : fwd a .lower v = lowerByte (fwd a .upper v) :=
  List.getD_map (romTable a) 0 lowerByte

theorem fwd_eq_getElem {a : Alphabet} {lc : LetterCase} {v : Nat} (hv : v < (fwdTable a lc).length) :
    fwd a lc v = (fwdTable a lc)[v] :=
  List.getD_eq_getElem _ _ hv

theorem lowerByte_lowerByte (c : Byte) : lowerByte (lowerByte c) = lowerByte c := by
  unfold lowerByte
  split
  · rw [if_neg (by bv_omega)]
  · rfl

theorem nodup_fwdTable {a : Alphabet} {lc : LetterCase} (hcase : EncodeCaseAllowed a lc) : (fwdTable a lc).Nodup := by
  revert hcase
  cases a <;> cases lc <;> decide

/-- R112 (a). -/
theorem fwd_injective {a : Alphabet} {lc : LetterCase} (hcase : EncodeCaseAllowed a lc) {v w : Nat}
    (hv : v < 2 ^ bitsPerSymbol a) (hw : w < 2 ^ bitsPerSymbol a) (h : fwd a lc v = fwd a lc w) : v = w := by
  rw [← length_fwdTable a lc] at hv hw
  rw [fwd_eq_getElem hv, fwd_eq_getElem hw] at h
  exact (nodup_fwdTable hcase).getElem_inj_iff.1 h

/-- A byte that two cases share stands at one value: lowered, both its places are in the lower table (R110). -/
theorem eq_of_fwd_upper_eq_fwd_lower {a : Alphabet} (hcase : EncodeCaseAllowed a .lower) {v w : Nat}
    (hv : v < 2 ^ bitsPerSymbol a) (hw : w < 2 ^ bitsPerSymbol a) (h : fwd a .upper v = fwd a .lower w) : v = w := by
  refine fwd_injective hcase hv hw ?_
  calc fwd a .lower v = lowerByte (fwd a .lower w) := by rw [fwd_lower, h]
    _ = fwd a .lower w := by rw [fwd_lower, lowerByte_lowerByte]

/-- The pad byte and the whitespace bytes (R112 (c), (d)). -/
theorem not_mem_fwdTable {c : Byte} (hc : c ∈ ([0x3D, 0x20, 0x09, 0x0D, 0x0A] : List Byte)) (a : Alphabet)
    (lc : LetterCase) : c ∉ fwdTable a lc := by
  revert c
  cases a <;> cases lc <;> decide

/-! ## The inverse lookup -/

/-- R109. -/
theorem invLetter_eq_some_iff {a : Alphabet} {lc : LetterCase} (hcase : EncodeCaseAllowed a lc) {c : Byte} {v : Nat} :
    invLetter a lc c = some v ↔ v < 2 ^ bitsPerSymbol a ∧ fwd a lc v = c := by
  refine ⟨invLetter_eq_some, fun ⟨hv, hc⟩ => ?_⟩
  cases h : invLetter a lc c with
  | none => exact absurd hc (invLetter_eq_none.1 h v hv)
  | some w =>
    obtain ⟨hw, hcw⟩ := invLetter_eq_some h
    rw [fwd_injective hcase hw hv (hcw.trans hc.symm)]

/-- R110: trying the upper table first loses nothing, since a byte in both tables has one value. -/
theorem inv_mixed_eq_some_iff {a : Alphabet} (hcase : EncodeCaseAllowed a .lower) {c : Byte} {v : Nat} :
    inv a .mixed c = some v ↔ v < 2 ^ bitsPerSymbol a ∧ (fwd a .upper v = c ∨ fwd a .lower v = c) := by
  have hupper : EncodeCaseAllowed a .upper := .inl rfl
  simp only [inv, Option.or_eq_some_iff, invLetter_eq_some_iff hupper, invLetter_eq_some_iff hcase, invLetter_eq_none]
  constructor
  · rintro (⟨hv, h⟩ | ⟨-, hv, h⟩)
    · exact ⟨hv, .inl h⟩
    · exact ⟨hv, .inr h⟩
  · rintro ⟨hv, h | h⟩
    · exact .inl ⟨hv, h⟩
    · by_cases hup : fwd a .upper v = c
      · exact .inl ⟨hv, hup⟩
      · refine .inr ⟨fun w hw hcw => hup ?_, hv, h⟩
        rwa [← eq_of_fwd_upper_eq_fwd_lower hcase hw hv (hcw.trans h.symm)]

theorem invLetter_eq_none_of_not_mem {a : Alphabet} {lc : LetterCase} {c : Byte} (h : c ∉ fwdTable a lc) :
    invLetter a lc c = none := by
  refine List.findIdx?_eq_none_iff.2 fun x hx => beq_eq_false_iff_ne.2 ?_
  rintro rfl
  exact h hx

/-- A byte in no table is no symbol in any case mode. -/
theorem inv_eq_none_of_not_mem {a : Alphabet} {c : Byte} (h : ∀ lc, c ∉ fwdTable a lc) (cs : CaseMode) :
    inv a cs c = none := by
  have hnone (lc : LetterCase) : invLetter a lc c = none := invLetter_eq_none_of_not_mem (h lc)
  cases cs <;> simp [inv, hnone]

end Sys2Proof.Machine

/-! The statements of 40_alphabet_rom.md: the contents of the tables, the inverse lookup, and the ROM's invariants. -/

namespace Sys2Proof

open Sys2Proof.Machine

/-- Settles O37: upper and lower read one forward table backwards, mixed reads both (R110), and no table allows the reserved
value (R111). -/
theorem inverseLookupIsExact : Obligations.InverseLookupIsExact := by
  intro a cs c v hcase
  cases cs with
  | upper =>
    rw [inv, invLetter_eq_some_iff (.inl rfl)]
    simp
  | lower =>
    obtain ⟨-, ha⟩ := hcase.resolve_left (by decide)
    rw [inv, invLetter_eq_some_iff (.inr ha)]
    simp
  | mixed =>
    obtain ⟨-, ha⟩ := hcase.resolve_left (by decide)
    rw [inv_mixed_eq_some_iff (.inr ha)]
    simp
  | reserved =>
    obtain ⟨hcs, -⟩ := hcase.resolve_left (by decide)
    exact absurd rfl hcs

/-- Settles O36, table by table, by comparing every entry with its formula. -/
theorem romHoldsTheFiveTables : Obligations.RomHoldsTheFiveTables := by
  refine ⟨?hex, ?base32, ?base32hex, ?base64, rfl, rfl, rfl, rfl⟩
  case hex => decide
  case base32 => decide
  case base32hex => decide
  case base64 => decide

/-- Settles O38: (a), then (b) for upper and lower, (c) and (d), and (e). -/
theorem romInvariants : Obligations.RomInvariants := by
  refine ⟨fun a lc hcase v hv w hw h => fwd_injective hcase hv hw h,
    fun a v hv => (invLetter_eq_some_iff (.inl rfl)).2 ⟨hv, rfl⟩,
    fun a hcase v hv => (invLetter_eq_some_iff hcase).2 ⟨hv, rfl⟩,
    fun a cs c hc => inv_eq_none_of_not_mem (not_mem_fwdTable hc a) cs,
    fun a hcase v hv => ⟨?_, ?_⟩⟩
  · exact (inv_mixed_eq_some_iff hcase).2 ⟨hv, .inr (fwd_lower a v)⟩
  · exact (inv_mixed_eq_some_iff hcase).2 ⟨hv, .inl rfl⟩

end Sys2Proof

/-! SUPPORT. `Encode` in its parts: a full group in front, a tail, the empty input, and how long the whole is (R120 to
R125). -/

namespace Sys2Proof.Machine

/-! ## Symbol values as the digits of a value -/

/-- The value whose digits in base `2^k` are `vs`, the first most significant: what R121 cuts into symbols. -/
def symbolsValue (k : Nat) : List Nat → Nat
  | [] => 0
  | v :: vs => v * 2 ^ (vs.length * k) + symbolsValue k vs

/-- `vs` are the digits of `w` in base `2^k`, leading zeros included. -/
def HasDigits (k : Nat) (vs : List Nat) (w : Nat) : Prop := (∀ v ∈ vs, v < 2 ^ k) ∧ symbolsValue k vs = w

theorem symbolsValue_lt {k : Nat} {vs : List Nat} (hvs : ∀ v ∈ vs, v < 2 ^ k) :
    symbolsValue k vs < 2 ^ (vs.length * k) := by
  induction vs with
  | nil => simp [symbolsValue]
  | cons v vs ih =>
    obtain ⟨hv, hrest⟩ := List.forall_mem_cons.1 hvs
    rw [List.length_cons, Nat.succ_mul, Nat.add_comm]
    exact concatBits_lt hv (ih hrest)

/-- Cutting a value, above any multiple of its size, looks up its digits in order. -/
theorem cutSymbols_symbolsValue (F : Nat → Byte) {k : Nat} (c : Nat) {vs : List Nat} (hvs : ∀ v ∈ vs, v < 2 ^ k) :
    cutSymbols F k vs.length (c * 2 ^ (vs.length * k) + symbolsValue k vs) = vs.map F := by
  induction vs generalizing c with
  | nil => rfl
  | cons v vs ih =>
    obtain ⟨hv, hrest⟩ := List.forall_mem_cons.1 hvs
    have hsplit : c * 2 ^ ((vs.length + 1) * k) + symbolsValue k (v :: vs) =
        (c * 2 ^ k + v) * 2 ^ (vs.length * k) + symbolsValue k vs := by
      rw [symbolsValue, Nat.succ_mul, Nat.pow_add]
      ring
    rw [List.length_cons, hsplit, cutSymbols_succ, ih _ hrest, List.map_cons]
    congr 2
    rw [Nat.shiftRight_eq_div_pow, Nat.mul_comm, Nat.mul_add_div (by positivity),
      Nat.div_eq_of_lt (symbolsValue_lt hrest), Nat.add_zero, Nat.mul_add_mod', Nat.mod_eq_of_lt hv]

theorem cutSymbols_of_hasDigits (F : Nat → Byte) {k : Nat} {vs : List Nat} {w : Nat} (h : HasDigits k vs w) :
    cutSymbols F k vs.length w = vs.map F := by
  obtain ⟨hvs, rfl⟩ := h
  simpa using cutSymbols_symbolsValue F 0 hvs

/-- A value of `m` symbols is told by its symbols, since they can be looked up (R112). -/
theorem cutSymbols_injective {a : Alphabet} {lc : LetterCase} (hcase : EncodeCaseAllowed a lc) {m w₁ w₂ : Nat}
    (h₁ : w₁ < 2 ^ (m * bitsPerSymbol a)) (h₂ : w₂ < 2 ^ (m * bitsPerSymbol a))
    (h : cutSymbols (fwd a lc) (bitsPerSymbol a) m w₁ = cutSymbols (fwd a lc) (bitsPerSymbol a) m w₂) : w₁ = w₂ := by
  have hI : ∀ v < 2 ^ bitsPerSymbol a, invLetter a lc (fwd a lc v) = some v :=
    fun v hv => (invLetter_eq_some_iff hcase).2 ⟨hv, rfl⟩
  have hread₁ := assembleSymbols_cutSymbols hI m 0 w₁ _ (map_byte_positioned _)
  have hread₂ := assembleSymbols_cutSymbols hI m 0 w₂ _ (map_byte_positioned _)
  rw [h, hread₂, Except.ok.injEq, Nat.mod_eq_of_lt h₁, Nat.mod_eq_of_lt h₂] at hread₁
  omega

theorem groupValue_injective {x y : List Byte} (hlen : x.length = y.length) (h : groupValue x = groupValue y) : x = y := by
  rw [← bytesOfValue_groupValue 0 x, ← bytesOfValue_groupValue 0 y, hlen, h]

/-! ## The rows of the tail table -/

/-- A tail's symbols hold its bytes and the `z` bits of zero fill (R123). -/
theorem tailRow_bits {k t m z : Nat} (h : tailRow k t = some (m, z)) : m * k = 8 * t + z := by
  unfold tailRow at h
  split at h <;> cases h <;> rfl

theorem tailRow_symbols_pos {k t m z : Nat} (h : tailRow k t = some (m, z)) : 0 < m := by
  unfold tailRow at h
  split at h <;> cases h <;> decide

/-- Every tail that is not empty has a row; base16 has groups of one byte, and so no tail. -/
theorem tailRow_eq_none_iff {a : Alphabet} {t : Nat} (ht : t < bytesPerGroup a) :
    tailRow (bitsPerSymbol a) t = none ↔ t = 0 := by
  revert t
  cases a <;> decide

theorem length_encodeTail_eq_zero_iff (a : Alphabet) (F : Nat → Byte) (x : List Byte) :
    (encodeTail a F x).length = 0 ↔ x.length % bytesPerGroup a = 0 := by
  rw [length_encodeTail, ← tailRow_eq_none_iff (Nat.mod_lt _ (bytesPerGroup_pos a))]
  split
  · rename_i m z hrow
    simp [hrow, (tailRow_symbols_pos hrow).ne']
  · rename_i hrow
    simp [hrow]

/-! ## A full group in front -/

theorem encodeGroups_append_group {a : Alphabet} (F : Nat → Byte) {g : List Byte} (hg : g.length = bytesPerGroup a)
    (x : List Byte) : encodeGroups a F (g ++ x) =
      cutSymbols F (bitsPerSymbol a) (symbolsPerGroup a) (groupValue g) ++ encodeGroups a F x := by
  rw [encodeGroups, byteGroups_append (bytesPerGroup_pos a) g x hg, List.flatMap_cons, encodeGroups]

theorem encodeTail_append_group {a : Alphabet} (F : Nat → Byte) {g : List Byte} (hg : g.length = bytesPerGroup a)
    (x : List Byte) : encodeTail a F (g ++ x) = encodeTail a F x := by
  have hpos := bytesPerGroup_pos a
  have hdrop : (g ++ x).drop ((g ++ x).length / bytesPerGroup a * bytesPerGroup a) =
      x.drop (x.length / bytesPerGroup a * bytesPerGroup a) := by
    rw [List.length_append, hg, Nat.add_div_left _ hpos, Nat.succ_mul, Nat.add_comm, ← hg, List.drop_append]
    simp
  rw [encodeTail, encodeTail, hdrop, List.length_append, hg, Nat.add_mod_left]

/-- A full group moves no boundary, so it leaves the padding as it is. -/
theorem padSymbols_append_group {p : List Byte} {g : Nat} (hp : p.length = g) (y : List Byte) (c : Byte) :
    padSymbols (p ++ y) g c = p ++ padSymbols y g c := by
  unfold padSymbols
  rw [List.length_append, hp, Nat.add_mod_left]
  split
  · rfl
  · rw [List.append_assoc]

theorem encodeBytes_append_group {a : Alphabet} (lc : LetterCase) (pad : Bool) {g : List Byte}
    (hg : g.length = bytesPerGroup a) (x : List Byte) : encodeBytes a lc pad (g ++ x) =
      cutSymbols (fwd a lc) (bitsPerSymbol a) (symbolsPerGroup a) (groupValue g) ++ encodeBytes a lc pad x := by
  simp only [encodeBytes, encodeGroups_append_group _ hg, encodeTail_append_group _ hg, List.append_assoc]
  split
  · exact padSymbols_append_group (length_cutSymbols ..) _ _
  · rfl

/-- R121, R122: a group whose bits are the symbol values `vs` gives their symbols, and the rest follows. -/
theorem encodeBytes_group_symbols {a : Alphabet} {lc : LetterCase} {pad : Bool} {g x : List Byte} {vs : List Nat}
    (hg : g.length = bytesPerGroup a) (hlen : vs.length = symbolsPerGroup a)
    (hvs : HasDigits (bitsPerSymbol a) vs (groupValue g)) :
    encodeBytes a lc pad (g ++ x) = vs.map (fwd a lc) ++ encodeBytes a lc pad x := by
  rw [encodeBytes_append_group lc pad hg, ← hlen, cutSymbols_of_hasDigits _ hvs]

/-! ## The empty input and the tails -/

@[simp] theorem encodeBytes_nil (a : Alphabet) (lc : LetterCase) (pad : Bool) : encodeBytes a lc pad [] = [] := by
  cases a <;> cases pad <;> rfl

/-- R123, R124, R125: a tail alone is shifted left by its zero fill, cut, and padded to a full group. -/
theorem encodeBytes_of_tailRow {a : Alphabet} (lc : LetterCase) (pad : Bool) {x : List Byte} {m z : Nat}
    (hx : x.length < bytesPerGroup a) (hrow : tailRow (bitsPerSymbol a) x.length = some (m, z)) :
    encodeBytes a lc pad x = cutSymbols (fwd a lc) (bitsPerSymbol a) m (groupValue x <<< z) ++
      List.replicate (if pad then symbolsPerGroup a - m else 0) padByte := by
  have hgroups : encodeGroups a (fwd a lc) x = [] := by rw [encodeGroups, byteGroups_of_length_lt x hx, List.flatMap_nil]
  have htail : encodeTail a (fwd a lc) x = cutSymbols (fwd a lc) (bitsPerSymbol a) m (groupValue x <<< z) := by
    rw [encodeTail, Nat.mod_eq_of_lt hx, hrow, Nat.div_eq_of_lt hx, Nat.zero_mul, List.drop_zero]
  have hm := tailRow_lt_symbolsPerGroup hrow
  have hk : bitsPerSymbol a ≠ 4 := by rcases tailRow_lt hrow with h | h <;> omega
  simp only [encodeBytes, hgroups, htail, List.nil_append]
  cases pad
  · simp
  · simp [hk, padSymbols, Nat.mod_eq_of_lt hm, (tailRow_symbols_pos hrow).ne']

/-- R123: a tail whose bits and zero fill are the symbol values `vs` gives their symbols. -/
theorem encodeBytes_tail_symbols {a : Alphabet} {lc : LetterCase} {pad : Bool} {x : List Byte} {vs : List Nat} {z : Nat}
    (hx : x.length < bytesPerGroup a) (hrow : tailRow (bitsPerSymbol a) x.length = some (vs.length, z))
    (hvs : HasDigits (bitsPerSymbol a) vs (groupValue x * 2 ^ z)) :
    encodeBytes a lc pad x =
      vs.map (fwd a lc) ++ List.replicate (if pad then symbolsPerGroup a - vs.length else 0) padByte := by
  rw [encodeBytes_of_tailRow lc pad hx hrow, Nat.shiftLeft_eq, cutSymbols_of_hasDigits _ hvs]

/-! ## Lengths -/

/-- Without padding: the full groups and the tail. -/
theorem length_encodeBytes_of_no_pad {a : Alphabet} {pad : Bool} (h : ¬(pad = true ∧ bitsPerSymbol a ≠ 4))
    (lc : LetterCase) (x : List Byte) : (encodeBytes a lc pad x).length =
      x.length / bytesPerGroup a * symbolsPerGroup a + (encodeTail a (fwd a lc) x).length := by
  rw [encodeBytes, if_neg h, List.length_append, length_encodeGroups]

/-- With padding: every group begun is full. -/
theorem length_encodeBytes_of_pad {a : Alphabet} (ha : bitsPerSymbol a ≠ 4) (lc : LetterCase) (x : List Byte) :
    (encodeBytes a lc true x).length = symbolsPerGroup a * ((x.length + (bytesPerGroup a - 1)) / bytesPerGroup a) := by
  have htail := length_encodeTail_lt a (fwd a lc) x
  have hempty := length_encodeTail_eq_zero_iff a (fwd a lc) x
  rw [encodeBytes, if_pos ⟨rfl, ha⟩, length_padSymbols, List.length_append, length_encodeGroups, Nat.mul_add_mod',
    Nat.mod_eq_of_lt htail]
  split <;> cases a <;> simp only [bytesPerGroup, symbolsPerGroup] at * <;> omega

/-- R132: the output length is a function of the table, the padding and the input length. -/
theorem length_encodeBytes_congr (a : Alphabet) (lc₁ lc₂ : LetterCase) (pad : Bool) {x y : List Byte}
    (h : x.length = y.length) : (encodeBytes a lc₁ pad x).length = (encodeBytes a lc₂ pad y).length := by
  by_cases hpad : pad = true ∧ bitsPerSymbol a ≠ 4
  · obtain ⟨rfl, ha⟩ := hpad
    rw [length_encodeBytes_of_pad ha, length_encodeBytes_of_pad ha, h]
  · rw [length_encodeBytes_of_no_pad hpad, length_encodeBytes_of_no_pad hpad, length_encodeTail, length_encodeTail, h]

end Sys2Proof.Machine

/-! SUPPORT. Induction over the groups of an input; lowering the symbols, which commutes with every part of the encoder
(R107, R133); and that an encoding tells its input (R132). -/

namespace Sys2Proof.Machine

/-- What holds of every tail, and of an input with a full group in front whenever it holds of the input, holds of every
input. -/
theorem group_induction {B : Nat} (hB : 0 < B) {P : List Byte → Prop} (tail : ∀ x, x.length < B → P x)
    (group : ∀ g x, g.length = B → P x → P (g ++ x)) (x : List Byte) : P x := by
  by_cases hx : x.length < B
  · exact tail x hx
  · have hrest : P (x.drop B) := group_induction hB tail group (x.drop B)
    have hfront : (x.take B).length = B := by simp; omega
    exact List.take_append_drop B x ▸ group _ _ hfront hrest
termination_by x.length
decreasing_by simp; omega

/-! ## Lowering -/

theorem fwd_lower_eq_comp (a : Alphabet) : fwd a .lower = lowerByte ∘ fwd a .upper := funext (fwd_lower a)

theorem cutSymbols_comp (f : Byte → Byte) (F : Nat → Byte) (k m w : Nat) :
    cutSymbols (f ∘ F) k m w = (cutSymbols F k m w).map f := by
  simp [cutSymbols]

theorem encodeGroups_comp (f : Byte → Byte) (a : Alphabet) (F : Nat → Byte) (x : List Byte) :
    encodeGroups a (f ∘ F) x = (encodeGroups a F x).map f := by
  simp only [encodeGroups, cutSymbols_comp, List.map_flatMap]

theorem encodeTail_comp (f : Byte → Byte) (a : Alphabet) (F : Nat → Byte) (x : List Byte) :
    encodeTail a (f ∘ F) x = (encodeTail a F x).map f := by
  unfold encodeTail
  split
  · exact cutSymbols_comp ..
  · rfl

theorem map_padSymbols (f : Byte → Byte) (y : List Byte) (g : Nat) (c : Byte) :
    (padSymbols y g c).map f = padSymbols (y.map f) g (f c) := by
  unfold padSymbols
  rw [List.length_map]
  split
  · rfl
  · rw [List.map_append, List.map_replicate]

theorem lowerByte_padByte : lowerByte padByte = padByte := by decide

theorem encodeBytes_lower (a : Alphabet) (pad : Bool) (x : List Byte) :
    encodeBytes a .lower pad x = (encodeBytes a .upper pad x).map lowerByte := by
  simp only [encodeBytes, fwd_lower_eq_comp, encodeGroups_comp, encodeTail_comp, ← List.map_append]
  split
  · rw [map_padSymbols, lowerByte_padByte]
  · rfl

/-! ## Different inputs -/

/-- R132 for tails: the symbols tell the shifted value, and that tells the bytes. -/
theorem encodeBytes_tail_injective {a : Alphabet} {lc : LetterCase} (hcase : EncodeCaseAllowed a lc) {pad : Bool}
    {x y : List Byte} (hx : x.length < bytesPerGroup a) (hlen : x.length = y.length)
    (h : encodeBytes a lc pad x = encodeBytes a lc pad y) : x = y := by
  cases hrow : tailRow (bitsPerSymbol a) x.length with
  | none =>
    have hempty : x.length = 0 := (tailRow_eq_none_iff hx).1 hrow
    rw [List.eq_nil_of_length_eq_zero hempty, List.eq_nil_of_length_eq_zero (hlen.symm.trans hempty)]
  | some row =>
    obtain ⟨m, z⟩ := row
    have hfits {v : List Byte} (hv : v.length = x.length) : groupValue v <<< z < 2 ^ (m * bitsPerSymbol a) := by
      rw [tailRow_bits hrow, Nat.shiftLeft_eq, Nat.pow_add, ← hv]
      exact Nat.mul_lt_mul_of_pos_right (groupValue_lt v) (by positivity)
    rw [encodeBytes_of_tailRow lc pad hx hrow, encodeBytes_of_tailRow lc pad (hlen ▸ hx) (hlen ▸ hrow)] at h
    have hshift := cutSymbols_injective hcase (hfits rfl) (hfits hlen.symm) (List.append_cancel_right h)
    rw [Nat.shiftLeft_eq, Nat.shiftLeft_eq] at hshift
    exact groupValue_injective hlen (Nat.eq_of_mul_eq_mul_right (by positivity) hshift)

/-- R132: group by group, and then the tail. -/
theorem encodeBytes_injective {a : Alphabet} {lc : LetterCase} (hcase : EncodeCaseAllowed a lc) {pad : Bool}
    {x y : List Byte} (hlen : x.length = y.length) (h : encodeBytes a lc pad x = encodeBytes a lc pad y) : x = y := by
  induction x using group_induction (bytesPerGroup_pos a) generalizing y with
  | tail x hx => exact encodeBytes_tail_injective hcase hx hlen h
  | group g x hg ih =>
    rw [List.length_append, hg] at hlen
    have hg' : (y.take (bytesPerGroup a)).length = bytesPerGroup a := by
      rw [List.length_take]
      omega
    have hfits {v : List Byte} (hv : v.length = bytesPerGroup a) :
        groupValue v < 2 ^ (symbolsPerGroup a * bitsPerSymbol a) := by
      rw [symbols_mul_bits, ← hv]
      exact groupValue_lt v
    rw [← List.take_append_drop (bytesPerGroup a) y] at h ⊢
    rw [encodeBytes_append_group lc pad hg, encodeBytes_append_group lc pad hg'] at h
    obtain ⟨hfront, hrest⟩ := List.append_inj h (by simp)
    have hgroup := groupValue_injective (hg.trans hg'.symm) (cutSymbols_injective hcase (hfits hg) (hfits hg') hfront)
    have htail := ih (by rw [List.length_drop]; omega) hrest
    rw [← hgroup, ← htail]

end Sys2Proof.Machine

/-! SUPPORT. A decode never gives more bytes than its input has (R135): each group gives fewer bytes than it has data
symbols, and re-padding adds no data symbol. -/

namespace Sys2Proof.Machine

/-- A successful decode of an aligned sequence that is not empty: the groups before the last, then the last (R140). -/
theorem decodeAligned_eq_ok {I : Byte → Option Nat} {k B S : Nat} {u : List Symbol} {y : List Byte}
    (hG : u.length / S ≠ 0) (h : decodeAligned I k B S u = .ok y) :
    ∃ front last, decodeGroups I k B (symbolGroups S (u.length / S - 1) u) = .ok front ∧
      decodeFinal I k S ((u.drop ((u.length / S - 1) * S)).take S) = .ok last ∧ y = front ++ last := by
  unfold decodeAligned at h
  simp only [if_neg hG] at h
  split at h
  · simp at h
  · rename_i front hfront
    split at h
    · simp at h
    · rename_i last hlast
      exact ⟨front, last, hfront, hlast, (Except.ok.inj h).symm⟩

theorem decodeFinal_ok_length {I : Byte → Option Nat} {k S : Nat} {f : List Symbol} {y : List Byte}
    (h : decodeFinal I k S f = .ok y) : legalShape k (padRun f) = some y.length := by
  rcases decodeFinal_cases I k S f with hf | ⟨c, -, -, -, -, hf⟩ | ⟨nb, w, hshape, hf⟩ <;> rw [hf] at h
  · simp at h
  · simp at h
  · obtain rfl := Except.ok.inj h
    rw [hshape, length_bytesOfValue]

/-- The bytes and the pads of a legal final group together are fewer than its symbols (R146). -/
theorem legalShape_add_lt {k p nb : Nat} (h : legalShape k p = some nb) : k = 6 ∧ nb + p < 4 ∨ k = 5 ∧ nb + p < 8 := by
  unfold legalShape at h
  split at h <;> cases h <;> decide

theorem legalShape_add_lt_symbolsPerGroup {a : Alphabet} {p nb : Nat}
    (h : legalShape (bitsPerSymbol a) p = some nb) : nb + p < symbolsPerGroup a := by
  have hshape := legalShape_add_lt h
  cases a <;> simp only [bitsPerSymbol, symbolsPerGroup] at hshape ⊢ <;> omega

theorem padRun_append_pads (f : List Symbol) (r : Nat) :
    padRun (f ++ List.replicate r ⟨padByte, none⟩) = padRun f + r := by
  simp [padRun, Nat.add_comm]

/-- Both ways of aligning append fewer pads than a group has symbols, none where padding is enabled (R144). -/
theorem alignSymbols_eq_ok {S : Nat} (hS : 0 < S) {pad : Bool} {u v : List Symbol} (h : alignSymbols S pad u = .ok v) :
    ∃ r < S, v = u ++ List.replicate r ⟨padByte, none⟩ ∧ (u.length + r) % S = 0 := by
  rcases alignSymbols_cases S pad u with ⟨-, -, ha⟩ | ⟨-, hmod, ha⟩ | ⟨-, ha⟩ <;> rw [ha] at h
  · simp at h
  · obtain rfl := Except.ok.inj h
    exact ⟨0, hS, by simp, hmod⟩
  · refine ⟨(S - u.length % S) % S, Nat.mod_lt _ hS, (Except.ok.inj h).symm, ?_⟩
    have hle : u.length % S ≤ S := (Nat.mod_lt _ hS).le
    rw [Nat.add_mod_mod, ← Nat.mod_add_mod, Nat.add_sub_cancel' hle, Nat.mod_self]

/-- The final group of a sequence with `r` pads appended ends with them, so it has at most `S - r` data symbols. -/
theorem length_decodeAligned_append_pads_le {I : Byte → Option Nat} {a : Alphabet} {u : List Symbol} {r : Nat}
    {y : List Byte} (hr : r < symbolsPerGroup a) (halign : (u.length + r) % symbolsPerGroup a = 0)
    (h : decodeAligned I (bitsPerSymbol a) (bytesPerGroup a) (symbolsPerGroup a)
      (u ++ List.replicate r ⟨padByte, none⟩) = .ok y) : y.length ≤ u.length := by
  have hlen : (u ++ List.replicate r (⟨padByte, none⟩ : Symbol)).length = u.length + r := by simp
  by_cases hG : (u.length + r) / symbolsPerGroup a = 0
  · rcases decodeAligned_ok_length h with ⟨-, rfl⟩ | ⟨hpos, -⟩
    · exact Nat.zero_le _
    · exact absurd (hlen ▸ hG) hpos.ne'
  · obtain ⟨front, last, hfront, hlast, rfl⟩ := decodeAligned_eq_ok (hlen ▸ hG) h
    have hshape := decodeFinal_ok_length hlast
    have hfrontLen := decodeGroups_ok_length hfront
    rw [length_symbolGroups] at hfrontLen
    rw [hlen] at hfrontLen hshape
    obtain ⟨G, hGS⟩ := Nat.exists_eq_succ_of_ne_zero hG
    have htotal : G * symbolsPerGroup a + symbolsPerGroup a = u.length + r := by
      rw [← Nat.succ_mul, ← hGS, Nat.div_mul_cancel (Nat.dvd_of_mod_eq_zero halign)]
    rw [hGS, Nat.succ_sub_one] at hfrontLen hshape
    rw [List.drop_append_of_le_length (by omega), List.take_of_length_le (by simp; omega), padRun_append_pads] at hshape
    have hlastLen := legalShape_add_lt_symbolsPerGroup hshape
    have hgroup : bytesPerGroup a ≤ symbolsPerGroup a := by cases a <;> decide
    have hgroups := Nat.mul_le_mul_left G hgroup
    rw [List.length_append, hfrontLen]
    omega

/-- R135: a decode gives at most as many bytes as its input has. -/
theorem length_decodeSymbols_le_length {a : Alphabet} {cs : CaseMode} {pad ign : Bool} {s y : List Byte}
    (h : decodeSymbols a cs pad ign s = .ok y) : y.length ≤ s.length := by
  unfold decodeSymbols at h
  simp only at h
  have hu : (if ign = true then stripWhitespace s else positioned s).length ≤ s.length := by
    split
    · exact length_stripWhitespace_le s
    · exact (length_positioned s).le
  refine le_trans ?_ hu
  generalize (if ign = true then stripWhitespace s else positioned s) = u at h
  split at h
  · rw [decodeHex_ok_length h]
    exact Nat.div_le_self _ _
  · split at h
    · simp at h
    · rename_i v hv
      obtain ⟨r, hr, rfl, halign⟩ := alignSymbols_eq_ok (symbolsPerGroup_pos a) hv
      exact length_decodeAligned_append_pads_le hr halign h

end Sys2Proof.Machine

/-! The statements of 41_encode.md: the five encode commands, and `Encode` group by group, its tails, its lengths, its case
and its injectivity. -/

namespace Sys2Proof

open Sys2Proof.Machine

/-! ## Groups and tails -/

/-- Settles O15: in each clause the values listed are the digits of the group's value. -/
theorem fullGroupGivesItsBitsInOrder : Obligations.FullGroupGivesItsBitsInOrder := by
  refine ⟨fun lc pad b x => ?hex, fun a lc pad b₀ b₁ b₂ x ha => ?base64, fun a lc pad b₀ b₁ b₂ b₃ b₄ x ha => ?base32⟩
  case hex =>
    refine encodeBytes_group_symbols (g := [b]) rfl rfl ?_
    simp [HasDigits, bitsPerSymbol, symbolsValue, groupValue_cons]
    omega
  case base64 =>
    have hdigits : HasDigits 6 [b₀.toNat / 4, b₀.toNat % 4 * 16 + b₁.toNat / 16, b₁.toNat % 16 * 4 + b₂.toNat / 64,
        b₂.toNat % 64] (groupValue [b₀, b₁, b₂]) := by
      simp [HasDigits, symbolsValue, groupValue_cons]
      omega
    rcases ha with rfl | rfl <;> exact encodeBytes_group_symbols (g := [b₀, b₁, b₂]) rfl rfl hdigits
  case base32 =>
    have hdigits : HasDigits 5 [b₀.toNat / 8, b₀.toNat % 8 * 4 + b₁.toNat / 64, b₁.toNat % 64 / 2,
        b₁.toNat % 2 * 16 + b₂.toNat / 16, b₂.toNat % 16 * 2 + b₃.toNat / 128, b₃.toNat % 128 / 4,
        b₃.toNat % 4 * 8 + b₄.toNat / 32, b₄.toNat % 32] (groupValue [b₀, b₁, b₂, b₃, b₄]) := by
      simp [HasDigits, symbolsValue, groupValue_cons]
      omega
    rcases ha with rfl | rfl <;> exact encodeBytes_group_symbols (g := [b₀, b₁, b₂, b₃, b₄]) rfl rfl hdigits

/-- Settles O16: in each row the values listed are the digits of the tail's value shifted by its zero fill. -/
theorem tailsAreZeroFilledAndPadded : Obligations.TailsAreZeroFilledAndPadded := by
  refine ⟨fun a lc pad b₀ b₁ ha => ?base64, fun a lc pad b₀ b₁ b₂ b₃ ha => ?base32⟩
  case base64 =>
    have htail {x : List Byte} {vs : List Nat} {z : Nat} (hx : x.length < 3)
        (hrow : tailRow 6 x.length = some (vs.length, z)) (hvs : HasDigits 6 vs (groupValue x * 2 ^ z)) :
        encodeBytes a lc pad x = vs.map (fwd a lc) ++ List.replicate (if pad then 4 - vs.length else 0) padByte := by
      rcases ha with rfl | rfl <;> exact encodeBytes_tail_symbols hx hrow hvs
    refine ⟨encodeBytes_nil a lc pad, htail (by simp) rfl ?_, htail (by simp) rfl ?_⟩
    all_goals
      simp [HasDigits, symbolsValue, groupValue_cons]
      omega
  case base32 =>
    have htail {x : List Byte} {vs : List Nat} {z : Nat} (hx : x.length < 5)
        (hrow : tailRow 5 x.length = some (vs.length, z)) (hvs : HasDigits 5 vs (groupValue x * 2 ^ z)) :
        encodeBytes a lc pad x = vs.map (fwd a lc) ++ List.replicate (if pad then 8 - vs.length else 0) padByte := by
      rcases ha with rfl | rfl <;> exact encodeBytes_tail_symbols hx hrow hvs
    refine ⟨encodeBytes_nil a lc pad, htail (by simp) rfl ?_, htail (by simp) rfl ?_, htail (by simp) rfl ?_,
      htail (by simp) rfl ?_⟩
    all_goals
      simp [HasDigits, symbolsValue, groupValue_cons]
      omega

/-! ## The encode commands -/

/-- A group of base16 is one byte (R121, R122). -/
theorem encodeBytes_hex (lc : LetterCase) (pad : Bool) (x : List Byte) : encodeBytes .hex lc pad x =
    x.flatMap fun b => [fwd .hex lc (b.toNat / 16), fwd .hex lc (b.toNat % 16)] := by
  induction x with
  | nil => exact encodeBytes_nil .hex lc pad
  | cons b x ih =>
    obtain ⟨hhex, -, -⟩ := fullGroupGivesItsBitsInOrder
    rw [hhex, ih]
    rfl

/-- Settles O12: the codec of ENC16 is `Encode` of table 0, which is one group per byte. -/
theorem enc16WritesTwoSymbolsPerByte : Obligations.Enc16WritesTwoSymbolsPerByte := by
  intro s nopad hlegal hlen
  rw [← encodeBytes_hex .upper (!nopad), ← encodeBytes_hex .lower (!nopad)]
  exact ⟨exec_succeeds_of_codecOf_ok rfl hlen hlegal rfl, exec_succeeds_of_codecOf_ok rfl hlen hlegal rfl⟩

/-- Settles O13: the codecs of ENC32 and ENC32HEX are `Encode` of tables 1 and 2. -/
theorem base32EncodersWriteTheEncoding : Obligations.Base32EncodersWriteTheEncoding := by
  rintro s nopad cs lc hlegal hlen (⟨rfl, rfl⟩ | ⟨rfl, rfl⟩) <;>
    exact ⟨exec_succeeds_of_codecOf_ok rfl hlen hlegal rfl, exec_succeeds_of_codecOf_ok rfl hlen hlegal rfl⟩

/-- Settles O14: the codecs of ENC64 and ENC64URL are `Encode` of tables 3 and 4. -/
theorem base64EncodersWriteTheEncoding : Obligations.Base64EncodersWriteTheEncoding :=
  fun _ _ hlegal hlen =>
    ⟨exec_succeeds_of_codecOf_ok rfl hlen hlegal rfl, exec_succeeds_of_codecOf_ok rfl hlen hlegal rfl⟩

/-! ## Lengths -/

/-- The column `m` of R123 for base32. -/
theorem length_encodeTail_base32 {a : Alphabet} (ha : a = .base32 ∨ a = .base32hex) (F : Nat → Byte) (x : List Byte) :
    (encodeTail a F x).length = [0, 2, 4, 5, 7].getD (x.length % 5) 0 := by
  have ht : x.length % 5 < 5 := Nat.mod_lt _ (by decide)
  rw [length_encodeTail]
  rcases ha with rfl | rfl <;> simp only [bitsPerSymbol, bytesPerGroup] <;> interval_cases x.length % 5 <;> rfl

/-- The column `m` of R123 for base64. -/
theorem length_encodeTail_base64 {a : Alphabet} (ha : a = .base64 ∨ a = .base64url) (F : Nat → Byte) (x : List Byte) :
    (encodeTail a F x).length = [0, 2, 3].getD (x.length % 3) 0 := by
  have ht : x.length % 3 < 3 := Nat.mod_lt _ (by decide)
  rw [length_encodeTail]
  rcases ha with rfl | rfl <;> simp only [bitsPerSymbol, bytesPerGroup] <;> interval_cases x.length % 3 <;> rfl

/-- Settles O17: full groups and the tail without padding, and with it one group more wherever there is a tail. -/
theorem encodedLengthIsTheTables : Obligations.EncodedLengthIsTheTables := by
  intro lc x
  refine ⟨fun pad => ?hex, fun a ha => ⟨?pad32, ?nopad32⟩, fun a ha => ⟨?pad64, ?nopad64⟩⟩
  case hex => simp [encodeBytes_hex, List.length_flatMap, Nat.mul_comm]
  case pad32 => rcases ha with rfl | rfl <;> exact length_encodeBytes_of_pad (by decide) lc x
  case nopad32 =>
    rw [length_encodeBytes_of_no_pad (by simp), length_encodeTail_base32 ha]
    rcases ha with rfl | rfl <;> simp only [bytesPerGroup, symbolsPerGroup] <;> omega
  case pad64 => rcases ha with rfl | rfl <;> exact length_encodeBytes_of_pad (by decide) lc x
  case nopad64 =>
    rw [length_encodeBytes_of_no_pad (by simp), length_encodeTail_base64 ha]
    rcases ha with rfl | rfl <;> simp only [bytesPerGroup, symbolsPerGroup] <;> omega

/-- Settles O18: both bounds fit in the `2n + 8` bytes that legal capacities leave (R5). -/
theorem outputAlwaysFits : Obligations.OutputAlwaysFits := by
  intro c x hlegal hx
  obtain ⟨-, -, hcap, -⟩ := hlegal
  refine ⟨fun a lc pad => ?_, fun a cs pad ign y hy => ?_⟩
  · have henc := length_encodeBytes_le a lc pad x
    omega
  · have hdec := length_decodeSymbols_le_length hy
    omega

/-! ## Case and injectivity -/

/-- Settles O19: the lower table is the upper one lowered (R107), and `'='` is no capital. -/
theorem lowerEncodingIsUpperLowered : Obligations.LowerEncodingIsUpperLowered :=
  encodeBytes_lower

/-- Settles O20: lengths depend on the input's length, and the symbols of each group and of the tail tell its bytes. -/
theorem encodingIsInjective : Obligations.EncodingIsInjective :=
  fun a lc pad _ _ hlen =>
    ⟨fun lc' => length_encodeBytes_congr a lc lc' pad hlen, fun hcase h => encodeBytes_injective hcase hlen h⟩

end Sys2Proof

/-! SUPPORT. Looking symbols up: the first symbol outside the inverse table decides whether a lookup, and a run of full
groups, fails (R143, R145, R148, R203). -/

namespace Sys2Proof.Machine

/-! ## The first bad symbol -/

/-- The first symbol outside the inverse table. -/
def firstBad (I : Byte → Option Nat) (f : List Symbol) : Option Symbol := f.find? fun c => (I c.byte).isNone

theorem firstBad_eq_none_iff {I : Byte → Option Nat} {f : List Symbol} :
    firstBad I f = none ↔ ∀ x ∈ f.map Symbol.byte, I x ≠ none := by
  simp [firstBad, List.find?_eq_none]

theorem firstBad_cons_of_none {I : Byte → Option Nat} {c : Symbol} (hc : I c.byte = none) (rest : List Symbol) :
    firstBad I (c :: rest) = some c :=
  List.find?_cons_of_pos (by simp [hc])

theorem firstBad_cons_of_some {I : Byte → Option Nat} {c : Symbol} {v : Nat} (hc : I c.byte = some v)
    (rest : List Symbol) : firstBad I (c :: rest) = firstBad I rest :=
  List.find?_cons_of_neg (by simp [hc])

theorem firstBad_append (I : Byte → Option Nat) (f g : List Symbol) :
    firstBad I (f ++ g) = (firstBad I f).or (firstBad I g) :=
  List.find?_append

/-- Valid symbols, then one outside the table. -/
theorem firstBad_append_cons {I : Byte → Option Nat} {good : List Symbol} {c : Symbol}
    (hgood : ∀ x ∈ good.map Symbol.byte, I x ≠ none) (hc : I c.byte = none) (rest : List Symbol) :
    firstBad I (good ++ c :: rest) = some c := by
  rw [firstBad_append, firstBad_eq_none_iff.2 hgood, firstBad_cons_of_none hc, Option.none_or]

/-- A lookup fails at the first bad symbol, and only there. -/
theorem assembleSymbols_cases (I : Byte → Option Nat) (k w : Nat) (f : List Symbol) :
    (∃ c, firstBad I f = some c ∧ assembleSymbols I k w f = .error (symbolError c)) ∨
    (firstBad I f = none ∧ ∃ r, assembleSymbols I k w f = .ok r) := by
  induction f generalizing w with
  | nil => exact .inr ⟨rfl, w, rfl⟩
  | cons c rest ih =>
    cases hc : I c.byte with
    | none => exact .inl ⟨c, firstBad_cons_of_none hc rest, by simp [assembleSymbols, hc]⟩
    | some v => simpa [assembleSymbols, hc, firstBad_cons_of_some hc] using ih (concatBits w k v)

/-- A run of groups fails at the first bad symbol of them all. -/
theorem decodeGroups_cases (I : Byte → Option Nat) (k B : Nat) (gs : List (List Symbol)) :
    (∃ c, firstBad I gs.flatten = some c ∧ decodeGroups I k B gs = .error (symbolError c)) ∨
    (firstBad I gs.flatten = none ∧ ∃ y, decodeGroups I k B gs = .ok y) := by
  induction gs with
  | nil => exact .inr ⟨rfl, [], rfl⟩
  | cons g rest ih =>
    rw [List.flatten_cons, firstBad_append]
    rcases assembleSymbols_cases I k 0 g with ⟨c, hbad, hg⟩ | ⟨hgood, w, hg⟩
    · exact .inl ⟨c, by simp [hbad], by simp [decodeGroups, hg]⟩
    · rcases ih with ⟨c, hbad, hrest⟩ | ⟨hvalid, y, hrest⟩
      · exact .inl ⟨c, by simp [hgood, hbad], by simp [decodeGroups, hg, hrest]⟩
      · exact .inr ⟨by simp [hgood, hvalid], bytesOfValue B w ++ y, by simp [decodeGroups, hg, hrest]⟩

theorem decodeGroups_cons_of_ok {I : Byte → Option Nat} {k B w : Nat} {g : List Symbol}
    (hg : assembleSymbols I k 0 g = .ok w) (gs : List (List Symbol)) :
    decodeGroups I k B (g :: gs) = (decodeGroups I k B gs).map (bytesOfValue B w ++ ·) := by
  rw [decodeGroups, hg]
  cases decodeGroups I k B gs <;> rfl

/-- Cutting whole groups and joining them again gives the symbols back. -/
theorem flatten_symbolGroups {S n : Nat} {u : List Symbol} (hu : u.length = n * S) :
    (symbolGroups S n u).flatten = u := by
  induction n generalizing u with
  | zero =>
    rw [Nat.zero_mul] at hu
    rw [List.eq_nil_of_length_eq_zero hu]
    rfl
  | succ n ih =>
    rw [Nat.succ_mul] at hu
    have hfront : (u.take S).length = S := by simp; omega
    have hrest : (u.drop S).length = n * S := by simp; omega
    conv_lhs => rw [← List.take_append_drop S u]
    rw [symbolGroups_append _ _ hfront, List.flatten_cons, ih hrest, List.take_append_drop]

/-- Symbols behind the groups cut do not matter. -/
theorem symbolGroups_append_right {S n : Nat} {u : List Symbol} (hu : u.length = n * S) (v : List Symbol) :
    symbolGroups S n (u ++ v) = symbolGroups S n u := by
  unfold symbolGroups
  refine List.map_congr_left fun g hg => ?_
  have hle : (g + 1) * S ≤ n * S := Nat.mul_le_mul_right S (List.mem_range.1 hg)
  rw [Nat.succ_mul] at hle
  rw [List.drop_append_of_le_length (by omega), List.take_append_of_le_length (by simp; omega)]

/-! ## Looked-up values -/

/-- A lookup succeeds with the value whose digits are the symbols' values (R145). -/
theorem assembleSymbols_of_values {I : Byte → Option Nat} {k : Nat} (w : Nat) {f : List Symbol} {vs : List Nat}
    (h : (f.map Symbol.byte).map I = vs.map some) :
    assembleSymbols I k w f = .ok (w * 2 ^ (vs.length * k) + symbolsValue k vs) := by
  induction vs generalizing w f with
  | nil =>
    obtain rfl : f = [] := by simpa using h
    simp [assembleSymbols, symbolsValue]
  | cons v vs ih =>
    obtain ⟨c, rest, rfl⟩ := List.exists_cons_of_ne_nil (l := f) (by rintro rfl; simp at h)
    obtain ⟨hc, hrest⟩ := List.cons_eq_cons.1 h
    rw [assembleSymbols, hc]
    simp only
    rw [ih _ hrest, concatBits, symbolsValue, List.length_cons, Nat.succ_mul, Nat.pow_add]
    congr 1
    ring

/-- The pad byte is no symbol (R112 (c)). -/
theorem inv_padByte (a : Alphabet) (cs : CaseMode) : inv a cs padByte = none :=
  inv_eq_none_of_not_mem (not_mem_fwdTable (by decide) a) cs

theorem padByte_not_mem_of_valid {a : Alphabet} {cs : CaseMode} {bs : List Byte} (h : ∀ x ∈ bs, inv a cs x ≠ none) :
    padByte ∉ bs :=
  fun hmem => h _ hmem (inv_padByte a cs)

end Sys2Proof.Machine

/-! SUPPORT. The final group by its data symbols and its trailing pads (R146 to R149), and an aligned sequence as its front
groups and its final group (R140). -/

namespace Sys2Proof.Machine

/-! ## Trailing pads -/

/-- Every symbol is the pad byte, wherever it stands. -/
def AllPads (A : List Symbol) : Prop := ∀ c ∈ A, c.byte = padByte

theorem allPads_replicate (r : Nat) (pos : Option Nat) : AllPads (List.replicate r ⟨padByte, pos⟩) := by
  intro c hc
  rw [List.eq_of_mem_replicate hc]

theorem allPads_of_map_byte {A : List Symbol} {p : Nat} (h : A.map Symbol.byte = List.replicate p padByte) : AllPads A :=
  fun _ hc => List.eq_of_mem_replicate (h ▸ List.mem_map_of_mem hc)

theorem map_byte_of_allPads {A : List Symbol} (hA : AllPads A) : A.map Symbol.byte = List.replicate A.length padByte :=
  List.eq_replicate_iff.2 ⟨List.length_map _, List.forall_mem_map.2 hA⟩

theorem padRun_append_allPads (v : List Symbol) {A : List Symbol} (hA : AllPads A) :
    padRun (v ++ A) = padRun v + A.length := by
  unfold padRun
  have hrev : ∀ c ∈ A.reverse, (c.byte == padByte) = true := fun c hc => beq_iff_eq.2 (hA c (List.mem_reverse.1 hc))
  rw [List.reverse_append, List.takeWhile_append_of_pos hrev, List.length_append, List.length_reverse, Nat.add_comm]

theorem padRun_eq_zero {v : List Symbol} (hv : padByte ∉ v.map Symbol.byte) : padRun v = 0 := by
  rw [padRun, List.length_eq_zero_iff, List.takeWhile_eq_nil_iff]
  intro hpos hlast
  exact hv (List.mem_map.2 ⟨_, List.mem_reverse.1 (List.get_mem v.reverse ⟨0, hpos⟩), beq_iff_eq.1 hlast⟩)

/-- Every group is some symbols and then its trailing pads. -/
theorem exists_append_pads (f : List Symbol) : ∃ v A, f = v ++ A ∧ AllPads A ∧ A.length = padRun f := by
  refine ⟨f.rdropWhile fun c => c.byte == padByte, f.rtakeWhile fun c => c.byte == padByte,
    (List.rdropWhile_append_rtakeWhile ..).symm, fun c hc => ?_, by simp [List.rtakeWhile, padRun]⟩
  simpa using List.mem_rtakeWhile_imp hc

/-! ## The final group -/

theorem legalPadCount_iff (a : Alphabet) (p : Nat) : LegalPadCount a p ↔ ∃ nb, legalShape (bitsPerSymbol a) p = some nb := by
  constructor
  · rintro (⟨hk, rfl | rfl | rfl⟩ | ⟨hk, rfl | rfl | rfl | rfl | rfl⟩) <;> exact ⟨_, by rw [hk]; rfl⟩
  · rintro ⟨nb, h⟩
    unfold legalShape at h
    split at h <;> simp_all [LegalPadCount]

section
variable {I : Byte → Option Nat} {a : Alphabet} {k S : Nat} {v A : List Symbol}

/-- Which pads stand at the end does not matter, since none of them is looked up (R148). -/
theorem decodeFinal_allPads_congr {A' : List Symbol} (hA : AllPads A) (hA' : AllPads A') (hlen : A'.length = A.length)
    (hS : v.length + A.length = S) : decodeFinal I k S (v ++ A') = decodeFinal I k S (v ++ A) := by
  have htake (E : List Symbol) : (v ++ E).take (S - (padRun v + A.length)) = v.take (S - (padRun v + A.length)) :=
    List.take_append_of_le_length (by omega)
  simp only [decodeFinal, padRun_append_allPads v hA, padRun_append_allPads v hA', hlen, htake]

/-- A group of a legal shape: its data symbols looked up, and the low bits that make no byte dropped (R147 to R149). -/
theorem decodeFinal_of_legal {nb : Nat} (hv : padByte ∉ v.map Symbol.byte) (hA : AllPads A)
    (hS : v.length + A.length = S) (hshape : legalShape k A.length = some nb) :
    decodeFinal I k S (v ++ A) =
      (assembleSymbols I k 0 v).map fun w => bytesOfValue nb (w >>> (v.length * k - 8 * nb)) := by
  have hrun : padRun (v ++ A) = A.length := by rw [padRun_append_allPads v hA, padRun_eq_zero hv, Nat.zero_add]
  have hd : S - A.length = v.length := by omega
  have hnopad : ¬v.any (fun c => c.byte == padByte) = true := by simpa using hv
  simp only [decodeFinal, hrun, hshape, hd, List.take_left, if_neg hnopad]
  cases assembleSymbols I k 0 v <;> rfl

/-- In a group of a legal shape the first bad data symbol is the one reported (R148). -/
theorem decodeFinal_of_firstBad {nb : Nat} (hv : padByte ∉ v.map Symbol.byte) (hA : AllPads A)
    (hS : v.length + A.length = S) (hshape : legalShape k A.length = some nb) {c : Symbol} (hbad : firstBad I v = some c) :
    decodeFinal I k S (v ++ A) = .error (symbolError c) := by
  rw [decodeFinal_of_legal hv hA hS hshape]
  rcases assembleSymbols_cases I k 0 v with ⟨d, hd, hw⟩ | ⟨hvalid, -⟩
  · rw [hw, Option.some.inj (hd.symm.trans hbad)]
    rfl
  · cases hvalid.symm.trans hbad

/-- A group of any other shape (R147). -/
theorem decodeFinal_of_illegal {f : List Symbol} (hS : f.length = S) (h : ¬LegalFinalGroup a (f.map Symbol.byte)) :
    decodeFinal I (bitsPerSymbol a) S f = .error (plainError .incorrectPadding) := by
  obtain ⟨v, A, rfl, hA, hlen⟩ := exists_append_pads f
  rw [List.length_append] at hS
  have hd : S - padRun (v ++ A) = v.length := by omega
  simp only [decodeFinal, hd, List.take_left]
  cases hshape : legalShape (bitsPerSymbol a) (padRun (v ++ A)) with
  | none => rfl
  | some nb =>
    refine if_pos ?_
    by_contra hnopad
    refine h ⟨v.map Symbol.byte, A.length, ?_, by simpa using hnopad, ?_⟩
    · rw [List.map_append, map_byte_of_allPads hA]
    · exact (legalPadCount_iff a _).2 ⟨nb, hlen ▸ hshape⟩

/-- A data symbol outside the table is INVALID_SYMBOL, so only the shape gives INCORRECT_PADDING (R147). -/
theorem decodeFinal_incorrectPadding_iff {f : List Symbol} (hS : f.length = S) :
    decodeFinal I (bitsPerSymbol a) S f = .error (plainError .incorrectPadding) ↔
      ¬LegalFinalGroup a (f.map Symbol.byte) := by
  refine ⟨?_, decodeFinal_of_illegal hS⟩
  rintro h ⟨data, p, hf, hdata, hp⟩
  obtain ⟨v, A, rfl, hv, hA⟩ := List.map_eq_append_iff.1 hf
  obtain ⟨nb, hshape⟩ := (legalPadCount_iff a p).1 hp
  have hAlen : A.length = p := by simpa using congrArg List.length hA
  rw [List.length_append] at hS
  rw [decodeFinal_of_legal (hv ▸ hdata) (allPads_of_map_byte hA) hS (hAlen ▸ hshape)] at h
  rcases assembleSymbols_cases I (bitsPerSymbol a) 0 v with ⟨c, -, hw⟩ | ⟨-, w, hw⟩
  · simp [hw, Except.map, plainError, symbolError] at h
  · simp [hw, Except.map] at h

end

/-! ## An aligned sequence -/

/-- The front groups, then the final one (R140). -/
theorem decodeAligned_append_final {I : Byte → Option Nat} {k B S n : Nat} {front last : List Symbol}
    (hfront : front.length = n * S) (hS : 0 < S) (hlast : last.length = S) :
    decodeAligned I k B S (front ++ last) =
      (decodeGroups I k B (symbolGroups S n front)).bind fun y => (decodeFinal I k S last).map (y ++ ·) := by
  have hG : (front ++ last).length / S = n + 1 := by
    rw [List.length_append, hfront, hlast, ← Nat.succ_mul, Nat.mul_div_cancel _ hS]
  have hfinal : ((front ++ last).drop (n * S)).take S = last := by rw [← hfront, List.drop_left, ← hlast, List.take_length]
  simp only [decodeAligned, hG, if_neg (Nat.succ_ne_zero n), Nat.add_sub_cancel, symbolGroups_append_right hfront, hfinal]
  cases decodeGroups I k B (symbolGroups S n front) with
  | error e => rfl
  | ok y => cases decodeFinal I k S last <;> rfl

end Sys2Proof.Machine

/-! SUPPORT. `Decode` of the symbols left after stripping: the three ways it can go (R144), the errors it can raise (R157),
and that it looks at positions only to report them. -/

namespace Sys2Proof.Machine

/-! ## From the symbols left after stripping on -/

/-- `Decode` once the symbols to decode and their positions are fixed (R140, from the length checks on). -/
def decodeStripped (a : Alphabet) (cs : CaseMode) (pad : Bool) (u : List Symbol) : CodecResult :=
  if bitsPerSymbol a = 4 then decodeHex (inv a cs) u
  else (alignSymbols (symbolsPerGroup a) pad u).bind
    (decodeAligned (inv a cs) (bitsPerSymbol a) (bytesPerGroup a) (symbolsPerGroup a))

theorem decodeSymbols_eq (a : Alphabet) (cs : CaseMode) (pad ign : Bool) (s : List Byte) :
    decodeSymbols a cs pad ign s = decodeStripped a cs pad (if ign = true then stripWhitespace s else positioned s) := by
  simp only [decodeSymbols, decodeStripped]
  generalize (if ign = true then stripWhitespace s else positioned s) = u
  cases alignSymbols (symbolsPerGroup a) pad u <;> rfl

theorem decodeSymbols_false (a : Alphabet) (cs : CaseMode) (pad : Bool) (s : List Byte) :
    decodeSymbols a cs pad false s = decodeStripped a cs pad (positioned s) :=
  decodeSymbols_eq a cs pad false s

theorem decodeSymbols_true (a : Alphabet) (cs : CaseMode) (pad : Bool) (s : List Byte) :
    decodeSymbols a cs pad true s = decodeStripped a cs pad (stripWhitespace s) :=
  decodeSymbols_eq a cs pad true s

theorem decodeStripped_hex (cs : CaseMode) (pad : Bool) (u : List Symbol) :
    decodeStripped .hex cs pad u = decodeHex (inv .hex cs) u :=
  rfl

@[simp] theorem decodeStripped_nil (a : Alphabet) (cs : CaseMode) (pad : Bool) : decodeStripped a cs pad [] = .ok [] := by
  cases a <;> cases pad <;> rfl

section
variable {a : Alphabet} {cs : CaseMode} {pad : Bool} {u front v : List Symbol} {n r : Nat}

/-- How the symbols fall into groups when they pass the length check (R144): `n` full groups in front and a final group,
which lacks `r` symbols. With padding enabled it lacks none. -/
structure Grouped (a : Alphabet) (pad : Bool) (front v : List Symbol) (n r : Nat) : Prop where
  front : front.length = n * symbolsPerGroup a
  final : v.length + r = symbolsPerGroup a
  lacks : r < symbolsPerGroup a
  padded : pad = true → r = 0

theorem Grouped.map (h : Grouped a pad front v n r) (φ : Symbol → Symbol) : Grouped a pad (front.map φ) (v.map φ) n r := by
  obtain ⟨hfront, hfinal, hr, hpad⟩ := h
  exact ⟨by rwa [List.length_map], by rwa [List.length_map], hr, hpad⟩

theorem Grouped.append_group (h : Grouped a pad front v n r) {g : List Symbol} (hg : g.length = symbolsPerGroup a) :
    Grouped a pad (g ++ front) v (n + 1) r := by
  obtain ⟨hfront, hfinal, hr, hpad⟩ := h
  exact ⟨by rw [List.length_append, hg, hfront, Nat.succ_mul, Nat.add_comm], hfinal, hr, hpad⟩

/-- Full groups in front of a full final group lack nothing. -/
theorem grouped_of_length_mod (pad : Bool) (hmod : front.length % symbolsPerGroup a = 0)
    (hv : v.length = symbolsPerGroup a) : Grouped a pad front v (front.length / symbolsPerGroup a) 0 :=
  ⟨(Nat.div_mul_cancel (Nat.dvd_of_mod_eq_zero hmod)).symm, hv, symbolsPerGroup_pos a, fun _ => rfl⟩

/-- Re-padding appends what the final group lacks. -/
theorem Grouped.length_mod (h : Grouped a pad front v n r) :
    (symbolsPerGroup a - (front ++ v).length % symbolsPerGroup a) % symbolsPerGroup a = r := by
  obtain ⟨hfront, hfinal, hr, -⟩ := h
  rw [List.length_append, hfront, Nat.mul_add_mod']
  rcases Nat.eq_zero_or_pos r with rfl | hpos
  · rw [← hfinal, Nat.add_zero, Nat.mod_self, Nat.sub_zero, Nat.mod_self]
  · rw [Nat.mod_eq_of_lt (a := v.length) (by omega), Nat.mod_eq_of_lt (by omega)]
    omega

/-- The front groups, then the final group with the symbols it lacks appended as pads (R140, R144). -/
theorem decodeStripped_of_grouped (ha : a ≠ .hex) (h : Grouped a pad front v n r) :
    decodeStripped a cs pad (front ++ v) =
      (decodeGroups (inv a cs) (bitsPerSymbol a) (bytesPerGroup a) (symbolGroups (symbolsPerGroup a) n front)).bind fun y =>
        (decodeFinal (inv a cs) (bitsPerSymbol a) (symbolsPerGroup a) (v ++ List.replicate r ⟨padByte, none⟩)).map
          (y ++ ·) := by
  have hk : bitsPerSymbol a ≠ 4 := fun hk => ha ((bitsPerSymbol_eq_four a).1 hk)
  have halign : alignSymbols (symbolsPerGroup a) pad (front ++ v) =
      .ok (front ++ (v ++ List.replicate r ⟨padByte, none⟩)) := by
    cases pad with
    | false => rw [alignSymbols, if_neg (by decide), h.length_mod, List.append_assoc]
    | true =>
      obtain rfl := h.padded rfl
      have hmod : (front ++ v).length % symbolsPerGroup a = 0 := by
        rw [List.length_append, h.front, Nat.mul_add_mod', ← h.final, Nat.add_zero, Nat.mod_self]
      simp only [alignSymbols, hmod, ne_eq, not_true_eq_false, if_true, if_false, List.replicate_zero, List.append_nil]
  rw [decodeStripped, if_neg hk, halign]
  exact decodeAligned_append_final h.front (symbolsPerGroup_pos a) (by simpa using h.final)

/-- The final group begins after the last multiple of the group below the length. -/
theorem exists_grouped (hne : u ≠ []) (hmod : pad = true → u.length % symbolsPerGroup a = 0) :
    ∃ front v n r, u = front ++ v ∧ Grouped a pad front v n r := by
  have hu : 0 < u.length := List.length_pos_iff.2 hne
  have hlt := Nat.mod_lt (u.length - 1) (symbolsPerGroup_pos a)
  have hsplit := Nat.div_add_mod' (u.length - 1) (symbolsPerGroup a)
  have htake : (u.take ((u.length - 1) / symbolsPerGroup a * symbolsPerGroup a)).length =
      (u.length - 1) / symbolsPerGroup a * symbolsPerGroup a := by
    rw [List.length_take]
    omega
  refine ⟨u.take ((u.length - 1) / symbolsPerGroup a * symbolsPerGroup a),
    u.drop ((u.length - 1) / symbolsPerGroup a * symbolsPerGroup a), (u.length - 1) / symbolsPerGroup a,
    symbolsPerGroup a - 1 - (u.length - 1) % symbolsPerGroup a, (List.take_append_drop ..).symm, htake, ?_, by omega, ?_⟩
  · rw [List.length_drop]
    omega
  · intro hpad
    have hdvd : symbolsPerGroup a ∣ (u.length - 1) % symbolsPerGroup a + 1 := by
      rw [← Nat.dvd_add_right (Nat.dvd_mul_left (symbolsPerGroup a) ((u.length - 1) / symbolsPerGroup a)),
        ← Nat.add_assoc, hsplit, Nat.sub_add_cancel hu]
      exact Nat.dvd_of_mod_eq_zero (hmod hpad)
    have := Nat.le_of_dvd (Nat.succ_pos _) hdvd
    omega

/-- With padding enabled a length that is no multiple of the group ends the decode (R144). -/
theorem decodeStripped_of_length_mod_ne (ha : a ≠ .hex) (hmod : u.length % symbolsPerGroup a ≠ 0) :
    decodeStripped a cs true u = .error (plainError .incorrectPadding) := by
  have hk : bitsPerSymbol a ≠ 4 := fun hk => ha ((bitsPerSymbol_eq_four a).1 hk)
  rw [decodeStripped, if_neg hk, alignSymbols, if_pos rfl, if_pos hmod]
  rfl

/-- The length check fails, there is nothing to decode, or the symbols fall into groups. -/
theorem grouped_cases (a : Alphabet) (pad : Bool) (u : List Symbol) :
    (pad = true ∧ u.length % symbolsPerGroup a ≠ 0) ∨ u = [] ∨
      ∃ front v n r, u = front ++ v ∧ Grouped a pad front v n r := by
  by_cases hbad : pad = true ∧ u.length % symbolsPerGroup a ≠ 0
  · exact .inl hbad
  · by_cases hne : u = []
    · exact .inr (.inl hne)
    · exact .inr (.inr (exists_grouped hne (by tauto)))

/-- A bad symbol in the front groups ends the decode, whatever the final group is (R145). -/
theorem decodeStripped_of_front_bad (ha : a ≠ .hex) (h : Grouped a pad front v n r) {c : Symbol}
    (hbad : firstBad (inv a cs) front = some c) :
    decodeStripped a cs pad (front ++ v) = .error (symbolError c) := by
  rw [decodeStripped_of_grouped ha h]
  rcases decodeGroups_cases (inv a cs) (bitsPerSymbol a) (bytesPerGroup a) (symbolGroups (symbolsPerGroup a) n front) with
    ⟨d, hd, hg⟩ | ⟨hvalid, -⟩
  · rw [flatten_symbolGroups h.front, hbad, Option.some.injEq] at hd
    rw [hg, hd]
    rfl
  · rw [flatten_symbolGroups h.front, hbad] at hvalid
    simp at hvalid

/-- After valid front groups, which give `B` bytes each, the decode ends as the final group does. -/
theorem decodeStripped_of_front_valid (ha : a ≠ .hex) (h : Grouped a pad front v n r)
    (hvalid : firstBad (inv a cs) front = none) :
    ∃ y, y.length = n * bytesPerGroup a ∧ decodeStripped a cs pad (front ++ v) =
      (decodeFinal (inv a cs) (bitsPerSymbol a) (symbolsPerGroup a) (v ++ List.replicate r ⟨padByte, none⟩)).map
        (y ++ ·) := by
  rw [decodeStripped_of_grouped ha h]
  rcases decodeGroups_cases (inv a cs) (bitsPerSymbol a) (bytesPerGroup a) (symbolGroups (symbolsPerGroup a) n front) with
    ⟨c, hbad, -⟩ | ⟨-, y, hg⟩
  · rw [flatten_symbolGroups h.front, hvalid] at hbad
    simp at hbad
  · refine ⟨y, by simpa [length_symbolGroups] using decodeGroups_ok_length hg, ?_⟩
    rw [hg]
    rfl

end

/-- Every error is a plain one, or that of an input symbol outside the table (R157): a pad that re-padding appended is never
looked up. -/
theorem decodeStripped_error {a : Alphabet} {cs : CaseMode} {pad : Bool} {u : List Symbol} {e : CodecError}
    (h : decodeStripped a cs pad u = .error e) :
    (∃ c, c ≠ .invalidSymbol ∧ e = plainError c) ∨ ∃ c ∈ u, inv a cs c.byte = none ∧ e = symbolError c := by
  by_cases ha : a = .hex
  · subst ha
    rw [decodeStripped_hex, decodeHex] at h
    split at h
    · exact .inl ⟨_, by decide, (Except.error.inj h).symm⟩
    · obtain ⟨g, hg, c, hc, hI, he⟩ := decodeGroups_error h
      exact .inr ⟨c, mem_of_mem_symbolGroups hg hc, hI, he⟩
  · rcases grouped_cases a pad u with ⟨rfl, hmod⟩ | rfl | ⟨front, v, n, r, rfl, hgr⟩
    · exact .inl ⟨_, by decide, Except.error.inj (h.symm.trans (decodeStripped_of_length_mod_ne ha hmod))⟩
    · simp at h
    · cases hbad : firstBad (inv a cs) front with
      | some c =>
        rw [decodeStripped_of_front_bad ha hgr hbad, Except.error.injEq] at h
        refine .inr ⟨c, List.mem_append_left _ (List.mem_of_find?_eq_some hbad), ?_, h.symm⟩
        simpa using List.find?_some hbad
      | none =>
        obtain ⟨y, -, hdec⟩ := decodeStripped_of_front_valid ha hgr hbad
        rw [hdec] at h
        rcases decodeFinal_cases (inv a cs) (bitsPerSymbol a) (symbolsPerGroup a)
          (v ++ List.replicate r ⟨padByte, none⟩) with hf | ⟨c, hc, hI, -, hnp, hf⟩ | ⟨nb, w, -, hf⟩ <;> rw [hf] at h
        · exact .inl ⟨_, by decide, (Except.error.inj h).symm⟩
        · rcases List.mem_append.1 hc with hc | hc
          · exact .inr ⟨c, List.mem_append_right _ hc, hI, (Except.error.inj h).symm⟩
          · exact absurd (allPads_replicate r none c hc) hnp
        · cases h

/-! ## Positions -/

/-- The symbol at another position; one without a position stays so. -/
def Symbol.relabel (f : Nat → Nat) (c : Symbol) : Symbol := { c with pos := c.pos.map f }

/-- The error with the position it reports moved; only INVALID_SYMBOL reports one (R203). -/
def CodecError.relabel (f : Nat → Nat) (e : CodecError) : CodecError :=
  if e.code = .invalidSymbol then { e with pos := f e.pos } else e

@[simp] theorem Symbol.relabel_byte (f : Nat → Nat) (c : Symbol) : (c.relabel f).byte = c.byte := rfl

theorem map_byte_map_relabel (f : Nat → Nat) (u : List Symbol) :
    (u.map (Symbol.relabel f)).map Symbol.byte = u.map Symbol.byte := by
  simp

theorem symbolError_relabel (f : Nat → Nat) {c : Symbol} (hc : c.pos ≠ none) :
    (symbolError c).relabel f = symbolError (c.relabel f) := by
  obtain ⟨i, hi⟩ := Option.ne_none_iff_exists'.1 hc
  simp [CodecError.relabel, symbolError, Symbol.relabel, hi]

theorem assembleSymbols_relabel (f : Nat → Nat) (I : Byte → Option Nat) (k w : Nat) {u : List Symbol}
    (hpos : ∀ c ∈ u, c.pos ≠ none) :
    assembleSymbols I k w (u.map (Symbol.relabel f)) = (assembleSymbols I k w u).mapError (CodecError.relabel f) := by
  induction u generalizing w with
  | nil => rfl
  | cons c rest ih =>
    obtain ⟨hc, hrest⟩ := List.forall_mem_cons.1 hpos
    simp only [List.map_cons, assembleSymbols, Symbol.relabel_byte]
    cases I c.byte with
    | none => exact congrArg Except.error (symbolError_relabel f hc).symm
    | some v => exact ih _ hrest

theorem decodeGroups_relabel (f : Nat → Nat) (I : Byte → Option Nat) (k B : Nat) {gs : List (List Symbol)}
    (hpos : ∀ g ∈ gs, ∀ c ∈ g, c.pos ≠ none) :
    decodeGroups I k B (gs.map (List.map (Symbol.relabel f))) =
      (decodeGroups I k B gs).mapError (CodecError.relabel f) := by
  induction gs with
  | nil => rfl
  | cons g rest ih =>
    obtain ⟨hg, hrest⟩ := List.forall_mem_cons.1 hpos
    rw [List.map_cons, decodeGroups, decodeGroups, assembleSymbols_relabel f I k 0 hg, ih hrest]
    cases assembleSymbols I k 0 g with
    | error e => rfl
    | ok w => cases decodeGroups I k B rest <;> rfl

theorem symbolGroups_map (φ : Symbol → Symbol) (S n : Nat) (u : List Symbol) :
    symbolGroups S n (u.map φ) = (symbolGroups S n u).map (List.map φ) := by
  simp [symbolGroups, List.map_drop, List.map_take]

theorem padRun_map_relabel (f : Nat → Nat) (u : List Symbol) : padRun (u.map (Symbol.relabel f)) = padRun u := by
  unfold padRun
  rw [← List.map_reverse, List.takeWhile_map, List.length_map]
  rfl

/-- Only data symbols are looked up in the final group, so pads need no position. -/
theorem decodeFinal_relabel (f : Nat → Nat) (I : Byte → Option Nat) (k S : Nat) {u : List Symbol}
    (hpos : ∀ c ∈ u, c.byte ≠ padByte → c.pos ≠ none) :
    decodeFinal I k S (u.map (Symbol.relabel f)) = (decodeFinal I k S u).mapError (CodecError.relabel f) := by
  simp only [decodeFinal, padRun_map_relabel, ← List.map_take, List.any_map, Function.comp_def, Symbol.relabel_byte]
  cases legalShape k (padRun u) with
  | none => rfl
  | some nb =>
    simp only
    split
    · rfl
    · rename_i hnopad
      rw [assembleSymbols_relabel f I k 0 fun c hc => hpos c (List.mem_of_mem_take hc) fun hpad =>
        hnopad (List.any_eq_true.2 ⟨c, hc, beq_iff_eq.2 hpad⟩)]
      cases assembleSymbols I k 0 (u.take (S - padRun u)) <;> rfl

theorem decodeHex_relabel (f : Nat → Nat) (I : Byte → Option Nat) {u : List Symbol} (hpos : ∀ c ∈ u, c.pos ≠ none) :
    decodeHex I (u.map (Symbol.relabel f)) = (decodeHex I u).mapError (CodecError.relabel f) := by
  simp only [decodeHex, List.length_map, symbolGroups_map]
  split
  · rfl
  · exact decodeGroups_relabel f _ _ _ fun g hg c hc => hpos c (mem_of_mem_symbolGroups hg hc)

/-- Moving the positions moves the position an error reports, and nothing else. -/
theorem decodeStripped_relabel (f : Nat → Nat) (a : Alphabet) (cs : CaseMode) (pad : Bool) {u : List Symbol}
    (hpos : ∀ c ∈ u, c.pos ≠ none) :
    decodeStripped a cs pad (u.map (Symbol.relabel f)) =
      (decodeStripped a cs pad u).mapError (CodecError.relabel f) := by
  by_cases ha : a = .hex
  · subst ha
    exact decodeHex_relabel f _ hpos
  · rcases grouped_cases a pad u with ⟨rfl, hmod⟩ | rfl | ⟨front, v, n, r, rfl, hgr⟩
    · rw [decodeStripped_of_length_mod_ne ha hmod, decodeStripped_of_length_mod_ne ha (by simpa using hmod)]
      rfl
    · rw [List.map_nil, decodeStripped_nil]
      rfl
    · obtain ⟨hfront, hv⟩ := List.forall_mem_append.1 hpos
      have hfinal := decodeFinal_relabel f (inv a cs) (bitsPerSymbol a) (symbolsPerGroup a)
        (u := v ++ List.replicate r ⟨padByte, none⟩) fun c hc hnp => (List.mem_append.1 hc).elim (hv c) fun hc =>
          absurd (allPads_replicate r none c hc) hnp
      rw [List.map_append, List.map_replicate] at hfinal
      rw [List.map_append, decodeStripped_of_grouped ha hgr, decodeStripped_of_grouped ha (hgr.map _), symbolGroups_map,
        decodeGroups_relabel f _ _ _ fun g hg c hc => hfront c (mem_of_mem_symbolGroups hg hc)]
      cases decodeGroups (inv a cs) (bitsPerSymbol a) (bytesPerGroup a) (symbolGroups (symbolsPerGroup a) n front) with
      | error e => rfl
      | ok y =>
        refine (congrArg (Except.map (y ++ ·)) hfinal).trans ?_
        cases decodeFinal (inv a cs) (bitsPerSymbol a) (symbolsPerGroup a) (v ++ List.replicate r ⟨padByte, none⟩) <;> rfl

end Sys2Proof.Machine

/-! SUPPORT. `Decode` of a byte sequence by its parts: a full group in front (R143, R145), a final group of a legal shape
(R148, R149), and the bytes an encoding is made of. -/

namespace Sys2Proof.Machine

/-! ## Sequences in IN_BUF -/

theorem positioned_append (s t : List Byte) :
    positioned (s ++ t) = positioned s ++ (positioned t).map (Symbol.relabel (s.length + ·)) := by
  simp only [positioned, List.zipIdx_append, List.map_append, List.map_map, List.append_cancel_left_eq]
  rw [Nat.zero_add, List.zipIdx_eq_map_add, List.map_map]
  refine List.map_congr_left fun p _ => ?_
  simp [Symbol.relabel, Nat.add_comm]

theorem positioned_append_cons (good : List Byte) (c : Byte) (rest : List Byte) :
    ∃ after, positioned (good ++ c :: rest) = positioned good ++ ⟨c, some good.length⟩ :: after ∧
      after.map Symbol.byte = rest := by
  rw [positioned_append, ← List.singleton_append, positioned_append, List.map_append]
  exact ⟨((positioned rest).map _).map _, rfl, by rw [map_byte_map_relabel, map_byte_map_relabel, map_byte_positioned]⟩

theorem positioned_append_append_cons (before good : List Byte) (c : Byte) (rest : List Byte) :
    ∃ good' after, positioned (before ++ (good ++ c :: rest)) =
        positioned before ++ (good' ++ ⟨c, some (before.length + good.length)⟩ :: after) ∧
      good'.map Symbol.byte = good ∧ after.map Symbol.byte = rest := by
  obtain ⟨after, hu, hafter⟩ := positioned_append_cons good c rest
  rw [positioned_append, hu, List.map_append]
  exact ⟨_, after.map _, rfl, by rw [map_byte_map_relabel, map_byte_positioned], by rw [map_byte_map_relabel, hafter]⟩

theorem pos_ne_none_of_mem_positioned {s : List Byte} {c : Symbol} (hc : c ∈ positioned s) : c.pos ≠ none := by
  obtain ⟨i, hi, -⟩ := mem_positioned hc
  simp [hi]

/-- A successful lookup does not depend on where the symbols stand. -/
theorem assembleSymbols_ok_congr {I : Byte → Option Nat} {k w r : Nat} {f g : List Symbol}
    (hbytes : f.map Symbol.byte = g.map Symbol.byte) (h : assembleSymbols I k w g = .ok r) :
    assembleSymbols I k w f = .ok r := by
  induction g generalizing w f with
  | nil =>
    obtain rfl : f = [] := by simpa using hbytes
    exact h
  | cons d g ih =>
    obtain ⟨c, f, rfl, hc, hrest⟩ := List.map_eq_cons_iff.1 hbytes
    unfold assembleSymbols at h ⊢
    rw [hc]
    cases hd : I d.byte with
    | none => simp [hd] at h
    | some v =>
      simp only [hd] at h ⊢
      exact ih hrest h

theorem valid_of_assembleSymbols_ok {I : Byte → Option Nat} {k w r : Nat} {f : List Symbol}
    (h : assembleSymbols I k w f = .ok r) : ∀ x ∈ f.map Symbol.byte, I x ≠ none := by
  rcases assembleSymbols_cases I k w f with ⟨c, -, herr⟩ | ⟨hvalid, -⟩
  · simp [herr] at h
  · exact firstBad_eq_none_iff.1 hvalid

theorem exists_assembleSymbols_ok {I : Byte → Option Nat} (k w : Nat) {f : List Symbol}
    (h : ∀ x ∈ f.map Symbol.byte, I x ≠ none) : ∃ r, assembleSymbols I k w f = .ok r := by
  rcases assembleSymbols_cases I k w f with ⟨c, hbad, -⟩ | ⟨-, hok⟩
  · simp [firstBad_eq_none_iff.2 h] at hbad
  · exact hok

/-! ## A full group in front -/

section
variable {a : Alphabet} {cs : CaseMode} {w : Nat}

/-- Valid symbols that fill the final group give all their bytes. -/
theorem decodeFinal_full {g : List Symbol} (ha : a ≠ .hex) (hg : g.length = symbolsPerGroup a)
    (hw : assembleSymbols (inv a cs) (bitsPerSymbol a) 0 g = .ok w) :
    decodeFinal (inv a cs) (bitsPerSymbol a) (symbolsPerGroup a) g = .ok (bytesOfValue (bytesPerGroup a) w) := by
  have hshape : legalShape (bitsPerSymbol a) 0 = some (bytesPerGroup a) := by
    revert ha
    cases a <;> decide
  have hpad := padByte_not_mem_of_valid (valid_of_assembleSymbols_ok hw)
  have h := decodeFinal_of_legal (I := inv a cs) (A := []) hpad (by simp [AllPads]) (by simpa using hg) hshape
  rwa [List.append_nil, hw, hg, symbols_mul_bits, Nat.sub_self] at h

/-- R143: a pair of valid symbols gives its byte, and leaves the parity as it is. -/
theorem decodeHex_append_group {I : Byte → Option Nat} {g : List Symbol} (hg : g.length = 2)
    (hw : assembleSymbols I 4 0 g = .ok w) (u : List Symbol) :
    decodeHex I (g ++ u) = (decodeHex I u).map (bytesOfValue 1 w ++ ·) := by
  have hlen : (g ++ u).length = u.length + 2 := by rw [List.length_append, hg, Nat.add_comm]
  rw [decodeHex, decodeHex, hlen, Nat.add_mod_right, Nat.add_div_right _ (by decide), symbolGroups_append g u hg,
    decodeGroups_cons_of_ok hw]
  split <;> rfl

/-- R143, R145: a full group of valid symbols gives its bytes, whatever follows it. -/
theorem decodeStripped_append_group (pad : Bool) {g : List Symbol} (hg : g.length = symbolsPerGroup a)
    (hw : assembleSymbols (inv a cs) (bitsPerSymbol a) 0 g = .ok w) (u : List Symbol) :
    decodeStripped a cs pad (g ++ u) = (decodeStripped a cs pad u).map (bytesOfValue (bytesPerGroup a) w ++ ·) := by
  by_cases ha : a = .hex
  · subst ha
    exact decodeHex_append_group hg hw u
  · rcases grouped_cases a pad u with ⟨rfl, hbad⟩ | rfl | ⟨front, v, n, r, rfl, hgr⟩
    · have hmod : (g ++ u).length % symbolsPerGroup a = u.length % symbolsPerGroup a := by
        rw [List.length_append, hg, Nat.add_mod_left]
      rw [decodeStripped_of_length_mod_ne ha hbad, decodeStripped_of_length_mod_ne ha (hmod ▸ hbad)]
      rfl
    · have h := decodeStripped_of_grouped (cs := cs) ha (grouped_of_length_mod (front := []) pad (Nat.zero_mod _) hg)
      rw [List.nil_append, List.replicate_zero, List.append_nil, decodeFinal_full ha hg hw] at h
      rw [List.append_nil, h, decodeStripped_nil]
      simp [symbolGroups, decodeGroups, Except.bind, Except.map]
    · rw [← List.append_assoc, decodeStripped_of_grouped ha hgr, decodeStripped_of_grouped ha (hgr.append_group hg),
        symbolGroups_append g front hg, decodeGroups_cons_of_ok hw]
      cases decodeGroups (inv a cs) (bitsPerSymbol a) (bytesPerGroup a) (symbolGroups (symbolsPerGroup a) n front) with
      | error e => rfl
      | ok y =>
        cases decodeFinal (inv a cs) (bitsPerSymbol a) (symbolsPerGroup a) (v ++ List.replicate r ⟨padByte, none⟩) with
        | error e => rfl
        | ok z => simp [Except.map, Except.bind]

/-- R143, R145: a full group of valid symbols gives its bytes, and the rest is decoded with its positions behind it. -/
theorem decodeSymbols_append_group (pad : Bool) {g : List Byte} (hg : g.length = symbolsPerGroup a)
    (hw : assembleSymbols (inv a cs) (bitsPerSymbol a) 0 (positioned g) = .ok w) (s : List Byte) :
    decodeSymbols a cs pad false (g ++ s) =
      ((decodeSymbols a cs pad false s).mapError (CodecError.relabel (symbolsPerGroup a + ·))).map
        (bytesOfValue (bytesPerGroup a) w ++ ·) := by
  rw [decodeSymbols_false, decodeSymbols_false, positioned_append, hg,
    decodeStripped_append_group pad (by simpa using hg) hw,
    decodeStripped_relabel _ _ _ _ fun _ => pos_ne_none_of_mem_positioned]

theorem decodeSymbols_append_group_ok {pad : Bool} {g s y : List Byte} (hg : g.length = symbolsPerGroup a)
    (hw : assembleSymbols (inv a cs) (bitsPerSymbol a) 0 (positioned g) = .ok w)
    (h : decodeSymbols a cs pad false s = .ok y) :
    decodeSymbols a cs pad false (g ++ s) = .ok (bytesOfValue (bytesPerGroup a) w ++ y) := by
  rw [decodeSymbols_append_group pad hg hw, h]
  rfl

@[simp] theorem decodeSymbols_nil (a : Alphabet) (cs : CaseMode) (pad ign : Bool) :
    decodeSymbols a cs pad ign [] = .ok [] := by
  rw [decodeSymbols_eq]
  cases ign <;> exact decodeStripped_nil a cs pad

/-! ## The final group -/

/-- R148, R149: a final group of a legal shape alone, its `q` pads written out, or left to re-padding from the `p`-th on. -/
theorem decodeSymbols_final {pad : Bool} {data : List Byte} {p q nb : Nat} (hlen : data.length + q = symbolsPerGroup a)
    (hshape : legalShape (bitsPerSymbol a) q = some nb) (hp : p ≤ q) (hpad : pad = true → p = q)
    (hw : assembleSymbols (inv a cs) (bitsPerSymbol a) 0 (positioned data) = .ok w) :
    decodeSymbols a cs pad false (data ++ List.replicate p padByte) =
      .ok (bytesOfValue nb (w >>> (data.length * bitsPerSymbol a - 8 * nb))) := by
  have ha : a ≠ .hex := by
    rintro rfl
    cases hshape
  have hq := legalShape_add_lt_symbolsPerGroup hshape
  obtain ⟨v, A, hu, hv, hA⟩ := List.map_eq_append_iff.1 (map_byte_positioned (data ++ List.replicate p padByte))
  have hvlen : v.length = data.length := by simpa using congrArg List.length hv
  have hAlen : A.length = p := by simpa using congrArg List.length hA
  have hgr : Grouped a pad [] (v ++ A) 0 (q - p) := ⟨by simp, by simp; omega, by omega, fun h => by simp [hpad h]⟩
  have hpads : AllPads (A ++ List.replicate (q - p) ⟨padByte, none⟩) := fun c hc =>
    (List.mem_append.1 hc).elim (allPads_of_map_byte hA c) (allPads_replicate (q - p) none c)
  have hcount : (A ++ List.replicate (q - p) (⟨padByte, none⟩ : Symbol)).length = q := by simp; omega
  have hwv : assembleSymbols (inv a cs) (bitsPerSymbol a) 0 v = .ok w :=
    assembleSymbols_ok_congr (by rw [hv, map_byte_positioned]) hw
  have h := decodeStripped_of_grouped (cs := cs) ha hgr
  rw [List.append_assoc, decodeFinal_of_legal (padByte_not_mem_of_valid (valid_of_assembleSymbols_ok hwv)) hpads
    (by omega) (hcount ▸ hshape), hwv, hvlen, List.nil_append, ← hu] at h
  exact (decodeSymbols_false a cs pad _).trans h

end

/-! ## The inverse -/

theorem assembleSymbols_positioned_cutSymbols {I : Byte → Option Nat} {F : Nat → Byte} {k m w : Nat}
    (hI : ∀ v < 2 ^ k, I (F v) = some v) (hw : w < 2 ^ (m * k)) :
    assembleSymbols I k 0 (positioned (cutSymbols F k m w)) = .ok w := by
  rw [assembleSymbols_cutSymbols hI m 0 w _ (map_byte_positioned _), Nat.zero_mul, Nat.zero_add, Nat.mod_eq_of_lt hw]

/-- R112: the decode cases that undo an encode case look its symbols up as the values they stand for. -/
theorem inv_fwd {a : Alphabet} {lc : LetterCase} {cs : CaseMode} (hcase : EncodeCaseAllowed a lc)
    (hundoes : CaseUndoes lc cs) {v : Nat} (hv : v < 2 ^ bitsPerSymbol a) : inv a cs (fwd a lc v) = some v := by
  have hletter : invLetter a lc (fwd a lc v) = some v := (invLetter_eq_some_iff hcase).2 ⟨hv, rfl⟩
  rcases hundoes with rfl | ⟨rfl, rfl⟩ | ⟨rfl, rfl⟩
  · cases lc with
    | upper => rw [inv, hletter, Option.some_or]
    | lower => exact (inv_mixed_eq_some_iff hcase).2 ⟨hv, .inr rfl⟩
  · exact hletter
  · exact hletter

/-- The pads that fill a tail's group make a legal shape, which gives the tail's bytes (R123, R146). -/
theorem legalShape_of_tailRow {a : Alphabet} {t m z : Nat} (ht : t < bytesPerGroup a)
    (h : tailRow (bitsPerSymbol a) t = some (m, z)) : legalShape (bitsPerSymbol a) (symbolsPerGroup a - m) = some t := by
  have hrows : ∀ t < bytesPerGroup a, ∀ row ∈ tailRow (bitsPerSymbol a) t,
      legalShape (bitsPerSymbol a) (symbolsPerGroup a - row.1) = some t := by cases a <;> decide
  exact hrows t ht _ h

/-- R158: each full group gives its bytes back, and so does the tail. -/
theorem decodeSymbols_encodeBytes {a : Alphabet} {lc : LetterCase} {cs : CaseMode} (pad : Bool)
    (hcase : EncodeCaseAllowed a lc) (hundoes : CaseUndoes lc cs) (x : List Byte) :
    decodeSymbols a cs pad false (encodeBytes a lc pad x) = .ok x := by
  have hI : ∀ v < 2 ^ bitsPerSymbol a, inv a cs (fwd a lc v) = some v := fun v hv => inv_fwd hcase hundoes hv
  induction x using group_induction (bytesPerGroup_pos a) with
  | group g x hg ih =>
    have hfits : groupValue g < 2 ^ (symbolsPerGroup a * bitsPerSymbol a) := by
      rw [symbols_mul_bits, ← hg]
      exact groupValue_lt g
    rw [encodeBytes_append_group lc pad hg, decodeSymbols_append_group_ok (length_cutSymbols ..)
      (assembleSymbols_positioned_cutSymbols hI hfits) ih, ← hg]
    simpa using bytesOfValue_groupValue 0 g
  | tail x hx =>
    cases hrow : tailRow (bitsPerSymbol a) x.length with
    | none =>
      rw [List.eq_nil_of_length_eq_zero ((tailRow_eq_none_iff hx).1 hrow), encodeBytes_nil, decodeSymbols_nil]
    | some row =>
      obtain ⟨m, z⟩ := row
      have hbits := tailRow_bits hrow
      have hm := tailRow_lt_symbolsPerGroup hrow
      have hfits : groupValue x <<< z < 2 ^ (m * bitsPerSymbol a) := by
        rw [hbits, Nat.shiftLeft_eq, Nat.pow_add]
        exact Nat.mul_lt_mul_of_pos_right (groupValue_lt x) (by positivity)
      have hshift : m * bitsPerSymbol a - 8 * x.length = z := by omega
      have hw := assembleSymbols_positioned_cutSymbols hI hfits
      rw [encodeBytes_of_tailRow lc pad hx hrow, decodeSymbols_final (by simp; omega) (legalShape_of_tailRow hx hrow)
        (by split <;> omega) (fun hpad => if_pos hpad) hw, length_cutSymbols, hshift, Nat.shiftLeft_shiftRight]
      simpa using bytesOfValue_groupValue 0 x

end Sys2Proof.Machine

/-! SUPPORT. Lengths of decodes, whitespace and re-padding (R141, R144, R146, R160). -/

namespace Sys2Proof.Machine

section
variable {a : Alphabet} {cs : CaseMode} {pad : Bool}

/-! ## Re-padding and lengths -/

/-- R144: the pads that re-padding appends may as well stand in the input. -/
theorem decodeStripped_repad (ha : a ≠ .hex) {front v A : List Symbol} {n r : Nat} (h : Grouped a false front v n r)
    (hA : AllPads A) (hlen : A.length = r) :
    decodeStripped a cs false (front ++ v) = decodeStripped a cs true (front ++ v ++ A) := by
  obtain ⟨hfront, hfinal, hr, -⟩ := id h
  have h' : Grouped a true front (v ++ A) n 0 := ⟨hfront, by simp; omega, symbolsPerGroup_pos a, fun _ => rfl⟩
  rw [List.append_assoc, decodeStripped_of_grouped ha h, decodeStripped_of_grouped ha h', List.replicate_zero,
    List.append_nil, decodeFinal_allPads_congr hA (allPads_replicate r none) (by simp [hlen]) (hlen ▸ hfinal)]

/-- R160 for the tables other than base16: `B` bytes for every group begun but the last, and 1 to `B` for that. -/
theorem decodeStripped_ok_length (ha : a ≠ .hex) {u : List Symbol} {y : List Byte} (hu : u ≠ [])
    (h : decodeStripped a cs pad u = .ok y) : ∃ nb, 1 ≤ nb ∧ nb ≤ bytesPerGroup a ∧
      y.length = bytesPerGroup a * ((u.length + symbolsPerGroup a - 1) / symbolsPerGroup a - 1) + nb := by
  rcases grouped_cases a pad u with ⟨rfl, hmod⟩ | rfl | ⟨front, v, n, r, rfl, hgr⟩
  · simp [decodeStripped_of_length_mod_ne ha hmod] at h
  · exact absurd rfl hu
  · have hgroups : ((front ++ v).length + symbolsPerGroup a - 1) / symbolsPerGroup a = n + 1 := by
      obtain ⟨hfront, hfinal, hr, -⟩ := hgr
      rw [List.length_append, hfront]
      apply Nat.div_eq_of_lt_le <;> simp only [Nat.succ_mul] <;> omega
    cases hbad : firstBad (inv a cs) front with
    | some c => simp [decodeStripped_of_front_bad ha hgr hbad] at h
    | none =>
      obtain ⟨y', hy', hdec⟩ := decodeStripped_of_front_valid ha hgr hbad
      rw [hdec] at h
      cases hfinal : decodeFinal (inv a cs) (bitsPerSymbol a) (symbolsPerGroup a)
          (v ++ List.replicate r ⟨padByte, none⟩) with
      | error e => simp [hfinal, Except.map] at h
      | ok z =>
        obtain rfl : y' ++ z = y := by simpa [hfinal, Except.map] using h
        have hz := decodeFinal_ok_length hfinal
        exact ⟨z.length, (legalShape_le hz).1, legalShape_le_bytesPerGroup hz, by
          rw [hgroups, Nat.add_sub_cancel, List.length_append, hy', Nat.mul_comm]⟩

/-! ## Whitespace -/

theorem map_byte_stripWhitespace (s : List Byte) :
    (stripWhitespace s).map Symbol.byte = s.filter fun c => !isWhitespace c := by
  conv_rhs => rw [← map_byte_positioned s, List.filter_map]
  rfl

/-- The index in the input of the `q`-th symbol left by stripping (R157). -/
def strippedPos (s : List Byte) (q : Nat) : Nat := ((stripWhitespace s)[q]?.bind Symbol.pos).getD 0

theorem stripWhitespace_getElem {s : List Byte} {q : Nat} (hq : q < (stripWhitespace s).length) :
    (stripWhitespace s)[q] = ⟨(stripWhitespace s)[q].byte, some (strippedPos s q)⟩ := by
  obtain ⟨i, hi, -⟩ := mem_positioned (mem_stripWhitespace.1 (List.getElem_mem hq)).1
  have hpos : strippedPos s q = i := by simp [strippedPos, List.getElem?_eq_getElem hq, hi]
  rw [hpos, ← hi]

/-- Stripping keeps a byte together with the index it had. -/
theorem stripWhitespace_getElem?_of_filter {s : List Byte} {b : Byte} {q : Nat}
    (h : (s.filter fun c => !isWhitespace c)[q]? = some b) :
    (stripWhitespace s)[q]? = some ⟨b, some (strippedPos s q)⟩ := by
  rw [← map_byte_stripWhitespace, List.getElem?_map] at h
  obtain ⟨c, hc, rfl⟩ := Option.map_eq_some_iff.1 h
  obtain ⟨hq, rfl⟩ := List.getElem?_eq_some_iff.1 hc
  rw [hc, ← stripWhitespace_getElem hq]

/-- Stripping is decoding's sequence of the bytes kept, at the positions they had. -/
theorem stripWhitespace_eq_relabel (s : List Byte) : stripWhitespace s =
    (positioned (s.filter fun c => !isWhitespace c)).map (Symbol.relabel (strippedPos s)) := by
  rw [← map_byte_stripWhitespace]
  refine List.ext_getElem (by simp) fun q hq hq' => ?_
  rw [stripWhitespace_getElem hq]
  simp [getElem_positioned, Symbol.relabel]

/-- R141: with IGN = 1 the decode is that of the bytes kept, with the position of an error moved back. -/
theorem decodeSymbols_true_eq_relabel (a : Alphabet) (cs : CaseMode) (pad : Bool) (s : List Byte) :
    decodeSymbols a cs pad true s = (decodeSymbols a cs pad false (s.filter fun c => !isWhitespace c)).mapError
      (CodecError.relabel (strippedPos s)) := by
  rw [decodeSymbols_true, decodeSymbols_false, stripWhitespace_eq_relabel,
    decodeStripped_relabel _ _ _ _ fun _ => pos_ne_none_of_mem_positioned]

/-- An input without whitespace decodes alike with either IGN. -/
theorem decodeSymbols_of_no_whitespace (ign : Bool) {s : List Byte} (h : ∀ c ∈ s, isWhitespace c = false) :
    decodeSymbols a cs pad ign s = decodeSymbols a cs pad false s := by
  cases ign with
  | false => rfl
  | true =>
    have hkept : stripWhitespace s = positioned s := List.filter_eq_self.2 fun c hc => by
      simpa using h c.byte (map_byte_positioned s ▸ List.mem_map_of_mem hc)
    rw [decodeSymbols_true, decodeSymbols_false, hkept]

theorem isWhitespace_eq_false_of_mem_fwdTable {lc : LetterCase} {c : Byte} (h : c ∈ fwdTable a lc) :
    isWhitespace c = false := by
  refine Bool.eq_false_iff.2 fun hws => not_mem_fwdTable ?_ a lc h
  simp only [isWhitespace, Bool.or_eq_true, beq_iff_eq] at hws
  simp only [List.mem_cons]
  tauto

theorem isWhitespace_fwd (a : Alphabet) (lc : LetterCase) (v : Nat) : isWhitespace (fwd a lc v) = false := by
  by_cases hv : v < (fwdTable a lc).length
  · rw [fwd_eq_getElem hv]
    exact isWhitespace_eq_false_of_mem_fwdTable (List.getElem_mem hv)
  · rw [fwd, List.getD_eq_default _ _ (by omega)]
    rfl

/-- What holds of every symbol and of the pad byte holds of every byte of an encoding. -/
theorem forall_mem_encodeBytes {lc : LetterCase} {P : Byte → Prop} (hfwd : ∀ v, P (fwd a lc v)) (hpad : P padByte)
    (x : List Byte) : ∀ c ∈ encodeBytes a lc pad x, P c := by
  have hcut : ∀ m w, ∀ c ∈ cutSymbols (fwd a lc) (bitsPerSymbol a) m w, P c := fun m w =>
    List.forall_mem_map.2 fun _ _ => hfwd _
  induction x using group_induction (bytesPerGroup_pos a) with
  | group g x hg ih =>
    rw [encodeBytes_append_group lc pad hg]
    exact List.forall_mem_append.2 ⟨hcut _ _, ih⟩
  | tail x hx =>
    cases hrow : tailRow (bitsPerSymbol a) x.length with
    | none =>
      rw [List.eq_nil_of_length_eq_zero ((tailRow_eq_none_iff hx).1 hrow), encodeBytes_nil]
      simp
    | some row =>
      rw [encodeBytes_of_tailRow lc pad hx hrow]
      exact List.forall_mem_append.2 ⟨hcut _ _, fun c hc => List.eq_of_mem_replicate hc ▸ hpad⟩

end

/-! ## Errors -/

/-- R157: INVALID_SYMBOL reports a byte of the input where it stands. -/
theorem decodeSymbols_invalidSymbol {a : Alphabet} {cs : CaseMode} {pad ign : Bool} {s : List Byte} {b : Byte} {p : Nat}
    (h : decodeSymbols a cs pad ign s = .error ⟨.invalidSymbol, b, p⟩) :
    s[p]? = some b ∧ inv a cs b = none ∧ (ign = true → isWhitespace b = false) := by
  rw [decodeSymbols_eq] at h
  rcases decodeStripped_error h with ⟨c, hc, he⟩ | ⟨c, hmem, hI, he⟩
  · exact absurd (congrArg CodecError.code he).symm hc
  · obtain ⟨-, rfl, rfl⟩ := CodecError.mk.inj he
    have hkept : c ∈ positioned s ∧ (ign = true → isWhitespace c.byte = false) := by
      cases ign with
      | false => exact ⟨hmem, by simp⟩
      | true => exact (mem_stripWhitespace.1 hmem).imp_right fun h _ => h
    obtain ⟨i, hi, hs⟩ := mem_positioned hkept.1
    exact ⟨by simpa [hi] using hs, hI, hkept.2⟩

/-- A command that ends with code 3 has run a decode that raised INVALID_SYMBOL (R200). -/
theorem exec_errCode_three {i : Instr} {s t : State} (h : exec i s = .next t) (hcode : t.errCode.toNat = 3) :
    ∃ a cs pad ign b p, decodeSymbols a cs pad ign (inputBytes s) = .error ⟨.invalidSymbol, b, p⟩ ∧
      t = takeError .invalidSymbol b p s := by
  rcases exec_cases i s with ⟨-, hexec⟩ | ⟨-, -, hexec⟩ | ⟨-, -, hexec⟩ <;> rw [hexec] at h
  · obtain rfl := Host.Outcome.next.inj h
    cases hcode
  · obtain rfl := Host.Outcome.next.inj h
    cases hcode
  · rcases finishCommand_cases (codecOf i (inputBytes s)) s with ⟨y, -, -, hf⟩ | ⟨y, -, -, hf⟩ | ⟨⟨c, b, p⟩, he, hf⟩ <;>
      rw [hf] at h
    · obtain rfl := Host.Outcome.next.inj h
      cases hcode
    · cases h
    · obtain rfl := Host.Outcome.next.inj h
      obtain rfl : c = .invalidSymbol := errNumber_eq_three.1 (BitVec.eq_of_toNat_eq hcode)
      rcases codecOf_cases i with ⟨a, lc, pad, henc⟩ | ⟨a, cs, pad, ign, hdec⟩
      · simp [henc] at he
      · exact ⟨a, cs, pad, ign, b, p, hdec _ ▸ he, rfl⟩

section
variable {a : Alphabet} {cs : CaseMode} {good after : List Symbol} {c : Symbol}

/-- R143: in base16 input of even length the first bad symbol is the one reported. -/
theorem decodeHex_of_firstBad {I : Byte → Option Nat} {u : List Symbol} (heven : u.length % 2 = 0)
    (hbad : firstBad I u = some c) : decodeHex I u = .error (symbolError c) := by
  have hflatten : (symbolGroups 2 (u.length / 2) u).flatten = u := flatten_symbolGroups (by omega)
  rw [decodeHex, if_neg (by omega)]
  rcases decodeGroups_cases I 4 1 (symbolGroups 2 (u.length / 2) u) with ⟨d, hd, hdec⟩ | ⟨hvalid, -⟩
  · rw [hflatten] at hd
    rw [hdec, Option.some.inj (hd.symm.trans hbad)]
  · rw [hflatten] at hvalid
    cases hvalid.symm.trans hbad

/-- R145: so it is in an aligned sequence when more than a group stands from it on. -/
theorem decodeStripped_of_bad_before_final (ha : a ≠ .hex) (pad : Bool)
    (hmod : (good ++ c :: after).length % symbolsPerGroup a = 0)
    (hlen : good.length + symbolsPerGroup a < (good ++ c :: after).length)
    (hgood : ∀ x ∈ good.map Symbol.byte, inv a cs x ≠ none) (hc : inv a cs c.byte = none) :
    decodeStripped a cs pad (good ++ c :: after) = .error (symbolError c) := by
  rcases grouped_cases a pad (good ++ c :: after) with ⟨-, h⟩ | hnil | ⟨front, v, n, r, hsplit, hgr⟩
  · exact absurd hmod h
  · simp at hnil
  · have htotal := congrArg List.length hsplit
    rw [List.length_append (as := front)] at htotal
    have hfinal := hgr.final
    obtain ⟨m, rfl, hm⟩ | ⟨m, rfl, -⟩ := List.append_eq_append_iff.1 hsplit
    · obtain ⟨rfl, -⟩ | ⟨between, rfl, -⟩ := List.cons_eq_append_iff.1 hm
      · simp only [List.append_nil] at htotal
        omega
      · rw [hsplit, decodeStripped_of_front_bad ha hgr (firstBad_append_cons hgood hc between)]
    · simp only [List.length_append] at htotal hlen
      omega

/-- R148: and so it is among the data symbols of a final group of a legal shape. -/
theorem decodeStripped_of_bad_in_final (ha : a ≠ .hex) (pad : Bool) {front A : List Symbol}
    (hmod : front.length % symbolsPerGroup a = 0) (hlen : (good ++ c :: after).length + A.length = symbolsPerGroup a)
    (hA : AllPads A) (hp : LegalPadCount a A.length) (hpad : padByte ∉ (good ++ c :: after).map Symbol.byte)
    (hfront : ∀ x ∈ front.map Symbol.byte, inv a cs x ≠ none) (hgood : ∀ x ∈ good.map Symbol.byte, inv a cs x ≠ none)
    (hc : inv a cs c.byte = none) :
    decodeStripped a cs pad (front ++ (good ++ c :: after ++ A)) = .error (symbolError c) := by
  obtain ⟨nb, hshape⟩ := (legalPadCount_iff a A.length).1 hp
  obtain ⟨y, -, hdec⟩ := decodeStripped_of_front_valid ha
    (grouped_of_length_mod pad hmod (List.length_append.trans hlen)) (firstBad_eq_none_iff.2 hfront)
  rw [hdec, List.replicate_zero, List.append_nil,
    decodeFinal_of_firstBad hpad hA hlen hshape (firstBad_append_cons hgood hc after)]
  rfl

end

/-! ## Final groups by their values -/

theorem bytesOfValue_eq_cutSymbols (nb w : Nat) : bytesOfValue nb w = cutSymbols (BitVec.ofNat 8) 8 nb w := by
  refine List.map_congr_left fun i _ => ?_
  have hshift : 8 * (nb - 1 - i) = nb * 8 - 8 - i * 8 := by omega
  rw [hshift]
  exact BitVec.eq_of_toNat_eq (by simp)

/-- A legal final group, alone and padded, from the values of its data symbols (R148, R149). -/
theorem decodeSymbols_final_values {a : Alphabet} {cs : CaseMode} {pad : Bool} {data : List Byte} {vs es : List Nat}
    {q : Nat} (hlen : vs.length + q = symbolsPerGroup a) (hshape : legalShape (bitsPerSymbol a) q = some es.length)
    (hvalues : data.map (inv a cs) = vs.map some)
    (hbytes : HasDigits 8 es (symbolsValue (bitsPerSymbol a) vs >>> (vs.length * bitsPerSymbol a - 8 * es.length))) :
    decodeSymbols a cs pad false (data ++ List.replicate q padByte) = .ok (es.map (BitVec.ofNat 8)) := by
  have hdata : data.length = vs.length := by simpa using congrArg List.length hvalues
  have hw := assembleSymbols_of_values (k := bitsPerSymbol a) 0 (f := positioned data)
    (by rw [map_byte_positioned, hvalues])
  rw [decodeSymbols_final (hdata ▸ hlen) hshape le_rfl (fun _ => rfl) hw, hdata, Nat.zero_mul, Nat.zero_add,
    bytesOfValue_eq_cutSymbols, cutSymbols_of_hasDigits _ hbytes]

/-- The bytes of a full group of base64 symbols with the values `v 0` to `v 3` (R145). -/
def base64GroupBytes (v : Nat → Nat) : List Nat := [v 0 * 4 + v 1 / 16, v 1 % 16 * 16 + v 2 / 4, v 2 % 4 * 64 + v 3]

/-- The bytes of a full group of base32 symbols with the values `v 0` to `v 7` (R145). -/
def base32GroupBytes (v : Nat → Nat) : List Nat :=
  [v 0 * 8 + v 1 / 4, v 1 % 4 * 64 + v 2 * 2 + v 3 / 16, v 3 % 16 * 16 + v 4 / 2, v 4 % 2 * 128 + v 5 * 4 + v 6 / 8,
    v 6 % 8 * 32 + v 7]

/-- The first `m` symbols of a group, the rest of it pads. -/
theorem decodeSymbols_final_range {a : Alphabet} {cs : CaseMode} (pad : Bool) {c : Nat → Byte} {v : Nat → Nat}
    {es : List Nat} (m q : Nat) (hv : ∀ j < symbolsPerGroup a, inv a cs (c j) = some (v j))
    (hlen : m + q = symbolsPerGroup a) (hshape : legalShape (bitsPerSymbol a) q = some es.length)
    (hbytes : HasDigits 8 es
      (symbolsValue (bitsPerSymbol a) ((List.range m).map v) >>> (m * bitsPerSymbol a - 8 * es.length))) :
    decodeSymbols a cs pad false ((List.range m).map c ++ List.replicate q padByte) = .ok (es.map (BitVec.ofNat 8)) := by
  have hm : ((List.range m).map v).length = m := by simp
  refine decodeSymbols_final_values (vs := (List.range m).map v) (hm.symm ▸ hlen) hshape ?_ (hm.symm ▸ hbytes)
  rw [List.map_map, List.map_map]
  exact List.map_congr_left fun j hj => hv j (by have := List.mem_range.1 hj; omega)

/-- R143: base16 input, pair by pair. -/
theorem decodeSymbols_hex_pairs {cs : CaseMode} (pad : Bool) (n : Nat) {g : Nat → Byte} {f : Nat → Nat}
    (h : ∀ j < 2 * n, inv .hex cs (g j) = some (f j)) :
    decodeSymbols .hex cs pad false ((List.range (2 * n)).map g) =
      .ok ((List.range n).map fun j => BitVec.ofNat 8 (f (2 * j) * 16 + f (2 * j + 1))) := by
  induction n generalizing g f with
  | zero => exact decodeSymbols_nil .hex cs pad false
  | succ n ih =>
    have hvalues : [g 0, g 1].map (inv .hex cs) = [f 0, f 1].map some := by simp [h 0 (by omega), h 1 (by omega)]
    have hw := assembleSymbols_of_values (k := bitsPerSymbol .hex) 0 (f := positioned [g 0, g 1])
      (by rw [map_byte_positioned, hvalues])
    have hrest := ih (g := fun j => g (j + 2)) (f := fun j => f (j + 2)) fun j hj => h (j + 2) (by omega)
    have hsplit : (List.range (2 * (n + 1))).map g = [g 0, g 1] ++ (List.range (2 * n)).map fun j => g (j + 2) := by
      rw [Nat.mul_succ, List.range_succ_eq_map, List.range_succ_eq_map]
      simp [Function.comp_def]
    rw [hsplit, decodeSymbols_append_group_ok rfl hw hrest, List.range_succ_eq_map]
    simp [bytesOfValue, bytesPerGroup, bitsPerSymbol, symbolsValue, Function.comp_def, Nat.mul_add]

end Sys2Proof.Machine

/-! The statements of 42_decode.md: decoding undoes encoding, the decode commands, lengths, the errors, the groups, whitespace
and re-padding. -/

namespace Sys2Proof

open Sys2Proof.Machine

/-! ## Decoding undoes encoding -/

/-- Settles O24: group by group, and then the tail with its pads written out or left to re-padding. -/
theorem decodingUndoesEncoding : Obligations.DecodingUndoesEncoding :=
  fun _ _ _ pad x hcase hundoes => decodeSymbols_encodeBytes pad hcase hundoes x

/-- Settles O25: the lowered encoding is the lower-case one (R133), which mixed decoding undoes. -/
theorem mixedDecodingIgnoresLetterCase : Obligations.MixedDecodingIgnoresLetterCase := by
  intro a pad x ha
  have h := decodeSymbols_encodeBytes pad (lc := .lower) (.inr ha) (.inl rfl) x
  rw [encodeBytes_lower] at h
  exact h

/-! ## The decode commands -/

/-- Settles O22: DEC16 ends as `Decode` says, and that takes the input pair by pair. -/
theorem dec16WritesOneBytePerPair : Obligations.Dec16WritesOneBytePerPair := by
  intro s cs nopad f hlegal hlen hcs heven hvalues
  obtain ⟨hdec, -⟩ := decodeCommandsEndAsDecodeSays s cs nopad false hlegal hlen
  obtain ⟨t, ht, hresult⟩ := hdec (.dec16 cs nopad false) .hex ⟨hcs, .inl ⟨rfl, rfl⟩⟩
  have htwo : 2 * (s.latLen.toNat / 2) = s.latLen.toNat := by omega
  have hpairs := decodeSymbols_hex_pairs (!nopad) (s.latLen.toNat / 2) (htwo.symm ▸ hvalues)
  rw [htwo, ← inputBytes] at hpairs
  rw [hpairs] at hresult
  exact ⟨t, ht, hresult⟩

/-- Settles O23: the commands end as `Decode` says, an encoding decodes to its input, and it holds no whitespace that IGN
could remove. -/
theorem decodeCommandsUndoEncoding : Obligations.DecodeCommandsUndoEncoding := by
  intro s lc cs nopad ign x hlegal hlen
  obtain ⟨hdec, hdec64⟩ := decodeCommandsEndAsDecodeSays s cs nopad ign hlegal hlen
  refine ⟨fun i a hi hundoes hinput => ?_, fun i a hi hinput => ?_⟩
  · have hcs : cs ≠ .reserved := by rcases hundoes with rfl | ⟨rfl, -⟩ | ⟨rfl, -⟩ <;> decide
    have hcase : EncodeCaseAllowed a lc := .inr (hi.imp And.right (Or.imp And.right And.right))
    obtain ⟨t, ht, hresult⟩ := hdec i a ⟨hcs, hi⟩
    rw [hinput, decodeSymbols_encodeBytes (!nopad) hcase hundoes] at hresult
    exact ⟨t, ht, hresult⟩
  · obtain ⟨t, ht, hresult⟩ := hdec64 i a hi
    rw [hinput, decodeSymbols_of_no_whitespace ign (forall_mem_encodeBytes
      (P := fun c => isWhitespace c = false) (isWhitespace_fwd a .upper) rfl x),
      decodeSymbols_encodeBytes (!nopad) (.inl rfl) (.inr (.inl ⟨rfl, rfl⟩))] at hresult
    exact ⟨t, ht, hresult⟩

/-! ## Lengths -/

/-- Settles O26: with re-padding the groups begun are the groups decoded. -/
theorem decodedLength : Obligations.DecodedLength := by
  intro a cs pad ign s y h u
  have hlen := length_decodeSymbols_le_length h
  rw [decodeSymbols_eq] at h
  have hu : u = (if ign = true then stripWhitespace s else positioned s).length := by
    cases ign with
    | false => exact (length_positioned s).symm
    | true => exact (congrArg List.length (map_byte_stripWhitespace s)).symm.trans (List.length_map _)
  rw [hu]
  generalize (if ign = true then stripWhitespace s else positioned s) = v at h
  refine ⟨hlen, ?_, fun h0 => ?_, fun ha hpos => decodeStripped_ok_length ha (List.length_pos_iff.1 hpos) h⟩
  · rintro rfl
    exact decodeHex_ok_length h
  · rw [List.eq_nil_of_length_eq_zero h0, decodeStripped_nil] at h
    exact (Except.ok.inj h).symm

/-- Settles O34: nothing is left to decode. -/
theorem emptyInputDecodesToNothing : Obligations.EmptyInputDecodesToNothing := by
  refine ⟨decodeSymbols_nil, fun a cs pad s hs => ?_⟩
  have hkept : s.filter (fun c => !isWhitespace c) = [] := List.filter_eq_nil_iff.2 fun c hc => by simp [hs c hc]
  rw [decodeSymbols_true_eq_relabel, hkept, decodeSymbols_nil]
  rfl

/-! ## Errors -/

/-- Settles O27: the codec's error is of an input symbol (R157), and the command shows it. -/
theorem invalidSymbolNamesAnInputByte : Obligations.InvalidSymbolNamesAnInputByte := by
  refine ⟨fun a cs pad ign s b p h => decodeSymbols_invalidSymbol h, fun i s t hexec hcode => ?_⟩
  obtain ⟨a, cs, pad, ign, b, p, hdec, rfl⟩ := exec_errCode_three hexec hcode
  obtain ⟨hp, hbyte⟩ := List.getElem?_eq_some_iff.1 (decodeSymbols_invalidSymbol hdec).1
  rw [getElem_inputBytes] at hbyte
  rw [length_inputBytes] at hp
  have hpos : (takeError .invalidSymbol b p s).errPos.toNat = p := by
    rw [takeError_errPos, BitVec.toNat_ofNat, Nat.mod_eq_of_lt (hp.trans s.latLen.isLt)]
  rw [hpos]
  exact ⟨hp, hbyte⟩

/-- Settles O28: in each place the symbols before the bad one are valid, so the lookup stops there. -/
theorem firstBadSymbolIsReported : Obligations.FirstBadSymbolIsReported := by
  refine ⟨fun cs pad good rest c heven hgood hc => ?hex, fun a cs pad good rest c ha hmod hlen hgood hc => ?front,
    fun a cs pad before good rest c p ha hmod hlen hp hpad hgood hc => ?final⟩
  case hex =>
    obtain ⟨after, hu, -⟩ := positioned_append_cons good c rest
    rw [← length_positioned, hu] at heven
    rw [decodeSymbols_false, decodeStripped_hex, hu,
      decodeHex_of_firstBad heven (firstBad_append_cons (by rwa [map_byte_positioned]) hc after)]
    rfl
  case front =>
    obtain ⟨after, hu, -⟩ := positioned_append_cons good c rest
    rw [← length_positioned (good ++ c :: rest), hu] at hmod hlen
    rw [decodeSymbols_false, hu, decodeStripped_of_bad_before_final ha pad hmod (by rwa [length_positioned])
      (by rwa [map_byte_positioned]) hc]
    rfl
  case final =>
    obtain ⟨hbefore, hdata⟩ := List.forall_mem_append.1 hgood
    obtain ⟨good', after, hu, rfl, hafter⟩ :=
      positioned_append_append_cons before good c (rest ++ List.replicate p padByte)
    obtain ⟨tail, A, rfl, rfl, hA⟩ := List.map_eq_append_iff.1 hafter
    obtain rfl : A.length = p := by simpa using congrArg List.length hA
    rw [List.append_assoc, List.cons_append, decodeSymbols_false, hu, ← List.cons_append, ← List.append_assoc good',
      decodeStripped_of_bad_in_final ha pad (by rwa [length_positioned]) (by simpa using hlen) (allPads_of_map_byte hA) hp
        (by simpa using hpad) (by rwa [map_byte_positioned]) hdata hc]
    rfl

/-- Settles O29: the parity is looked at first, and a lookup raises another code. -/
theorem oddLengthExactlyOnOddInput : Obligations.OddLengthExactlyOnOddInput := by
  intro cs pad s
  rw [decodeSymbols_false, decodeStripped_hex, decodeHex, length_positioned]
  split
  · rename_i hodd
    exact iff_of_true rfl (Nat.mod_two_ne_zero.1 hodd)
  · rename_i heven
    refine iff_of_false (fun h => ?_) (by omega)
    obtain ⟨-, -, c, -, -, he⟩ := decodeGroups_error h
    exact ErrCode.noConfusion (congrArg CodecError.code he)

/-- Settles O30: the length check, and re-padding with pads that stand in the input. -/
theorem nopadDecodesTheRepaddedInput : Obligations.NopadDecodesTheRepaddedInput := by
  intro a cs s ha
  refine ⟨fun hmod => ?_, ?_⟩
  · rw [decodeSymbols_false]
    exact decodeStripped_of_length_mod_ne ha (by simpa using hmod)
  · rw [decodeSymbols_false, decodeSymbols_false, positioned_append]
    rcases grouped_cases a false (positioned s) with ⟨h, -⟩ | hnil | ⟨front, v, n, r, hu, hgr⟩
    · cases h
    · obtain rfl : s = [] := by simpa using congrArg List.length hnil
      simp [positioned]
    · have hr := hgr.length_mod
      rw [← hu, length_positioned] at hr
      rw [hr, hu]
      exact decodeStripped_repad ha hgr (allPads_of_map_byte (by rw [map_byte_map_relabel, map_byte_positioned]; rfl))
        (by simp)

/-- Settles O31: the front groups are valid, so the decode ends as the final group does. -/
theorem finalGroupShapeDecidesPaddingError : Obligations.FinalGroupShapeDecidesPaddingError := by
  intro a cs pad before f ha hmod hf hvalid
  have hv : ((positioned f).map (Symbol.relabel (before.length + ·))).length = symbolsPerGroup a := by simpa using hf
  obtain ⟨y, -, hdec⟩ :=
    decodeStripped_of_front_valid (cs := cs) ha (grouped_of_length_mod pad ((length_positioned before).symm ▸ hmod) hv)
      (firstBad_eq_none_iff.2 ((map_byte_positioned before).symm ▸ hvalid))
  have hshape := decodeFinal_incorrectPadding_iff (I := inv a cs) (a := a) hv
  rw [map_byte_map_relabel, map_byte_positioned] at hshape
  rw [decodeSymbols_false, positioned_append, hdec, List.replicate_zero, List.append_nil, ← hshape]
  generalize decodeFinal (inv a cs) (bitsPerSymbol a) (symbolsPerGroup a) _ = result
  cases result <;> simp [Except.map, plainError]

/-! ## Groups -/

/-- Settles O32: the lookups of a valid group succeed. -/
theorem fullGroupDecodesInFront : Obligations.FullGroupDecodesInFront := by
  intro a cs g s y hg hvalid h
  obtain ⟨w, hw⟩ := exists_assembleSymbols_ok (bitsPerSymbol a) 0 ((map_byte_positioned g).symm ▸ hvalid)
  refine ⟨bytesOfValue (bytesPerGroup a) w, length_bytesOfValue .., ?_, decodeSymbols_append_group_ok hg hw h⟩
  simpa using decodeSymbols_append_group_ok hg hw (decodeSymbols_nil a cs true false)

/-- Settles O33: in each shape the values listed are the bytes of the symbols' value without its discarded bits. -/
theorem finalGroupBytes : Obligations.FinalGroupBytes := by
  refine ⟨fun a pad c v ha hv => ?base64, fun a cs pad c v ha hcase hv => ?base32⟩
  case base64 =>
    have hfinal (m q : Nat) {es : List Nat} (hlen : m + q = 4) (hshape : legalShape 6 q = some es.length)
        (hbytes : HasDigits 8 es (symbolsValue 6 ((List.range m).map v) >>> (m * 6 - 8 * es.length))) :
        decodeSymbols a .upper pad false ((List.range m).map c ++ List.replicate q padByte) =
          .ok (es.map (BitVec.ofNat 8)) := by
      rcases ha with rfl | rfl <;> exact decodeSymbols_final_range pad m q hv hlen hshape hbytes
    have hlt : ∀ j < 4, v j < 64 := fun j hj => by
      rcases ha with rfl | rfl <;> exact inv_lt (hv j hj)
    simp only [Nat.forall_lt_succ_right] at hlt
    refine ⟨hfinal 4 0 (es := base64GroupBytes v) rfl rfl ?_,
      hfinal 3 1 (es := (base64GroupBytes v).take 2) rfl rfl ?_,
      hfinal 2 2 (es := (base64GroupBytes v).take 1) rfl rfl ?_⟩
    all_goals
      simp [HasDigits, symbolsValue, Nat.shiftRight_eq_div_pow, base64GroupBytes, List.range_succ]
      omega
  case base32 =>
    have hfinal (m q : Nat) {es : List Nat} (hlen : m + q = 8) (hshape : legalShape 5 q = some es.length)
        (hbytes : HasDigits 8 es (symbolsValue 5 ((List.range m).map v) >>> (m * 5 - 8 * es.length))) :
        decodeSymbols a cs pad false ((List.range m).map c ++ List.replicate q padByte) =
          .ok (es.map (BitVec.ofNat 8)) := by
      rcases ha with rfl | rfl <;> exact decodeSymbols_final_range pad m q hv hlen hshape hbytes
    have hlt : ∀ j < 8, v j < 32 := fun j hj => by
      rcases ha with rfl | rfl <;> exact inv_lt (hv j hj)
    simp only [Nat.forall_lt_succ_right] at hlt
    refine ⟨hfinal 8 0 (es := base32GroupBytes v) rfl rfl ?_,
      hfinal 7 1 (es := (base32GroupBytes v).take 4) rfl rfl ?_,
      hfinal 5 3 (es := (base32GroupBytes v).take 3) rfl rfl ?_,
      hfinal 4 4 (es := (base32GroupBytes v).take 2) rfl rfl ?_,
      hfinal 2 6 (es := (base32GroupBytes v).take 1) rfl rfl ?_⟩
    all_goals
      simp [HasDigits, symbolsValue, Nat.shiftRight_eq_div_pow, base32GroupBytes, List.range_succ]
      omega

/-! ## Whitespace -/

/-- Settles O35: moving the position of an error changes neither the bytes nor another code. -/
theorem ignDecodesTheStrippedInput : Obligations.IgnDecodesTheStrippedInput := by
  intro a cs pad s u
  have htrue : decodeSymbols a cs pad true s =
      (decodeSymbols a cs pad false u).mapError (CodecError.relabel (strippedPos s)) :=
    decodeSymbols_true_eq_relabel a cs pad s
  rw [htrue]
  cases hu : decodeSymbols a cs pad false u with
  | ok y => simp [Except.mapError]
  | error e =>
    obtain ⟨code, byte, q⟩ := e
    by_cases hcode : code = .invalidSymbol
    · subst hcode
      have hkept := stripWhitespace_getElem?_of_filter (decodeSymbols_invalidSymbol hu).1
      refine ⟨by simp [Except.mapError], fun c b p hc => ?_, fun b p => ?_⟩
      · simp [Except.mapError, CodecError.relabel, hc.symm]
      · simp only [Except.mapError, CodecError.relabel, if_true, Except.error.injEq, CodecError.mk.injEq, true_and]
        constructor
        · rintro ⟨rfl, rfl⟩
          exact ⟨q, ⟨rfl, rfl⟩, hkept⟩
        · rintro ⟨_, ⟨rfl, rfl⟩, hp⟩
          simpa using hkept.symm.trans hp
    · simp [Except.mapError, CodecError.relabel, hcode]

end Sys2Proof

/-! SUPPORT. Padding reaches a multiple of the group (R171); the whitespace set and the rising indexes of `Strip` (R173). -/

namespace Sys2Proof.Machine

/-! ## Padding -/

theorem padSymbols_of_length_mod_eq_zero {y : List Byte} {g : Nat} (h : y.length % g = 0) (c : Byte) :
    padSymbols y g c = y := if_pos h

theorem length_padSymbols_mod (y : List Byte) {g : Nat} (hg : 0 < g) (c : Byte) :
    (padSymbols y g c).length % g = 0 := by
  rw [length_padSymbols]
  split
  case isTrue hmod => exact hmod
  case isFalse =>
    have hlt := Nat.mod_lt y.length hg
    have hle := Nat.mod_le y.length g
    have hround : y.length + (g - y.length % g) = y.length - y.length % g + g := by omega
    rw [hround, Nat.add_mod_right]
    exact Nat.mod_eq_zero_of_dvd (Nat.dvd_sub_mod y.length)

/-- The one multiple of the group from the length up to fewer than a group above it. -/
theorem length_padSymbols_eq_mul_ceil (y : List Byte) {g : Nat} (hg : 0 < g) (c : Byte) :
    (padSymbols y g c).length = g * ((y.length + g - 1) / g) := by
  obtain ⟨k, hk⟩ := Nat.dvd_of_mod_eq_zero (length_padSymbols_mod y hg c)
  obtain ⟨r, hr, hpad⟩ := padSymbols_eq_append y hg c
  have hsum : y.length + r = g * k := by simpa [hpad] using hk
  have hceil : (y.length + g - 1) / g = k := by
    have hsucc : (k + 1) * g = g * k + g := by ring
    exact Nat.div_eq_of_lt_le (by rw [Nat.mul_comm]; omega) (by omega)
  rw [hk, hceil]

/-! ## Whitespace -/

/-- The set `W` of R173. -/
theorem isWhitespace_iff_mem {c : Byte} : isWhitespace c = true ↔ c ∈ ([0x20, 0x09, 0x0D, 0x0A] : List Byte) := by
  simp [isWhitespace, or_assoc]

/-- The order R173's indexes rise in, for symbols that have one. -/
def PosLT (c d : Symbol) : Prop := ∀ i j, c.pos = some i → d.pos = some j → i < j

theorem pairwise_posLT_positioned (s : List Byte) : (positioned s).Pairwise PosLT := by
  refine List.pairwise_iff_getElem.2 fun p q hp hq hpq i j hi hj => ?_
  rw [getElem_positioned] at hi hj
  obtain rfl : p = i := Option.some.inj hi
  obtain rfl : q = j := Option.some.inj hj
  exact hpq

end Sys2Proof.Machine

/-! The statements of 43_padding_whitespace.md: the properties of `Pad`, and what `Strip` keeps. -/

namespace Sys2Proof

open Sys2Proof.Machine

/-- Settles O39: the padded length is a multiple of the group, so a second padding finds nothing to add. -/
theorem padProperties : Obligations.PadProperties := fun y _ c hg =>
  ⟨padSymbols_of_length_mod_eq_zero (length_padSymbols_mod y hg c) c, length_padSymbols_eq_mul_ceil y hg c,
    padSymbols_eq_append y hg c⟩

/-- Settles O40: stripping filters the input's sequence, where each byte has its own index and the indexes rise. -/
theorem stripKeepsTheOtherBytes : Obligations.StripKeepsTheOtherBytes := by
  refine fun s => ⟨?bytes, fun c hc => ?index, ?rising⟩
  case bytes =>
    rw [map_byte_stripWhitespace]
    refine List.filter_congr fun c _ => ?_
    rw [decide_not, ← Bool.decide_congr isWhitespace_iff_mem, Bool.decide_eq_true]
  case index => exact mem_positioned (mem_stripWhitespace.1 hc).1
  case rising => exact (pairwise_posLT_positioned s).filter _

end Sys2Proof

/-! SUPPORT. Which errors a command can end with (R200): those of its codec, and those of the checks made before it (R207). -/

namespace Sys2Proof.Machine

/-- The error of a decode whose input has a length or a final group no encoding has (R142, R144, R146). -/
def shapeError (a : Alphabet) : ErrCode := if bitsPerSymbol a = 4 then .oddLength else .incorrectPadding

theorem decodeStripped_error_cases {a : Alphabet} {cs : CaseMode} {pad : Bool} {u : List Symbol} {e : CodecError}
    (h : decodeStripped a cs pad u = .error e) : e = plainError (shapeError a) ∨ ∃ c, e = symbolError c := by
  rw [decodeStripped] at h
  rw [shapeError]
  split at h
  case isTrue hbits =>
    rw [if_pos hbits]
    exact (decodeHex_error h).imp_right fun ⟨c, _, he⟩ => ⟨c, he⟩
  case isFalse hbits =>
    rw [if_neg hbits]
    cases halign : alignSymbols (symbolsPerGroup a) pad u with
    | error e' =>
      rw [halign] at h
      obtain rfl := Except.error.inj h
      exact .inl (alignSymbols_error halign)
    | ok v =>
      rw [halign] at h
      exact (decodeAligned_error h).imp_right fun ⟨c, _, he⟩ => ⟨c, he⟩

/-- A decode raises the shape error of its table, or INVALID_SYMBOL (R200). -/
theorem decodeSymbols_error_code {a : Alphabet} {cs : CaseMode} {pad ign : Bool} {s : List Byte} {e : CodecError}
    (h : decodeSymbols a cs pad ign s = .error e) : e.code ∈ [shapeError a, .invalidSymbol] := by
  rw [decodeSymbols_eq] at h
  rcases decodeStripped_error_cases h with rfl | ⟨c, rfl⟩
  · exact List.mem_cons_self
  · exact List.mem_cons_of_mem _ List.mem_cons_self

/-- The errors a command can end with: an encode raises none of its own (R131), and a decode those of `Decode`. -/
def commandErrors : Instr → List ErrCode
  | .enc16 _ _ _ | .enc32 _ _ _ | .enc32hex _ _ _ | .enc64 _ _ _ | .enc64url _ _ _ => [.illegalCommand, .lengthRange]
  | .dec16 _ _ _ => [.oddLength, .invalidSymbol, .illegalCommand, .lengthRange]
  | .dec32 _ _ _ | .dec32hex _ _ _ | .dec64 _ _ _ | .dec64url _ _ _ =>
    [.incorrectPadding, .invalidSymbol, .illegalCommand, .lengthRange]

theorem illegalCommand_mem_commandErrors (i : Instr) : .illegalCommand ∈ commandErrors i := by
  cases i <;> simp [commandErrors]

theorem lengthRange_mem_commandErrors (i : Instr) : .lengthRange ∈ commandErrors i := by
  cases i <;> simp [commandErrors]

theorem codecOf_error_code {i : Instr} {x : List Byte} {e : CodecError} (h : codecOf i x = .error e) :
    e.code ∈ commandErrors i := by
  cases i with
  | enc16 | enc32 | enc32hex | enc64 | enc64url => cases h
  | dec16 | dec32 | dec32hex | dec64 | dec64url =>
    rw [codecOf] at h
    exact List.mem_append_left _ (decodeSymbols_error_code h)

/-- What a completed command leaves: a success, or an error that its command can raise and the registers can report. -/
theorem exec_next_result {i : Instr} {s t : State} (h : exec i s = .next t) :
    (∃ y, t = completeOk y s) ∨
    ∃ e : CodecError, e.code ∈ commandErrors i ∧ e.Reportable s.latLen.toNat ∧ t = takeError e.code e.byte e.pos s := by
  rcases exec_cases i s with ⟨-, hexec⟩ | ⟨-, -, hexec⟩ | ⟨-, -, hexec⟩ <;> rw [hexec] at h
  · exact .inr ⟨plainError .illegalCommand, illegalCommand_mem_commandErrors i, plainError_reportable (by decide) _,
      (Host.Outcome.next.inj h).symm⟩
  · exact .inr ⟨plainError .lengthRange, lengthRange_mem_commandErrors i, plainError_reportable (by decide) _,
      (Host.Outcome.next.inj h).symm⟩
  · rcases finishCommand_cases (codecOf i (inputBytes s)) s with ⟨y, -, -, hf⟩ | ⟨y, -, -, hf⟩ | ⟨e, he, hf⟩ <;>
      rw [hf] at h
    · exact .inl ⟨y, (Host.Outcome.next.inj h).symm⟩
    · cases h
    · exact .inr ⟨e, codecOf_error_code he, length_inputBytes s ▸ codecOf_error he, (Host.Outcome.next.inj h).symm⟩

/-- ERRCODE after a command is 0 or the number of one of its errors (R25, R200). -/
theorem exec_errCode_mem {i : Instr} {s t : State} (h : exec i s = .next t) :
    t.errCode.toNat ∈ 0 :: (commandErrors i).map ErrCode.number := by
  rcases exec_next_result h with ⟨y, rfl⟩ | ⟨e, hcode, -, rfl⟩
  · exact List.mem_cons_self
  · rw [takeError_errCode, errNumber_toNat]
    exact List.mem_cons_of_mem _ (List.mem_map_of_mem hcode)

/-- A legal command too long for IN_BUF ends before its codec runs (R206, R207). -/
theorem exec_of_tooLong {i : Instr} {s : State} (hwf : i.wellFormed = true)
    (hlong : s.config.inBufBytes < s.latLen.toNat) : exec i s = .next (takeError .lengthRange 0 0 s) := by
  rw [exec_eq_runCommand, hwf, runCommand, if_neg (by decide), if_pos hlong]

end Sys2Proof.Machine

/-! The statements of 60_exceptions.md: the error codes of each command, and the length check. -/

namespace Sys2Proof

open Sys2Proof.Machine

/-- Settles O10: a success clears the error registers, and an error is one its command can raise, with a byte and a position
only for INVALID_SYMBOL. -/
theorem errorCodesOfEachCommand : Obligations.ErrorCodesOfEachCommand := by
  intro i s t hexec
  refine ⟨?flag, ?operands, ?codes⟩
  case flag =>
    rcases exec_next_result hexec with ⟨y, rfl⟩ | ⟨e, -, -, rfl⟩
    · simp
    · exact iff_of_true rfl (errNumber_ne_zero e.code)
  case operands =>
    intro hcode
    rcases exec_next_result hexec with ⟨y, rfl⟩ | ⟨e, -, ⟨hplain, -⟩, rfl⟩
    · exact ⟨rfl, rfl⟩
    · obtain ⟨hbyte, hpos⟩ := hplain fun hc => hcode (by rw [takeError_errCode, hc]; rfl)
      simp [hbyte, hpos]
  case codes =>
    have hmem := exec_errCode_mem hexec
    cases i <;> exact hmem

/-- Settles O7: the length is checked before the input is read, so IN_BUF goes through unread. -/
theorem tooLongInputEndsWithLengthRange : Obligations.TooLongInputEndsWithLengthRange := fun _ s hwf hlong =>
  ⟨_, exec_of_tooLong hwf hlong, takeError_failedWith .lengthRange 0 0 s (by decide), fun m e =>
    exec_of_tooLong (s := { s with inBuf := m, inEpoch := e }) hwf hlong⟩

end Sys2Proof

/-! SUPPORT. Which accesses a busy block refuses, by offset, and that the others do as when idle (R53, R255). -/

namespace Sys2Proof.Machine

/-- The offsets of R255's table: writes to CMD, IN_LEN and IN_BUF, and every access to OUT_BUF. -/
def RefusedWhileBusy (c : Config) (isWrite : Bool) (a : Nat) : Prop :=
  outBufBase ≤ a ∨
    isWrite = true ∧ (a < 4 ∨ (8 ≤ a ∧ a < 12) ∨ (inBufBase ≤ a ∧ a < inBufBase + c.inBufBytes))

/-- What an access reaches is forbidden while BUSY = 1 exactly at these offsets. -/
theorem forbiddenWhileBusy_iff {c : Config} {addr : Offset} {n : Nat} {tgt : Target} (hlegal : c.Legal)
    (htgt : targetOf c addr n = some tgt) (isWrite : Bool) :
    forbiddenWhileBusy isWrite tgt = true ↔ RefusedWhileBusy c isWrite addr.toNat := by
  obtain ⟨-, hcap, -, -⟩ := hlegal
  unfold RefusedWhileBusy inBufBase outBufBase
  cases tgt with
  | reg r =>
    obtain ⟨rfl, -⟩ := eq_regOffset_of_targetOf htgt
    cases r <;> simp [forbiddenWhileBusy, regOffset]
  | inBuf i =>
    obtain ⟨hfits, haddr, hwidth⟩ := targetOf_inBuf htgt
    obtain ⟨hn, -⟩ := (widthOk_iff _ _).1 hwidth
    rw [haddr, inBufBase, forbiddenWhileBusy]
    constructor
    · exact fun hw => .inr ⟨hw, by omega⟩
    · rintro (hout | ⟨hw, -⟩)
      · omega
      · exact hw
  | outBuf i =>
    obtain ⟨-, haddr, -⟩ := targetOf_outBuf htgt
    rw [outBufBase] at haddr
    exact iff_of_true rfl (.inl (by omega))

section
variable {s : State} {addr : Offset} {n : Nat} {isWrite : Bool} (hlegal : s.config.Legal)
include hlegal

theorem permitted_of_refused (hbusy : s.busy = true) (h : RefusedWhileBusy s.config isWrite addr.toNat) :
    permitted s addr n isWrite = none := by
  rcases permitted_cases s addr n isWrite with ⟨hnone, -⟩ | ⟨tgt, htgt, -, hopen⟩
  · exact hnone
  · exact absurd ((forbiddenWhileBusy_iff hlegal htgt isWrite).2 h) (Bool.eq_false_iff.1 (hopen hbusy))

/-- At every other offset BUSY makes no difference to what an access reaches. -/
theorem permitted_of_not_refused (h : ¬RefusedWhileBusy s.config isWrite addr.toNat) :
    permitted s addr n isWrite = targetOf s.config addr n := by
  cases htgt : targetOf s.config addr n with
  | none => simp [permitted, htgt]
  | some tgt =>
    refine permitted_of_not_forbidden htgt (Bool.eq_false_iff.2 fun hf => h ?_)
    exact (forbiddenWhileBusy_iff hlegal htgt isWrite).1 hf

theorem permitted_eq_idle (h : ¬RefusedWhileBusy s.config isWrite addr.toNat) :
    permitted s addr n isWrite = permitted { s with busy := false } addr n isWrite := by
  rw [permitted_of_not_refused hlegal h, permitted_of_idle rfl]

theorem hostRead_of_refused (hbusy : s.busy = true) (h : RefusedWhileBusy s.config false addr.toNat) :
    hostRead s addr n = busError := by
  rw [hostRead, permitted_of_refused hlegal hbusy h]

theorem hostWrite_of_refused (hbusy : s.busy = true) (h : RefusedWhileBusy s.config true addr.toNat) (v : Word) :
    (hostWriteResponse s addr n).error = true ∧ hostWrite s addr n v = s := by
  have herr : (hostWriteResponse s addr n).error = true := by
    rw [hostWriteResponse_error, permitted_of_refused hlegal hbusy h]
    rfl
  exact ⟨herr, hostWrite_of_error herr v⟩

end

/-- BUSY is read in STATUS alone. -/
theorem readTarget_idle (s : State) (n : Nat) {tgt : Target} (h : tgt ≠ .reg .status) :
    readTarget { s with busy := false } n tgt = readTarget s n tgt := by
  cases tgt with
  | inBuf i | outBuf i => rfl
  | reg r =>
    cases r with
    | status => exact absurd rfl h
    | cmd | inLen | outLen | errByte | errPos | inCap | outCap | irqEn => rfl

/-- A write that R255 leaves open neither reads nor changes BUSY. -/
theorem writeTarget_idle (s : State) (n : Nat) (v : Word) {tgt : Target} (h : forbiddenWhileBusy true tgt = false) :
    writeTarget { s with busy := false } n v tgt = { writeTarget s n v tgt with busy := false } := by
  cases tgt with
  | inBuf i | outBuf i => cases h
  | reg r =>
    cases r with
    | cmd | inLen => cases h
    | status => simp only [writeTarget, writeReg_status]
    | outLen | errByte | errPos | inCap | outCap | irqEn => rfl

section
variable {s : State} {addr : Offset} (hlegal : s.config.Legal) (n : Nat)
include hlegal

theorem hostRead_eq_idle (h : ¬RefusedWhileBusy s.config false addr.toNat) (hstatus : addr.toNat ≠ 4) :
    hostRead s addr n = hostRead { s with busy := false } addr n := by
  rw [hostRead, hostRead, ← permitted_eq_idle hlegal h]
  rcases permitted_cases s addr n false with ⟨hnone, -⟩ | ⟨tgt, htgt, hsome, -⟩
  · rw [hnone]
  · have hother : tgt ≠ .reg .status := by
      rintro rfl
      obtain ⟨rfl, -⟩ := eq_regOffset_of_targetOf htgt
      exact hstatus rfl
    rw [hsome]
    exact congrArg (BusResponse.mk false) (readTarget_idle s n hother).symm

theorem hostWriteResponse_eq_idle (h : ¬RefusedWhileBusy s.config true addr.toNat) :
    hostWriteResponse s addr n = hostWriteResponse { s with busy := false } addr n := by
  rw [hostWriteResponse, hostWriteResponse, permitted_eq_idle hlegal h]

theorem hostWrite_idle_eq (h : ¬RefusedWhileBusy s.config true addr.toNat) (v : Word) :
    hostWrite { s with busy := false } addr n v = { hostWrite s addr n v with busy := false } := by
  rw [hostWrite, hostWrite, ← permitted_eq_idle hlegal h]
  rcases permitted_cases s addr n true with ⟨hnone, -⟩ | ⟨tgt, htgt, hsome, -⟩
  · rw [hnone]
  · have hopen : forbiddenWhileBusy true tgt = false :=
      Bool.eq_false_iff.2 fun hf => h ((forbiddenWhileBusy_iff hlegal htgt true).1 hf)
    rw [hsome]
    exact writeTarget_idle s n v hopen

end

end Sys2Proof.Machine

/-! The statements of 70_reset_and_hazards.md: what a busy block refuses, and the reset state. -/

namespace Sys2Proof

open Sys2Proof.Machine

/-! ## A command in flight -/

/-- The invariant leaves no flag but BUSY set in STATUS while a command is in flight (R25). -/
theorem statusWord_of_busy {s : State} (hinv : Inv s) (hbusy : s.busy = true) : statusWord s = 1 := by
  obtain ⟨hdone, herr, hcode, -⟩ := hinv.busy_clear hbusy
  rw [statusWord, hbusy, hdone, herr, hcode]
  rfl

/-- Settles O44: an access is refused exactly at R255's offsets; any other reaches what it reaches in an idle block, where
only a STATUS read sees BUSY. -/
theorem busyBlockRefusesOperandAndOutputAccesses : Obligations.BusyBlockRefusesOperandAndOutputAccesses := by
  refine ⟨fun s addr n v hbusy hlegal => ⟨fun haddr => ?operands, fun haddr => ?output, fun haddr => ?reads,
    fun haddr => ?writes⟩, fun s hinv hbusy => ?registers⟩
  case operands => exact hostWrite_of_refused hlegal hbusy (.inr ⟨rfl, haddr⟩) v
  case output =>
    exact ⟨hostRead_of_refused hlegal hbusy (.inl haddr), hostWrite_of_refused hlegal hbusy (.inl haddr) v⟩
  case reads =>
    have hopen : ¬RefusedWhileBusy s.config false addr.toNat := by
      simpa [RefusedWhileBusy, outBufBase] using haddr
    refine ⟨?_, hostRead_eq_idle hlegal n hopen⟩
    rw [hostRead_error, hostRead_error, permitted_eq_idle hlegal hopen]
  case writes =>
    have hopen : ¬RefusedWhileBusy s.config true addr.toNat := by
      obtain ⟨-, hcap, -, -⟩ := hlegal
      unfold RefusedWhileBusy inBufBase outBufBase
      omega
    exact ⟨hostWriteResponse_eq_idle hlegal n hopen, hostWrite_idle_eq hlegal n hopen v⟩
  case registers =>
    obtain ⟨-, -, -, hlen, hbyte, hpos⟩ := hinv.busy_clear hbusy
    have hread (r : Reg) {x : Word} (hx : readReg s r = x) : hostRead s (regOffset r) 4 = ⟨false, x⟩ :=
      hx ▸ hostRead_regOffset s r
    refine ⟨hread .status (statusWord_of_busy hinv hbusy), hread .outLen ?_, hread .errByte ?_, hread .errPos ?_⟩
    · rw [readReg, hlen]; rfl
    · rw [readReg, hbyte]; rfl
    · rw [readReg, hpos]; rfl

/-! ## Reset -/

theorem justReset_resetOf (c : Config) : JustReset c (State.resetOf c) where
  cmd := rfl
  latLen := rfl
  busy := rfl
  doneBit := rfl
  errBit := rfl
  errCode := rfl
  inLen := rfl
  outLen := rfl
  errByte := rfl
  errPos := rfl
  irqEn := rfl
  config := rfl
  inNoValue _ := rfl
  outNoValue _ := rfl

/-- The `rst` input differs from `State.resetOf` in the model's own fields alone, of which R250's table says nothing. -/
theorem justReset_applyReset (s : State) : JustReset s.config (applyReset s) :=
  { justReset_resetOf s.config with }

/-- Settles O54: the step that performs `rst` is `applyReset`, whatever the block was doing. -/
theorem resetState : Obligations.ResetState := by
  refine ⟨justReset_resetOf, justReset_resetOf _, fun s rest h => ?_⟩
  exact ⟨_, step_of_hostMovesWith h, justReset_applyReset (dequeueEvent s rest), rfl⟩

end Sys2Proof
